-- ==== Sys2Proof/Word.lean ====
section
/-! DEFINITION. The value types of the block (spec 00 R12): bytes of 8 bits and words of 32 bits, all unsigned. -/

namespace Sys2Proof

/-- A byte is 8 bits (R12). -/
abbrev Byte := BitVec 8

/-- A word is 32 bits (R12): an address, the cursor, a processor register, a programmed cell. -/
abbrev Word := BitVec 32

end Sys2Proof
end

