-- ==== Sys2Proof/Config.lean ====
section
/-! DEFINITION. What an implementation fixes (spec 00 R7 to R9) and the free values (10 R47, 42 R184, R185, R191).
The constants of R7 are plain definitions. The open parameters of R9 and every draw of the environment are OPAQUE
constants with no body: nothing can be proved of their value, so a claim holds for all of them. -/

namespace Sys2Proof.Config

/-- Reply byte ACK (R7). -/
def ack : Byte := 0x06#8

/-- Reply byte NACK (R7). -/
def nack : Byte := 0x15#8

/-- Command code of CONNECT (R7). -/
def cmdConnect : Byte := 0x01#8

/-- Command code of DATA (R7). -/
def cmdData : Byte := 0x02#8

/-- Command code of FINISH (R7). -/
def cmdFinish : Byte := 0x03#8

/-- The erased value of a non-volatile byte (R7). -/
def erased : Byte := 0xFF#8

/-- The two synchronization bytes, configuration fields of the model (R8). -/
structure Sync where
  a : Byte
  b : Byte
  deriving DecidableEq, Repr

/-- A half-open range [base, base + size) of byte addresses: a sector of ERASE_SET, or a part of NVM_DOM (R9). -/
structure Region where
  base : Nat
  size : Nat
  deriving DecidableEq, Repr, Inhabited

/-- Address `a` lies in the region. -/
def Region.contains (r : Region) (a : Nat) : Bool :=
  decide (r.base ≤ a) && decide (a < r.base + r.size)

/-- No address lies in both regions. -/
def Region.disjoint (r q : Region) : Bool :=
  decide (r.base + r.size ≤ q.base) || decide (q.base + q.size ≤ r.base) || decide (r.size = 0) || decide (q.size = 0)

/-- The named parameters whose values the document does not give (R9). -/
structure Params where
  /-- RX_BUF_SIZE: capacity of the receive buffer in bytes. -/
  rxBufSize : Nat
  /-- APP_BASE: the image base. -/
  appBase : Word
  /-- APP_SIZE: size of the application region in bytes. -/
  appSize : Nat
  /-- ERASE_SET: the sectors CONNECT erases, in erase order (D18). -/
  eraseSet : List Region
  /-- NVM_DOM: the addresses that are non-volatile memory, as a union of regions. Assumption 18. -/
  nvmDom : List Region
  /-- RAM_LO: lowest acceptable initial stack pointer. -/
  ramLo : Word
  /-- RAM_HI: highest acceptable initial stack pointer. -/
  ramHi : Word
  /-- SETTLE_MS: the settle delay, timing only (D20). -/
  settleMs : Nat
  deriving DecidableEq, Repr, Inhabited

/-- Address `a` is in NVM_DOM (R9). -/
def Params.inNvm (p : Params) (a : Nat) : Bool := p.nvmDom.any (·.contains a)

/-- Address `a` is in some sector of ERASE_SET (R9). -/
def Params.inEraseSet (p : Params) (a : Nat) : Bool := p.eraseSet.any (·.contains a)

/-- The constraints of R9. -/
def Params.ok (p : Params) : Bool :=
  decide (6 ≤ p.rxBufSize) && decide (p.appBase.toNat % 4 = 0) && decide (8 ≤ p.appSize)
    && decide (p.appBase.toNat + p.appSize ≤ 2 ^ 32)
    && decide (p.eraseSet.Pairwise fun r q => r.disjoint q = true)
    && decide (∀ i, i < p.appSize → p.inEraseSet (p.appBase.toNat + i) = true)
    && p.eraseSet.all (fun r => decide (∀ i, i < r.size → p.inNvm (r.base + i) = true))
    && p.nvmDom.all (fun r => decide (r.base % 4 = 0) && decide (r.size % 4 = 0) && decide (r.base + r.size ≤ 2 ^ 32))
    && decide (p.ramLo ≤ p.ramHi)

/-- CFG_EX of spec 95 section 0, "the spec's own choice for illustration": used by the tests, and here only to show
that parameters meeting R9's constraints exist. -/
def exampleParams : Params where
  rxBufSize := 2048
  appBase := 0x08008000#32
  appSize := 0x18000
  eraseSet := [⟨0x08008000, 0x4000⟩, ⟨0x0800C000, 0x4000⟩, ⟨0x08010000, 0x10000⟩]
  nvmDom := [⟨0x08000000, 0x100000⟩]
  ramLo := 0x20000000#32
  ramHi := 0x20020000#32
  settleMs := 100

/-- The implementation's parameters before R9's constraints are imposed: any values. -/
opaque drawnParams : Params

/-- The implementation's parameters: any values that meet R9's constraints. Assumption 1. -/
def params : Params := if drawnParams.ok then drawnParams else exampleParams

/-- Does the n-th controller operation fail (R184, R185, R191; D14)? -/
opaque nvmFail : Nat → Bool

/-- The value a byte holds at address `a` after the n-th draw leaves it any value (R184, R185, R273; D13, D14, D27). -/
opaque anyByte : Nat → Nat → Byte

/-- The status flags the n-th operation adds when it may add any (R184, R185; D32). -/
opaque anyFlags : Nat → List Nat

/-- The timer's counter after its n-th change (R38; D31). -/
opaque timerCount : Nat → Nat

/-- CURSOR_RESET at the reset with draw n (R9, R24; D8). -/
opaque resetCursor : Nat → Word

/-- CPU_MSP at the reset with draw n (R34, R48). -/
opaque resetMsp : Nat → Word

/-- CPU_PC at the reset with draw n (R35, R48). -/
opaque resetPc : Nat → Word

/-- CPU_VTBASE at the reset with draw n (R37, R48). -/
opaque resetVtbase : Nat → Word

/-- TMR_CNT at the reset with draw n (R38, R48). -/
opaque resetTimer : Nat → Nat

/-- NVM_FLAGS at the reset with draw n (R32, R48). -/
opaque resetFlags : Nat → List Nat

end Sys2Proof.Config
end

