-- ==== Sys2Proof/Syntax.lean ====
section
/-! DEFINITION. The wire command set (spec 00 R2; 30 R95, R97; opcode_table.json): one constructor per mnemonic of the
table, each carrying the operands its frame holds. The seven UNKNOWN rows are one constructor with its command code. -/

namespace Sys2Proof

/-- One validated frame: the command and its operands (41 R151). -/
inductive Instr where
  /-- CONNECT, code 0x01 (41 R152): the payload is opaque. -/
  | connect (payload : List Byte)
  /-- DATA, code 0x02 (41 R153): the payload is raw image bytes. -/
  | data (payload : List Byte)
  /-- FINISH, code 0x03 (41 R154): the payload is opaque. -/
  | finish (payload : List Byte)
  /-- UNKNOWN, every other code (41 R155): the payload is ignored. -/
  | unknown (cmd : Byte) (payload : List Byte)
  deriving DecidableEq, Repr

end Sys2Proof
end

