-- ==== Sys2Proof/WellFormed.lean ====
section
/-! DEFINITION. Which instructions a frame can carry: a payload length that fits the 16-bit field (30 R92), and for
UNKNOWN a code that is none of the three known ones (30 R96). -/

namespace Sys2Proof

/-- The payload, whatever the command. -/
def Instr.payload : Instr → List Byte
  | .connect p => p
  | .data p => p
  | .finish p => p
  | .unknown _ p => p

/-- The command byte of the frame (30 R95). -/
def Instr.code : Instr → Byte
  | .connect _ => Config.cmdConnect
  | .data _ => Config.cmdData
  | .finish _ => Config.cmdFinish
  | .unknown cmd _ => cmd

/-- The payload length fits the frame's 16-bit length field (30 R92: 0 to 65535). -/
def payloadFits (p : List Byte) : Bool := decide (p.length < 65536)

/-- The code is one of the 253 that are not CONNECT, DATA or FINISH (30 R96). -/
def codeUnknown (cmd : Byte) : Bool :=
  decide (cmd ≠ Config.cmdConnect) && decide (cmd ≠ Config.cmdData) && decide (cmd ≠ Config.cmdFinish)

/-- The instruction is one a frame can carry. -/
def Instr.wellFormed : Instr → Bool
  | .connect p => payloadFits p
  | .data p => payloadFits p
  | .finish p => payloadFits p
  | .unknown cmd p => codeUnknown cmd && payloadFits p

end Sys2Proof
end

