-- ==== Sys2Proof/Decode.lean ====
section
/-! DEFINITION. The frame decoder as a function of the buffered bytes (spec 30 R90 to R100; 40 R121 to R128) and the
encoder (30 R103). Decoding is total: a buffer that holds no dispatchable frame is rejected by the name of the pass
outcome it gives. The order of the tests is that of 60 R252. -/

/-- SYNC_A and SYNC_B as the one worked frame shows them (spec 00 R8, D1). Assumption 2. -/
def Sys2Proof.Config.sync : Sys2Proof.Config.Sync := { a := 0x5A#8, b := 0xA5#8 }

namespace Sys2Proof

/-- Why a buffer gives no frame to the dispatcher (60 R241). -/
inductive Reject where
  /-- INCOMPLETE: fewer than 6 bytes, or fewer than 6 + N (R122, R125, R248). The pass waits. -/
  | incomplete
  /-- BAD_SYNC: byte 0 or byte 1 is not the sync constant (R123, R242). -/
  | badSync
  /-- BAD_SUM: the check byte is not the sum of the covered bytes (R126, R243). -/
  | badSum
  deriving DecidableEq, Repr

/-- The outcome of decoding a buffer: a validated frame and the surplus bytes behind it (R125, R128), or a rejection. -/
inductive Decoded where
  | frame (i : Instr) (surplus : List Byte)
  | rejected (why : Reject)
  deriving DecidableEq, Repr

/-- The 8-bit modular sum of a byte sequence (30 R94). -/
def byteSum : List Byte → Byte
  | [] => 0#8
  | b :: bs => b + byteSum bs

/-- The payload length field, little-endian, unsigned, exact (30 R92; 40 R124). -/
def payloadLength (lo hi : Byte) : Nat := lo.toNat + 256 * hi.toNat

/-- The check byte a frame must carry: the sum of the command byte, both length bytes and the payload (30 R94). -/
def checkByte (cmd lo hi : Byte) (payload : List Byte) : Byte := byteSum (cmd :: lo :: hi :: payload)

/-- Selection by the command byte alone (30 R95; 41 R151). -/
def selectCommand (cmd : Byte) (payload : List Byte) : Instr :=
  if cmd = Config.cmdConnect then .connect payload
  else if cmd = Config.cmdData then .data payload
  else if cmd = Config.cmdFinish then .finish payload
  else .unknown cmd payload

/-- The checks behind the length field: `body` is what is buffered from offset 5 on, `n` the payload length. -/
def decodeBody (cmd lo hi : Byte) (n : Nat) (body : List Byte) : Decoded :=
  match body.drop n with
  | [] => .rejected .incomplete
  | sum :: surplus =>
    if checkByte cmd lo hi (body.take n) = sum then .frame (selectCommand cmd (body.take n)) surplus
    else .rejected .badSum

/-- The decode pass's tests in their fixed order (40 R121; 60 R252): at least 6 bytes, the two sync bytes, a complete
frame, the check byte. -/
def decodeWith (k : Config.Sync) (buf : List Byte) : Decoded :=
  match buf with
  | b0 :: b1 :: cmd :: lo :: hi :: b5 :: rest =>
    if b0 = k.a ∧ b1 = k.b then decodeBody cmd lo hi (payloadLength lo hi) (b5 :: rest)
    else .rejected .badSync
  | _ => .rejected .incomplete

/-- Decoding with the block's sync bytes. -/
def decode (buf : List Byte) : Decoded := decodeWith Config.sync buf

/-- The frame of a command code and payload (30 R103): sync, command, length, payload, check byte. -/
def frameBytes (k : Config.Sync) (cmd : Byte) (payload : List Byte) : List Byte :=
  let lo := BitVec.ofNat 8 payload.length
  let hi := BitVec.ofNat 8 (payload.length / 256)
  k.a :: k.b :: cmd :: lo :: hi :: (payload ++ [checkByte cmd lo hi payload])

/-- The bytes of an instruction on the wire (30 R90, R103). -/
def encodeWith (k : Config.Sync) (i : Instr) : List Byte := frameBytes k i.code i.payload

/-- Encoding with the block's sync bytes. -/
def encode (i : Instr) : List Byte := encodeWith Config.sync i

/-- Byte `k` of the bits a table word holds above its 24-bit selector. -/
def tableOperandByte (w k : Nat) : Byte := BitVec.ofNat 8 (w >>> (24 + 8 * k))

/-- The complete frame an opcode-table word stands for (30 R102). The table numbers a row's bits as ONE 24-bit number
`sel` with frame byte 0 most significant; bits above it are the bytes that follow, in frame order. A row "selects the
command only for a complete frame whose sum byte is correct", so the check byte is the sum. Assumption 16. -/
def frameOfTableWord (nbits w : Nat) : List Byte :=
  let v := w % 2 ^ nbits
  let cmd := BitVec.ofNat 8 v
  let lo := tableOperandByte v 0
  let hi := tableOperandByte v 1
  let payload := (List.range (payloadLength lo hi)).map fun i => tableOperandByte v (2 + i)
  BitVec.ofNat 8 (v >>> 16) :: BitVec.ofNat 8 (v >>> 8) :: cmd :: lo :: hi :: (payload ++ [checkByte cmd lo hi payload])

/-- The instruction the decoder reads from an opcode-table word (host interface). -/
def decodeTableWord (nbits w : Nat) : Option Instr :=
  match decode (frameOfTableWord nbits w) with
  | .frame i _ => some i
  | .rejected _ => none

end Sys2Proof
end

