-- ==== Sys2Proof/Machine/Env.lean ====
section
/-! DEFINITION. The environment of a run: the parameters and the draws in one record (spec 00 R9; 10 R47), and the test
of the RAM range. -/

namespace Sys2Proof.Config

/-- Membership in the declared RAM address range, both ends inclusive (R9, D11). -/
def Params.inRam (p : Params) (v : Word) : Bool := decide (p.ramLo ≤ v) && decide (v ≤ p.ramHi)

/-- Everything a run of the block takes as an argument beside its state (R9, R47): the parameters and the draws.
The operations of the machine take one, so that a claim can be made of every one of them. -/
structure Env where
  params : Params
  sync : Sync
  nvmFail : Nat → Bool
  anyByte : Nat → Nat → Byte
  anyFlags : Nat → List Nat
  timerCount : Nat → Nat
  resetCursor : Nat → Word
  resetMsp : Nat → Word
  resetPc : Nat → Word
  resetVtbase : Nat → Word
  resetTimer : Nat → Nat
  resetFlags : Nat → List Nat

/-- The machine's environment: the opaque parameters and draws. -/
def env : Env where
  params := params
  sync := sync
  nvmFail := nvmFail
  anyByte := anyByte
  anyFlags := anyFlags
  timerCount := timerCount
  resetCursor := resetCursor
  resetMsp := resetMsp
  resetPc := resetPc
  resetVtbase := resetVtbase
  resetTimer := resetTimer
  resetFlags := resetFlags

/-- NVM_RELIABLE (R191): every low-level failure draw is false. -/
def Env.Reliable (c : Env) : Prop := ∀ n, c.nvmFail n = false

end Sys2Proof.Config
end

