-- ==== Sys2Proof/Machine/Flags.lean ====
section
/-! DEFINITION. The controller's status flags (spec 10 R32; D32): an abstract finite set of flag names, held as a
strictly rising list so that equal sets are equal data. The block has no other flag (10 R45). -/

namespace Sys2Proof.Machine

/-- Insert a flag name into a rising list of flag names, unless it is there. -/
def insertFlag (f : Nat) : List Nat → List Nat
  | [] => [f]
  | g :: gs => if f < g then f :: g :: gs else if f = g then g :: gs else g :: insertFlag f gs

/-- Union of a flag set with the flag names of a list (R184, R185: "NVM_FLAGS ∪ draw of any set of flags"). -/
def unionFlags (s : List Nat) : List Nat → List Nat
  | [] => s
  | f :: fs => insertFlag f (unionFlags s fs)

/-- The canonical form: strictly rising, so each name once. -/
def flagsWf (s : List Nat) : Bool := decide (s.Pairwise (· < ·))

end Sys2Proof.Machine
end

