-- ==== Sys2Proof/Machine/State.lean ====
section
/-! DEFINITION. The complete state of the block (spec 10 R20), the reasons a step can stop, and the state after reset
(10 R48; 70 R271). State is plain data. -/

namespace Sys2Proof.Machine

/-- Bytes by address: a list of cells with strictly rising addresses, none equal to what an unlisted address reads as
(`Config.erased`, 0xFF). NVM and RXBUF are both kept in this form. Assumptions 8 and 9. -/
abbrev Memory := List Host.Cell

/-- The Command Dispatcher's state (10 R23; 41 R150). -/
inductive DState where
  | idle
  | connected
  | launched
  deriving DecidableEq, Repr

/-- The Launch Validator's state (10 R25; 43 R210). -/
inductive LState where
  | candidate
  | valid
  | rejected
  deriving DecidableEq, Repr

/-- One atomic action of ENG after the sample (10 R28). -/
inductive Action where
  /-- `Tx(b)` (R41). -/
  | tx (b : Byte)
  /-- `NvmUnlock()` (42 R181). -/
  | nvmUnlock
  /-- `NvmLock()` (42 R182). -/
  | nvmLock
  /-- `NvmClearFlags()` (42 R183). -/
  | nvmClearFlags
  /-- `NvmEraseSector(s)` (42 R184). -/
  | nvmEraseSector (s : Config.Region)
  /-- `NvmProgramWord(c, w)` (42 R185). -/
  | nvmProgramWord (c : Word) (w : Word)
  /-- `CURSOR <- v` (41 R152, R153). -/
  | setCursor (v : Word)
  /-- `DSTATE <- v` (41 R152). -/
  | setDstate (v : DState)
  /-- `LSTATE <- v` (43 R218). -/
  | setLstate (v : LState)
  /-- `Delay(ms)` (70 R290). -/
  | delay (ms : Nat)
  /-- `sp <- MemRead(APP_BASE, 4)` and the test of launch step 2 (43 R211, R212). -/
  | readSp
  /-- `entry <- MemRead(APP_BASE + 4, 4)`, launch step 3, with the candidate `sp` (43 R213). -/
  | readEntry (sp : Word)
  /-- `CPU_IMASK <- 1`, launch step 4 (43 R214). -/
  | maskInterrupts
  /-- `TMR_EN <- 0`, launch step 4. -/
  | timerDisable
  /-- `TMR_CNT <- 0`, launch step 4. -/
  | timerZero
  /-- `CPU_VTBASE <- v`, launch step 5 (43 R215). -/
  | setVtbase (v : Word)
  /-- `CPU_MSP <- v`, launch step 6 (43 R216). -/
  | setMsp (v : Word)
  /-- `CPU_PC <- v`, launch step 7 (43 R217). -/
  | setPc (v : Word)
  /-- `DSTATE <- LAUNCHED ; EPH <- GONE` (43 R217, R218). -/
  | leave
  /-- The final `RXLEN <- 0` of a pass, DISCARD (40 R134). -/
  | discard
  /-- The place after the one `Launch()` of a direct boot, reached only when it was rejected: the spec defines nothing
  there (43 R222, D23). No rule performs it. -/
  | bootReturn
  deriving DecidableEq, Repr

/-- EPH, the engine's phase (10 R27). -/
inductive Phase where
  /-- Between passes. -/
  | poll
  /-- Inside a pass, with the atomic actions still to perform, in order. -/
  | busy (k : List Action)
  /-- A launch has succeeded; ENG has no further step. -/
  | gone
  deriving DecidableEq, Repr

/-- What the startup gate selects at boot (10 R44; 70 R275). -/
inductive BootMode where
  | update
  | direct
  deriving DecidableEq, Repr

/-- A hardware reset, an input from outside (70 R270 to R273). -/
structure ResetEvent where
  /-- It strikes during the controller operation ENG is performing (R273), not between two atomic actions. -/
  duringOperation : Bool
  /-- The level of the startup gate read at this boot. -/
  gate : BootMode
  /-- The bytes the host sends after the reset (R40, R48). -/
  wire : List Byte
  deriving DecidableEq, Repr

/-- Who moves next: one entry of the schedule (10 R28, R47; 20 R70). The model's own. Assumptions 3 and 4. -/
inductive Turn where
  /-- ENG performs one atomic action. -/
  | eng
  /-- RX takes a step, if it is enabled. -/
  | rx
  /-- Time passes at the periodic timer (10 R38; 60 R250). -/
  | tick
  /-- The machine's step ends here; it changes nothing. -/
  | pause
  /-- The platform resets. -/
  | reset (e : ResetEvent)
  deriving DecidableEq, Repr

/-- The state of the block (10 R20), and the model's own three fields at its end. -/
structure State where
  /-- RXBUF (R21). -/
  rxbuf : Memory
  /-- RXLEN (R22). -/
  rxlen : Nat
  /-- DSTATE (R23). -/
  dstate : DState
  /-- CURSOR (R24). -/
  cursor : Word
  /-- LSTATE (R25). -/
  lstate : LState
  /-- EPH (R27). -/
  eph : Phase
  /-- NVM (R30). -/
  nvm : Memory
  /-- NVM_LOCK, true = locked (R31). -/
  nvmLock : Bool
  /-- NVM_FLAGS, a set of flag names kept in rising order (R32, D32). -/
  nvmFlags : List Nat
  /-- CPU_MSP (R34). -/
  cpuMsp : Word
  /-- CPU_PC (R35). -/
  cpuPc : Word
  /-- CPU_IMASK, true = all interrupts masked (R36). -/
  cpuImask : Bool
  /-- CPU_VTBASE (R37). -/
  cpuVtbase : Word
  /-- TMR_EN (R38). -/
  tmrEn : Bool
  /-- TMR_CNT (R38). -/
  tmrCnt : Nat
  /-- WIRE: the bytes not yet consumed (R40). -/
  wire : List Byte
  /-- TX: the reply bytes sent so far, oldest first (R41). -/
  tx : List Byte
  /-- The model's own: the schedule (R47). Assumption 3. -/
  sched : List Turn
  /-- The model's own: how many draws of the environment were made. Assumption 5. -/
  draws : Nat
  /-- The model's own: how many times the timer's counter changed. Assumption 6. -/
  ticks : Nat
  deriving DecidableEq, Repr

/-- What stops the machine. The block raises no trap (60 R240), so nothing but the end of a run is here. -/
inductive Fault where
  /-- Raised by `step` when ENG is to move and EPH is GONE: a launch has succeeded, control has left the block and ENG
  has no further step (10 R27; 43 R219, R221). Safe: the model ends where the spec's rules end. Assumption 13. -/
  | launched
  deriving DecidableEq, Repr

/-- What the model gives no meaning. -/
inductive Refusal where
  /-- Raised by `exec` for an instruction that has no meaning yet. Safe. -/
  | notModelled (mnemonic : String)
  /-- Raised by DATA when CURSOR + N > 2^32: "The model refuses it" (42 R197; D28). Safe. -/
  | writePastTop
  /-- Raised by `step` after the one `Launch()` of a direct boot was rejected: "what follows REJECTED there is not
  defined, and a model refuses it" (D23; 43 R222). Safe. -/
  | directBootRejected
  deriving DecidableEq, Repr

/-- The machine right after power-up in update mode (10 R48; 70 R271, R274). RXLEN, DSTATE, EPH, LSTATE, NVM_LOCK,
CPU_IMASK, TMR_EN and TX hold the values of R48; the registers R48 leaves open hold opaque values (assumption 7);
nothing is listed in NVM and RXBUF (assumptions 8 and 9); the host has sent nothing and nobody but ENG is scheduled
(assumptions 3 and 24). -/
def State.reset : State where
  rxbuf := []
  rxlen := 0
  dstate := .idle
  cursor := Config.resetCursor 0
  lstate := .rejected
  eph := .poll
  nvm := []
  nvmLock := true
  nvmFlags := unionFlags [] (Config.resetFlags 0)
  cpuMsp := Config.resetMsp 0
  cpuPc := Config.resetPc 0
  cpuImask := false
  cpuVtbase := Config.resetVtbase 0
  tmrEn := true
  tmrCnt := Config.resetTimer 0
  wire := []
  tx := []
  sched := []
  draws := 1
  ticks := 0

end Sys2Proof.Machine
end

