-- ==== Sys2Proof/Machine/Memory.lean ====
section
/-! DEFINITION. The named operations over a memory (spec 20 R60, R66): read and write of one byte, reading and filling
a range, erasing a range. An address that is not listed reads as the erased value 0xFF (assumptions 8 and 9). -/

namespace Sys2Proof.Machine

/-- Read one byte. -/
def readByte (m : Memory) (a : Nat) : Byte :=
  match m with
  | [] => Config.erased
  | (k, b) :: rest => if k = a then b else readByte rest a

/-- Drop the cell of one address. -/
def dropCell (m : Memory) (a : Nat) : Memory := m.filter fun x => decide (x.1 ≠ a)

/-- Put a cell in its place by address. -/
def insertCell (m : Memory) (a : Nat) (b : Byte) : Memory :=
  match m with
  | [] => [(a, b)]
  | (k, v) :: rest => if a < k then (a, b) :: (k, v) :: rest else (k, v) :: insertCell rest a b

/-- Write one byte, keeping the canonical form: writing the erased value removes the cell. -/
def writeByte (m : Memory) (a : Nat) (b : Byte) : Memory :=
  if b = Config.erased then dropCell m a else insertCell (dropCell m a) a b

/-- The bytes of addresses a to a + n - 1, in order. -/
def readBytes (m : Memory) (a n : Nat) : List Byte := (List.range n).map fun i => readByte m (a + i)

/-- Write bytes at consecutive addresses from `a` on. -/
def writeBytes (m : Memory) (a : Nat) (bs : List Byte) : Memory :=
  match bs with
  | [] => m
  | b :: rest => writeBytes (writeByte m a b) (a + 1) rest

/-- Give every address of a to a + n - 1 the byte `f` has for it. -/
def fillBytes (m : Memory) (a n : Nat) (f : Nat → Byte) : Memory :=
  match n with
  | 0 => m
  | n + 1 => writeByte (fillBytes m a n f) (a + n) (f (a + n))

/-- Every byte of a region becomes 0xFF (42 R184). -/
def eraseRegion (m : Memory) (r : Config.Region) : Memory := m.filter fun x => !r.contains x.1

/-- The canonical form: strictly rising addresses, no cell holding the erased value. -/
def memoryWf (m : Memory) : Bool :=
  decide (m.Pairwise fun x y => x.1 < y.1) && m.all fun x => decide (x.2 ≠ Config.erased)

/-- The canonical form, under the name the host's interface uses. -/
abbrev Memory.wf (m : Memory) : Bool := memoryWf m

end Sys2Proof.Machine
end

