-- ==== Sys2Proof/Machine/Operands.lean ====
section
/-! DEFINITION. The operand forms of the storage writer and the launch validator: lanes of a word (spec 20 R62), the
assembled programming word (42 R189), the cells a write covers (42 R188), the little-endian word read (20 R63; 42
R186). -/

namespace Sys2Proof.Machine

/-- Lane `k` of a word, bits 8k+7 to 8k: the byte for address c + k (20 R62). -/
def laneOf (w : Word) (k : Nat) : Byte := w.extractLsb' (8 * k) 8

/-- The word of four lanes, lane 0 the least significant byte (20 R62, R63). -/
def wordOfLanes (l0 l1 l2 l3 : Byte) : Word :=
  BitVec.ofNat 32 (l0.toNat + 256 * l1.toNat + 65536 * l2.toNat + 16777216 * l3.toNat)

/-- The byte an address gets from a write of `data` at `addr`: the source byte inside the range, 0xFF outside it
(42 R189). -/
def sourceByte (addr : Nat) (data : List Byte) (a : Nat) : Byte :=
  if addr ≤ a ∧ a < addr + data.length then data.getD (a - addr) Config.erased else Config.erased

/-- `AssembleWord(c, address, data, len)` (42 R189). -/
def assembleWord (c addr : Nat) (data : List Byte) : Word :=
  wordOfLanes (sourceByte addr data c) (sourceByte addr data (c + 1)) (sourceByte addr data (c + 2))
    (sourceByte addr data (c + 3))

/-- The address of the first cell of a write (42 R188). -/
def firstCell (addr : Nat) : Nat := addr - addr % 4

/-- How many cells a write of `len` bytes covers (42 R188): none for len = 0, else (last - first)/4 + 1. -/
def cellCount (addr len : Nat) : Nat :=
  if len = 0 then 0 else ((addr + len - 1) - (addr + len - 1) % 4 - firstCell addr) / 4 + 1

/-- The addresses of the cells a write covers, in increasing order (42 R188). -/
def cellsOf (addr len : Nat) : List Nat := (List.range (cellCount addr len)).map fun i => firstCell addr + 4 * i

/-- The range of a write passes the top of the 32-bit address space (42 R197). An empty write never does. -/
def writePastTop (addr : Word) (data : List Byte) : Bool :=
  match data with
  | [] => false
  | _ :: _ => decide (addr.toNat + data.length > 2 ^ 32)

/-- `MemRead(addr, 4)`: little-endian, no state change (42 R186; 20 R63, D19). -/
def memRead (m : Memory) (a : Nat) : Word :=
  wordOfLanes (readByte m a) (readByte m (a + 1)) (readByte m (a + 2)) (readByte m (a + 3))

end Sys2Proof.Machine
end

