-- ==== Sys2Proof/Machine/LaunchValidator.lean ====
section
/-! DEFINITION. The Launch Validator (spec 43 R210 to R218) as atomic actions. The two actions that read NVM decide
what follows them: `afterSp` is launch step 2, `afterEntry` is steps 4 to 7. -/

namespace Sys2Proof.Machine

/-- `Launch()` up to its first read: "LSTATE <- CANDIDATE", then step 1 (43 R211, R218). -/
def launchActions : List Action := [.setLstate .candidate, .readSp]

/-- The candidate initial stack pointer: the word at the image base (43 R211). -/
def imageSp (p : Config.Params) (m : Memory) : Word := memRead m p.appBase.toNat

/-- The entry address: the word at the image base + 4 (43 R213). -/
def imageEntry (p : Config.Params) (m : Memory) : Word := memRead m (p.appBase.toNat + 4)

/-- Step 2: what follows the read of the candidate `sp` (43 R212): on a value in the RAM range LSTATE becomes VALID and
the entry is read; otherwise LSTATE becomes REJECTED and the launch returns. -/
def afterSp (p : Config.Params) (sp : Word) : List Action :=
  if p.inRam sp then [.setLstate .valid, .readEntry sp] else [.setLstate .rejected]

/-- Steps 4 to 7 with the candidate `sp` and the entry read in step 3 (43 R214 to R218), one register write each. -/
def afterEntry (p : Config.Params) (sp entry : Word) : List Action :=
  [.maskInterrupts, .timerDisable, .timerZero, .setVtbase p.appBase, .setMsp sp, .setPc entry, .leave]

end Sys2Proof.Machine
end

