-- ==== Sys2Proof/Machine/Ops.lean ====
section
/-! DEFINITION. The shared operations over the state: the receive agent's append, the discard, the transmit, the
controller primitives (spec 42 R181 to R186), the passing of time, the hardware reset, and the recovery of the pass's
errors. The block raises no trap, saves nothing and has no return from one (60 R240, R253, R254): `recovery` is the one
shared operation of an error, and there is none to return. Every operation takes the environment it draws from. -/

namespace Sys2Proof.Machine

/-- EPH takes a value (10 R27). -/
def setPhase (v : Phase) (s : State) : State := { s with eph := v }

/-- The schedule that is left (10 R47; the model's own). -/
def setSched (v : List Turn) (s : State) : State := { s with sched := v }

/-- `CURSOR <- v` (10 R24). -/
def setCursor (v : Word) (s : State) : State := { s with cursor := v }

/-- `DSTATE <- v` (10 R23). -/
def setDstate (v : DState) (s : State) : State := { s with dstate := v }

/-- `LSTATE <- v` (10 R25). -/
def setLstate (v : LState) (s : State) : State := { s with lstate := v }

/-- `CPU_VTBASE <- v` (43 R215). -/
def setVtbase (v : Word) (s : State) : State := { s with cpuVtbase := v }

/-- `CPU_MSP <- v` (43 R216). -/
def setMsp (v : Word) (s : State) : State := { s with cpuMsp := v }

/-- `CPU_PC <- v` (43 R217). -/
def setPc (v : Word) (s : State) : State := { s with cpuPc := v }

/-- `CPU_IMASK <- 1` (43 R214). -/
def maskInterrupts (s : State) : State := { s with cpuImask := true }

/-- `TMR_EN <- 0` (43 R214). -/
def timerDisable (s : State) : State := { s with tmrEn := false }

/-- `TMR_CNT <- 0` (43 R214). -/
def timerZero (s : State) : State := { s with tmrCnt := 0 }

/-- RX has a step: a byte waits on WIRE and interrupts are not masked (40 R120; 60 R251). -/
def rxEnabled (s : State) : Bool := !s.cpuImask && !s.wire.isEmpty

/-- RX_APPEND consumes a byte and the buffer has room for it. -/
def rxStores (c : Config.Env) (s : State) : Bool := rxEnabled s && decide (s.rxlen < c.params.rxBufSize)

/-- `RX_APPEND`, one atomic step (40 R120): store the byte at RXLEN and count it, or drop it when the buffer is full. -/
def rxAppend (c : Config.Env) (s : State) : State :=
  { s with
    rxbuf := if rxStores c s then writeByte s.rxbuf s.rxlen (s.wire.headD 0#8) else s.rxbuf
    rxlen := if rxStores c s then s.rxlen + 1 else s.rxlen
    wire := if rxEnabled s then s.wire.tail else s.wire }

/-- The bytes the decode pass sees: RXBUF[0 .. n-1] for the sampled n (40 R121). -/
def buffered (s : State) : List Byte := readBytes s.rxbuf 0 s.rxlen

/-- `DISCARD`: a logical clear, RXBUF keeps its bytes (40 R134). -/
def discard (s : State) : State := { s with rxlen := 0 }

/-- `Tx(b)` (10 R41). -/
def txByte (b : Byte) (s : State) : State := { s with tx := s.tx ++ [b] }

/-- `NvmUnlock()` (42 R181). -/
def nvmUnlock (s : State) : State := { s with nvmLock := false }

/-- `NvmLock()` (42 R182). -/
def nvmLockOp (s : State) : State := { s with nvmLock := true }

/-- `NvmClearFlags()` (42 R183). -/
def nvmClearFlags (s : State) : State := { s with nvmFlags := [] }

/-- The memory after `NvmEraseSector(r)` with draw `n` (42 R184). -/
def erasedNvm (c : Config.Env) (n : Nat) (r : Config.Region) (m : Memory) : Memory :=
  if c.nvmFail n then fillBytes m r.base r.size (c.anyByte n) else eraseRegion m r

/-- `NvmEraseSector(r)` (42 R184): one draw. While locked it does nothing (U7; assumption 11). -/
def nvmEraseSector (c : Config.Env) (r : Config.Region) (s : State) : State :=
  { s with
    nvm := if s.nvmLock then s.nvm else erasedNvm c s.draws r s.nvm
    nvmFlags := if !s.nvmLock && c.nvmFail s.draws then unionFlags s.nvmFlags (c.anyFlags s.draws) else s.nvmFlags
    draws := s.draws + 1 }

/-- The lane at address `a` takes the last branch of R185: memory there, data and old contents both not erased. -/
def laneUndefined (c : Config.Env) (m : Memory) (a : Nat) (d : Byte) : Bool :=
  c.params.inNvm a && decide (d ≠ Config.erased) && decide (readByte m a ≠ Config.erased)

/-- One lane of `NvmProgramWord` with draw `n`: data `d` for address `a` (42 R185). -/
def programLane (c : Config.Env) (n : Nat) (m : Memory) (a : Nat) (d : Byte) : Memory :=
  if c.params.inNvm a = false then m
  else if c.nvmFail n then writeByte m a (c.anyByte n a)
  else if d = Config.erased then m
  else if readByte m a = Config.erased then writeByte m a d
  else writeByte m a (c.anyByte n a)

/-- The memory after `NvmProgramWord(a, w)` with draw `n` (42 R185). -/
def programmedNvm (c : Config.Env) (n : Nat) (a : Nat) (w : Word) (m : Memory) : Memory :=
  programLane c n (programLane c n (programLane c n (programLane c n m a (laneOf w 0)) (a + 1) (laneOf w 1))
    (a + 2) (laneOf w 2)) (a + 3) (laneOf w 3)

/-- The lane at address `a` lets `NvmProgramWord` with draw `n` add flags: there is memory there, and the operation fails
or the lane takes R185's last branch. Where there is no memory nothing changes (D15; assumption 17). -/
def laneMayFlag (c : Config.Env) (n : Nat) (m : Memory) (a : Nat) (d : Byte) : Bool :=
  (c.params.inNvm a && c.nvmFail n) || laneUndefined c m a d

/-- `NvmProgramWord` may add flags: some lane lets it (42 R185). -/
def programMayFlag (c : Config.Env) (n : Nat) (a : Nat) (w : Word) (m : Memory) : Bool :=
  laneMayFlag c n m a (laneOf w 0) || laneMayFlag c n m (a + 1) (laneOf w 1)
    || laneMayFlag c n m (a + 2) (laneOf w 2) || laneMayFlag c n m (a + 3) (laneOf w 3)

/-- `NvmProgramWord(a, w)` (42 R185): one draw. While locked it does nothing (U7; assumption 11). -/
def nvmProgramWord (c : Config.Env) (a : Word) (w : Word) (s : State) : State :=
  { s with
    nvm := if s.nvmLock then s.nvm else programmedNvm c s.draws a.toNat w s.nvm
    nvmFlags :=
      if !s.nvmLock && programMayFlag c s.draws a.toNat w s.nvm then unionFlags s.nvmFlags (c.anyFlags s.draws)
      else s.nvmFlags
    draws := s.draws + 1 }

/-- Time passes: while TMR_EN = 1 the counter takes any value (10 R38; D31; assumption 6). -/
def timerTick (c : Config.Env) (s : State) : State :=
  { s with tmrCnt := if s.tmrEn then c.timerCount s.ticks else s.tmrCnt, ticks := s.ticks + 1 }

/-- What the pass does about a rejected buffer (60 R241, R242, R243, R248, R253): the actions of the recovery, or
nothing at all while it waits. -/
def recovery : Reject → Option (List Action)
  | .incomplete => none
  | .badSync => some [.discard]
  | .badSum => some [.tx Config.nack, .discard]

/-- The bytes a reset leaves any value when it strikes during the controller operation ENG is about to complete
(70 R273): the erased sector, or the four bytes of the programmed cell that are memory. -/
def damagedNvm (c : Config.Env) (n : Nat) (eph : Phase) (m : Memory) : Memory :=
  match eph with
  | .busy (.nvmEraseSector r :: _) => fillBytes m r.base r.size (c.anyByte n)
  | .busy (.nvmProgramWord a _ :: _) =>
    ((List.range 4).filter fun k => c.params.inNvm (a.toNat + k)).foldl
      (fun m k => writeByte m (a.toNat + k) (c.anyByte n (a.toNat + k))) m
  | _ => m

/-- The one `Launch()` of a direct boot (43 R222; D23). -/
def directBootActions : List Action := [.setLstate .candidate, .readSp, .bootReturn]

/-- The phase a reset leaves: POLL in update mode (R48), the one launch in direct mode (assumption 14). -/
def bootPhase : BootMode → Phase
  | .update => .poll
  | .direct => .busy directBootActions

/-- A hardware reset (70 R270 to R273; 10 R48): NVM survives, but for the bytes of an operation it strikes; everything
else takes its reset value; what R48 leaves open is drawn anew. The schedule goes on. -/
def hardReset (c : Config.Env) (e : ResetEvent) (s : State) : State where
  rxbuf := fillBytes [] 0 c.params.rxBufSize (c.anyByte s.draws)
  rxlen := 0
  dstate := .idle
  cursor := c.resetCursor s.draws
  lstate := .rejected
  eph := bootPhase e.gate
  nvm := if e.duringOperation then damagedNvm c (s.draws + 1) s.eph s.nvm else s.nvm
  nvmLock := true
  nvmFlags := unionFlags [] (c.resetFlags s.draws)
  cpuMsp := c.resetMsp s.draws
  cpuPc := c.resetPc s.draws
  cpuImask := false
  cpuVtbase := c.resetVtbase s.draws
  tmrEn := true
  tmrCnt := c.resetTimer s.draws
  wire := e.wire
  tx := []
  sched := s.sched
  draws := s.draws + 2
  ticks := s.ticks

/-- HOST puts bytes on the wire (10 R40; 70 R293). -/
def hostSend (bs : List Byte) (s : State) : State := { s with wire := s.wire ++ bs }

end Sys2Proof.Machine
end

