-- ==== Sys2Proof/Machine/Engine.lean ====
section
/-! DEFINITION. ENG inside a pass (spec 10 R27, R28; 20 R70, R74): one atomic action at a time, in the order of the
pseudocode, with the turns of the other agents between any two. -/

namespace Sys2Proof.Machine

/-- The effect of one atomic action on every field but EPH (10 R28). -/
def perform (c : Config.Env) (a : Action) (s : State) : State :=
  match a with
  | .tx b => txByte b s
  | .nvmUnlock => nvmUnlock s
  | .nvmLock => nvmLockOp s
  | .nvmClearFlags => nvmClearFlags s
  | .nvmEraseSector r => nvmEraseSector c r s
  | .nvmProgramWord cell w => nvmProgramWord c cell w s
  | .setCursor v => setCursor v s
  | .setDstate v => setDstate v s
  | .setLstate v => setLstate v s
  | .delay _ => s
  | .readSp => s
  | .readEntry _ => s
  | .maskInterrupts => maskInterrupts s
  | .timerDisable => timerDisable s
  | .timerZero => timerZero s
  | .setVtbase v => setVtbase v s
  | .setMsp v => setMsp v s
  | .setPc v => setPc v s
  | .leave => setDstate .launched s
  | .discard => discard s
  | .bootReturn => s

/-- The actions that an action which reads NVM adds in front of the remaining ones (43 R218). -/
def expand (p : Config.Params) (a : Action) (m : Memory) : List Action :=
  match a with
  | .readSp => afterSp p (imageSp p m)
  | .readEntry sp => afterEntry p sp (imageEntry p m)
  | _ => []

/-- EPH for a list of remaining actions: BUSY while there are any, POLL when the pass has ended (10 R27). -/
def phaseOf : List Action → Phase
  | [] => .poll
  | a :: k => .busy (a :: k)

/-- EPH after an action, `k` being the actions behind it (10 R27; 43 R217: `leave` never returns). -/
def nextPhase (p : Config.Params) (a : Action) (k : List Action) (m : Memory) : Phase :=
  match a with
  | .leave => .gone
  | _ => phaseOf (expand p a m ++ k)

/-- ENG performs the head of its list (10 R27, R28). -/
def act (c : Config.Env) (a : Action) (k : List Action) (s : State) : State :=
  setPhase (nextPhase c.params a k s.nvm) (perform c a s)

/-- How many atomic actions an action stands for at most, those it adds included. -/
def actionCost : Action → Nat
  | .readSp => 11
  | .readEntry _ => 9
  | _ => 1

/-- How many atomic actions a phase has left at most. -/
def phaseCost : Phase → Nat
  | .busy k => (k.map actionCost).sum
  | _ => 0

/-- One turn inside a pass, `a` being ENG's next action and `k` those behind it, and `go` what happens afterwards. Between
two actions of ENG, RX and the timer move as often as they are scheduled; an exhausted schedule leaves ENG alone; `pause`
ends the machine's step here, and so does a reset, which is the next step (10 R28; 20 R70; assumptions 3, 4). -/
def interleave (c : Config.Env) (go : State → State) (a : Action) (k : List Action) (s : State) : State :=
  match s.sched with
  | [] => go (act c a k s)
  | .eng :: ts => go (act c a k (setSched ts s))
  | .rx :: ts => go (rxAppend c (setSched ts s))
  | .tick :: ts => go (timerTick c (setSched ts s))
  | .pause :: ts => setSched ts s
  | .reset _ :: _ => s

/-- ENG and the other agents move as the schedule says, until the pass ends or the schedule ends the step: at most
`fuel` turns. -/
def burst (c : Config.Env) : Nat → State → State
  | 0, s => s
  | fuel + 1, s =>
    match s.eph with
    | .busy (.bootReturn :: _) => s
    | .busy (a :: k) => interleave c (burst c fuel) a k s
    | _ => s

/-- Run the pass on from where EPH stands. -/
def drive (c : Config.Env) (s : State) : State := burst c (s.sched.length + phaseCost s.eph) s

/-- Enter BUSY with the actions of a pass and run it (40 R121; 41 R151). -/
def runPass (c : Config.Env) (k : List Action) (s : State) : State := drive c (setPhase (phaseOf k) s)

end Sys2Proof.Machine
end

