-- ==== Sys2Proof/Machine/StorageWriter.lean ====
section
/-! DEFINITION. The Storage Writer's two sequences as lists of atomic actions (spec 42 R187, R188; 20 R75). -/

namespace Sys2Proof.Machine

/-- `Erase()`: unlock, clear flags, erase every sector of ERASE_SET in list order, lock (42 R187). -/
def eraseActions (p : Config.Params) : List Action :=
  .nvmUnlock :: .nvmClearFlags :: (p.eraseSet.map Action.nvmEraseSector ++ [.nvmLock])

/-- The program operation of one cell of a write (42 R188, R189). -/
def programAction (addr : Nat) (data : List Byte) (cell : Nat) : Action :=
  .nvmProgramWord (BitVec.ofNat 32 cell) (assembleWord cell addr data)

/-- `Write(address, data)`: unlock, program every covered cell in increasing order, lock (42 R188). -/
def writeActions (addr : Word) (data : List Byte) : List Action :=
  .nvmUnlock :: ((cellsOf addr.toNat data.length).map (programAction addr.toNat data) ++ [.nvmLock])

end Sys2Proof.Machine
end

