-- ==== Sys2Proof/Machine/Dispatcher.lean ====
section
/-! DEFINITION. The Command Dispatcher (spec 41 R150 to R161): the meaning of each command. A meaning is the rest of
the decode pass that validated the frame: the dispatch of the command and the final clear of RXLEN (40 R121, R127),
performed action by action with the other agents' turns between them. No meaning reads DSTATE (41 R156). Each meaning
is given for every environment (`…In`) and used with the machine's own. -/

namespace Sys2Proof.Machine

/-- `DoConnect()` (41 R152): Erase, cursor, reply, state. -/
def connectActions (p : Config.Params) : List Action :=
  eraseActions p ++ [.setCursor p.appBase, .tx Config.ack, .setDstate .connected]

/-- `DoData(N)` at cursor `cur` (41 R153): Write, cursor advance modulo 2^32, reply. -/
def dataActions (cur : Word) (data : List Byte) : List Action :=
  writeActions cur data ++ [.setCursor (cur + BitVec.ofNat 32 data.length), .tx Config.ack]

/-- `DoFinish()` (41 R154): reply, settle delay, launch. -/
def finishActions (p : Config.Params) : List Action := .tx Config.ack :: .delay p.settleMs :: launchActions

/-- `DoUnknown()` (41 R155): reply NACK. -/
def unknownActions : List Action := [.tx Config.nack]

/-- CONNECT in any environment (41 R152): the payload is opaque. -/
def execConnectIn (c : Config.Env) (_payload : List Byte) (s : State) : Host.Outcome State Fault Refusal :=
  .next (runPass c (connectActions c.params ++ [.discard]) s)

/-- DATA in any environment (41 R153), refused when its range passes the top of the address space (42 R197). -/
def execDataIn (c : Config.Env) (payload : List Byte) (s : State) : Host.Outcome State Fault Refusal :=
  if writePastTop s.cursor payload then .refused .writePastTop
  else .next (runPass c (dataActions s.cursor payload ++ [.discard]) s)

/-- FINISH in any environment (41 R154): the payload is opaque. -/
def execFinishIn (c : Config.Env) (_payload : List Byte) (s : State) : Host.Outcome State Fault Refusal :=
  .next (runPass c (finishActions c.params ++ [.discard]) s)

/-- UNKNOWN in any environment (41 R155): code and payload are ignored. -/
def execUnknownIn (c : Config.Env) (_cmd : Byte) (_payload : List Byte) (s : State) :
    Host.Outcome State Fault Refusal :=
  .next (runPass c (unknownActions ++ [.discard]) s)

/-- CONNECT (41 R152). -/
def execConnect (payload : List Byte) (s : State) : Host.Outcome State Fault Refusal :=
  execConnectIn Config.env payload s

/-- DATA (41 R153). -/
def execData (payload : List Byte) (s : State) : Host.Outcome State Fault Refusal :=
  execDataIn Config.env payload s

/-- FINISH (41 R154). -/
def execFinish (payload : List Byte) (s : State) : Host.Outcome State Fault Refusal :=
  execFinishIn Config.env payload s

/-- UNKNOWN (41 R155). -/
def execUnknown (cmd : Byte) (payload : List Byte) (s : State) : Host.Outcome State Fault Refusal :=
  execUnknownIn Config.env cmd payload s

end Sys2Proof.Machine
end

