-- ==== Sys2Proof/Machine/Dispatch.lean ====
section
/-! DEFINITION. Selection of the meaning by the command (spec 41 R151): one arm per constructor of Instr. -/

namespace Sys2Proof.Machine

def exec (i : Instr) (s : State) : Host.Outcome State Fault Refusal :=
  match i with
  | .connect payload => Sys2Proof.Machine.execConnect payload s
  | .data payload => Sys2Proof.Machine.execData payload s
  | .finish payload => Sys2Proof.Machine.execFinish payload s
  | .unknown cmd payload => Sys2Proof.Machine.execUnknown cmd payload s

end Sys2Proof.Machine
end

