-- ==== Sys2Proof/Machine/Pass.lean ====
section
/-! DEFINITION. The decode pass (spec 40 R121 to R130) and one step of the machine as its schedule says (10 R28; 20
R70). -/

namespace Sys2Proof.Machine

/-- How a validated frame is run (41 R151). -/
abbrev Run := Instr → State → Host.Outcome State Fault Refusal

/-- `PASS` (40 R121): sample RXLEN once, decide, and go on with what was decided. A rejected buffer is recovered from
as 60 R241 says; a validated frame is dispatched, by `run`. -/
def passIn (c : Config.Env) (run : Run) (s : State) : Host.Outcome State Fault Refusal :=
  match decodeWith c.sync (buffered s) with
  | .frame i _ => run i s
  | .rejected why =>
    match recovery why with
    | none => .next s
    | some k => .next (runPass c k s)

/-- ENG moves from where EPH stands (10 R27). In POLL it starts a pass; in BUSY it goes on with the pass; in GONE it
has no step (43 R219); behind a rejected direct boot nothing is defined (43 R222). -/
def engMoveIn (c : Config.Env) (run : Run) (s : State) : Host.Outcome State Fault Refusal :=
  match s.eph with
  | .poll => passIn c run s
  | .busy (.bootReturn :: _) => .refused .directBootRejected
  | .busy _ => .next (drive c s)
  | .gone => .fault .launched

/-- One step of the machine in any environment: the head of the schedule moves; with no schedule left ENG moves. In
BUSY an ENG turn is left to `drive`, which takes it before the next action. -/
def turnIn (c : Config.Env) (run : Run) (s : State) : Host.Outcome State Fault Refusal :=
  match s.sched with
  | [] => engMoveIn c run s
  | .eng :: ts =>
    match s.eph with
    | .busy _ => engMoveIn c run s
    | _ => engMoveIn c run (setSched ts s)
  | .rx :: ts => .next (rxAppend c (setSched ts s))
  | .tick :: ts => .next (timerTick c (setSched ts s))
  | .pause :: ts => .next (setSched ts s)
  | .reset e :: ts => .next (hardReset c e (setSched ts s))

/-- One step of the machine: its own environment, and `exec` for a validated frame. -/
def turn (s : State) : Host.Outcome State Fault Refusal := turnIn Config.env exec s

/-- The frame of a table word lies in RXBUF from index 0, as if RX had received it, ENG is about to poll, and nobody
else is scheduled (host interface; assumption 16). -/
def placeFrame (s : State) (bytes : List Byte) : State :=
  { s with rxbuf := writeBytes s.rxbuf 0 bytes, rxlen := bytes.length, eph := .poll, sched := [] }

end Sys2Proof.Machine
end

