-- ==== Sys2Proof/Machine/Step.lean ====
section
/-! DEFINITION. One step of the machine, and the placing of an instruction where the next step decodes it. -/

namespace Sys2Proof.Machine

/-- One step (spec 10 R28; 20 R70): RX, the timer, the platform's reset or ENG moves, as the schedule in the state says. -/
def step (s : State) : Host.Outcome State Fault Refusal := turn s

/-- `s` with an opcode-table word's frame received in RXBUF, so that the next step decodes and runs it. -/
def State.withFetchWord (s : State) (nbits w : Nat) : State := placeFrame s (frameOfTableWord nbits w)

end Sys2Proof.Machine
end

