-- ==== Sys2Proof/Safety.lean ====
section
/-! DEFINITION. The terms claims are made in: what a schedule lets a pass do, what a step leaves unchanged, and the
invariants of the machine (spec 10 R49, R31, R41; 43 R221). -/

namespace Sys2Proof.Safety

open Sys2Proof.Machine

/-- A turn after which the running pass goes on: ENG, RX or the timer moves. -/
def goesOn : Turn → Bool
  | .eng => true
  | .rx => true
  | .tick => true
  | .pause => false
  | .reset _ => false

/-- The schedule holds no pause and no reset, so a pass runs to its end within one step. RX and the timer may be
scheduled anywhere in it. -/
def quiet (s : State) : Bool := s.sched.all goesOn

/-- No change of the timer's counter is scheduled. -/
def noTick (s : State) : Bool := s.sched.all fun t => decide (t ≠ .tick)

/-- ENG moves next, and `ts` is the schedule behind that move. -/
def EngNext (s : State) (ts : List Turn) : Prop := s.sched = .eng :: ts ∨ (s.sched = [] ∧ ts = [])

/-- What the receive side may do during a pass (20 R71, R72): consume bytes of WIRE, and write RXBUF only at or above
the RXLEN of before. -/
structure RxSide (s t : State) : Prop where
  wire : t.wire <:+ s.wire
  sampled : ∀ i, i < s.rxlen → readByte t.rxbuf i = readByte s.rxbuf i

/-- The timer goes on as it was: its counter changes only by scheduled time. -/
structure TimerSame (s t : State) : Prop where
  enable : t.tmrEn = s.tmrEn
  count : s.tmrEn = false ∨ noTick s = true → t.tmrCnt = s.tmrCnt

/-- The processor-side registers are unchanged (10 R34 to R37). -/
structure CpuSame (s t : State) : Prop where
  msp : t.cpuMsp = s.cpuMsp
  pc : t.cpuPc = s.cpuPc
  imask : t.cpuImask = s.cpuImask
  vtbase : t.cpuVtbase = s.cpuVtbase

/-- Every byte of NVM reads as before, and the controller's lock and flags are unchanged. -/
structure NvmSame (s t : State) : Prop where
  bytes : ∀ a, readByte t.nvm a = readByte s.nvm a
  lock : t.nvmLock = s.nvmLock
  flags : t.nvmFlags = s.nvmFlags

/-- The dispatcher's and the validator's registers are unchanged. -/
structure SessionSame (s t : State) : Prop where
  dstate : t.dstate = s.dstate
  cursor : t.cursor = s.cursor
  lstate : t.lstate = s.lstate

/-- A pass has ended and cleared the buffer (40 R127, R134). -/
structure PassEnded (t : State) : Prop where
  eph : t.eph = .poll
  rxlen : t.rxlen = 0

/-- The image's entry has control (43 R218, R221): step 4 to 7's registers, with the candidate `sp` and entry `pc`. -/
structure HasLaunched (p : Config.Params) (sp pc : Word) (t : State) : Prop where
  eph : t.eph = .gone
  dstate : t.dstate = .launched
  lstate : t.lstate = .valid
  imask : t.cpuImask = true
  tmrEn : t.tmrEn = false
  tmrCnt : t.tmrCnt = 0
  vtbase : t.cpuVtbase = p.appBase
  msp : t.cpuMsp = sp
  pc : t.cpuPc = pc

/-- Agreement on everything but RXBUF, RXLEN, WIRE, TMR_CNT and the model's schedule and tick counter: what 20 R73
compares runs by. -/
structure EngineSame (s t : State) : Prop where
  dstate : t.dstate = s.dstate
  cursor : t.cursor = s.cursor
  lstate : t.lstate = s.lstate
  eph : t.eph = s.eph
  nvm : t.nvm = s.nvm
  nvmLock : t.nvmLock = s.nvmLock
  nvmFlags : t.nvmFlags = s.nvmFlags
  cpuMsp : t.cpuMsp = s.cpuMsp
  cpuPc : t.cpuPc = s.cpuPc
  cpuImask : t.cpuImask = s.cpuImask
  cpuVtbase : t.cpuVtbase = s.cpuVtbase
  tmrEn : t.tmrEn = s.tmrEn
  tx : t.tx = s.tx
  draws : t.draws = s.draws

/-- The atomic actions a phase still has to perform (10 R27). -/
def pending : Phase → List Action
  | .busy k => k
  | _ => []

/-- The memories are canonical, NVM holds bytes only at addresses that exist, RXBUF only at indices that exist, and
RXLEN never exceeds the capacity (10 R21, R22, R30, R49). Every sector still to be erased is one of ERASE_SET (R187). -/
structure MemoriesOk (p : Config.Params) (s : State) : Prop where
  nvmWf : Memory.wf s.nvm = true
  nvmIn : ∀ x ∈ s.nvm, p.inNvm x.1 = true
  rxWf : Memory.wf s.rxbuf = true
  rxIn : ∀ x ∈ s.rxbuf, x.1 < p.rxBufSize
  rxlen : s.rxlen ≤ p.rxBufSize
  flags : flagsWf s.nvmFlags = true
  sectors : ∀ r, Action.nvmEraseSector r ∈ pending s.eph → r ∈ p.eraseSet

/-- The lock's discipline over the remaining actions, from lock value `l`: every mutating primitive finds the controller
unlocked, the launch finds it locked, and the pass ends locked (10 R31; 20 R75). -/
def lockTrace : List Action → Bool → Bool
  | [], l => l
  | .nvmUnlock :: k, _ => lockTrace k false
  | .nvmLock :: k, _ => lockTrace k true
  | .nvmEraseSector _ :: k, l => !l && lockTrace k l
  | .nvmProgramWord _ _ :: k, l => !l && lockTrace k l
  | .readSp :: k, l => l && lockTrace k l
  | .readEntry _ :: k, l => l && lockTrace k l
  | .leave :: _, l => l
  | _ :: k, l => lockTrace k l

/-- NVM_LOCK = 1 whenever EPH is POLL, and every mutating primitive happens with NVM_LOCK = 0 (10 R31). -/
def LockOk (s : State) : Prop := lockTrace (pending s.eph) s.nvmLock = true

/-- A byte is one of the two replies (10 R41). -/
def isReply (b : Byte) : Bool := decide (b = Config.ack) || decide (b = Config.nack)

/-- Only ACK and NACK are on TX, and only they are still to be sent (10 R41, R49). -/
structure RepliesOk (s : State) : Prop where
  sent : ∀ b ∈ s.tx, isReply b = true
  due : ∀ b, Action.tx b ∈ pending s.eph → isReply b = true

/-- What the remaining actions do to the launch's registers before control leaves: with interrupts masked `im`, timer
enabled `te`, timer stopped at zero `z`, vector base `vt` and stack pointer `sp` now, the launch they contain, if any,
leaves with step 4 to 6 done and a stack pointer in the RAM range (43 R214 to R218). -/
def launchTrace (p : Config.Params) : List Action → Bool → Bool → Bool → Word → Word → Bool
  | [], _, _, _, _, _ => true
  | .leave :: _, im, te, z, vt, sp => im && !te && z && decide (vt = p.appBase) && p.inRam sp
  | .maskInterrupts :: k, _, te, z, vt, sp => launchTrace p k true te z vt sp
  | .timerDisable :: k, im, _, z, vt, sp => launchTrace p k im false z vt sp
  | .timerZero :: k, im, te, _, vt, sp => launchTrace p k im te (!te) vt sp
  | .setVtbase v :: k, im, te, z, _, sp => launchTrace p k im te z v sp
  | .setMsp v :: k, im, te, z, vt, _ => launchTrace p k im te z vt v
  | .readEntry v :: k, im, te, z, vt, sp => p.inRam v && launchTrace p k im te z vt sp
  | .setDstate .launched :: _, _, _, _, _, _ => false
  | _ :: k, im, te, z, vt, sp => launchTrace p k im te z vt sp

/-- The timer stands still at zero. -/
def timerStill (s : State) : Bool := !s.tmrEn && decide (s.tmrCnt = 0)

/-- EPH is GONE exactly when DSTATE is LAUNCHED, then interrupts are masked, the timer is off and zero, the vector base
is APP_BASE and the stack pointer is in the RAM range (10 R27, R49; 43 R221); and the actions under way keep it so. -/
structure LaunchOk (p : Config.Params) (s : State) : Prop where
  goneIff : s.eph = .gone ↔ s.dstate = .launched
  regs : s.eph = .gone →
    s.cpuImask = true ∧ s.tmrEn = false ∧ s.tmrCnt = 0 ∧ s.cpuVtbase = p.appBase ∧
      p.ramLo ≤ s.cpuMsp ∧ s.cpuMsp ≤ p.ramHi
  due : launchTrace p (pending s.eph) s.cpuImask s.tmrEn (timerStill s) s.cpuVtbase s.cpuMsp = true

/-- ENG is inside a pass: EPH is BUSY(k) with an atomic action at the head of `k` (10 R27). The place behind a rejected
direct boot is no action (43 R222). -/
def MidPass (s : State) : Prop := ∃ a k, s.eph = .busy (a :: k) ∧ a ≠ .bootReturn

/-- The values the remaining actions write to CURSOR, in order. -/
def cursorWrites : List Action → List Word
  | [] => []
  | .setCursor v :: k => v :: cursorWrites k
  | _ :: k => cursorWrites k

/-- The remaining actions write CURSOR at most once, and not behind the clear of RXLEN (41 R152, R153; 40 R127). -/
def cursorTrace : List Action → Bool
  | [] => true
  | .setCursor _ :: k => (cursorWrites k).isEmpty
  | .discard :: k => (cursorWrites k).isEmpty
  | _ :: k => cursorTrace k

/-- `v` is what the command in the buffer makes of CURSOR: the image base for CONNECT, the cursor plus the length of the
payload for DATA (41 R159). Any other buffer gives CURSOR no value. -/
def CursorTarget (p : Config.Params) (s : State) (v : Word) : Prop :=
  (∃ q surplus, decode (buffered s) = .frame (.connect q) surplus ∧ v = p.appBase) ∨
    ∃ q surplus, decode (buffered s) = .frame (.data q) surplus ∧ v = s.cursor + BitVec.ofNat 32 q.length

/-- What a pass under way still writes to CURSOR is what the command in the buffer makes of it, once (10 R49; 41
R159). -/
structure CursorOk (p : Config.Params) (s : State) : Prop where
  once : cursorTrace (pending s.eph) = true
  due : ∀ v ∈ cursorWrites (pending s.eph), CursorTarget p s v

/-- A controller operation that may add status flags: an erase or a program operation (42 R184, R185). -/
def mutates : Action → Bool
  | .nvmEraseSector _ => true
  | .nvmProgramWord _ _ => true
  | _ => false

/-- What ENG has to perform from `s` holds NvmClearFlags: the rest of the pass does, or at a poll the buffer holds a
CONNECT (42 R183, R187). -/
def MayClearFlags (s : State) : Prop :=
  match s.eph with
  | .poll => ∃ q surplus, decode (buffered s) = .frame (.connect q) surplus
  | .busy k => Action.nvmClearFlags ∈ k
  | .gone => False

/-- What ENG has to perform from `s` holds an erase or a program operation: the rest of the pass does, or at a poll the
buffer holds a CONNECT or a DATA (42 R187, R188). -/
def MayAddFlags (s : State) : Prop :=
  match s.eph with
  | .poll => ∃ q surplus, decode (buffered s) = .frame (.connect q) surplus ∨ decode (buffered s) = .frame (.data q) surplus
  | .busy k => ∃ a ∈ k, mutates a = true
  | .gone => False

/-- A buffered prefix that hangs the receiver (70 R281): matching sync and a length whose frame is larger than the
buffer, at a poll. -/
structure Hung (c : Config.Env) (s : State) : Prop where
  poll : s.eph = .poll
  header : 6 ≤ s.rxlen
  room : s.rxlen ≤ c.params.rxBufSize
  sync : readByte s.rxbuf 0 = c.sync.a ∧ readByte s.rxbuf 1 = c.sync.b
  tooLong : c.params.rxBufSize < 6 + payloadLength (readByte s.rxbuf 3) (readByte s.rxbuf 4)

/-- The head of the schedule is a reset. -/
def resetNext (s : State) : Bool :=
  match s.sched with
  | .reset _ :: _ => true
  | _ => false

/-- DATA frames dispatched one after the other in environment `c` (41 R159; 42 R195). -/
def dataSession (c : Config.Env) : List (List Byte) → State → Option State
  | [], s => some s
  | p :: ps, s =>
    match execDataIn c p s with
    | .next t => dataSession c ps t
    | _ => none

end Sys2Proof.Safety
end

