-- ==== Sys2Proof/Certificates/Slice0/Obligations.lean ====
section
/-! DEFINITION. The statements about the machine, each formalising or resting on the numbered rules of the spec. -/

open Sys2Proof Sys2Proof.Machine Sys2Proof.Safety

/-! ## Frames -/

/-- Words of the opcode table and worked frames of spec 95 (V1, V2, V18, V22, V48, V49) decode as the spec says.
How a table word stands for a frame is the model's convention (log 16). -/
def Obligations.WorkedFramesDecode : Prop :=
  decodeTableWord 24 0x5AA501 = some (.connect []) ∧
  decodeTableWord 24 0x5AA502 = some (.data []) ∧
  decodeTableWord 24 0x5AA503 = some (.finish []) ∧
  decodeTableWord 24 0x5AA504 = some (.unknown 0x04#8 []) ∧
  decode [0x5A#8, 0xA5#8, 0x02#8, 0x04#8, 0x00#8, 0xDE#8, 0xAD#8, 0xBE#8, 0xEF#8, 0x3E#8] =
    .frame (.data [0xDE#8, 0xAD#8, 0xBE#8, 0xEF#8]) [] ∧
  decode [0x5A#8, 0xA5#8, 0x7F#8, 0x01#8, 0x00#8, 0xAA#8, 0x2A#8] = .frame (.unknown 0x7F#8 [0xAA#8]) [] ∧
  decode [0x5A#8, 0xA5#8, 0x02#8, 0x04#8, 0x00#8, 0xDE#8, 0xAD#8, 0xBE#8, 0xEF#8, 0x3F#8] = .rejected .badSum ∧
  decode [0xFF#8, 0x5A#8, 0xA5#8, 0x01#8, 0x00#8, 0x00#8, 0x01#8] = .rejected .badSync ∧
  decode [0x5A#8, 0xA5#8, 0x02#8, 0x04#8, 0x00#8, 0xDE#8] = .rejected .incomplete

/-- 30 R90, R103: decoding the frame of any well-formed instruction, with any bytes behind it and for any pair of sync
bytes, gives the instruction and leaves those bytes. -/
def Obligations.DecodeOfEncodeIsTheInstruction : Prop :=
  ∀ (k : Config.Sync) (i : Instr) (surplus : List Byte), i.wellFormed = true →
    decodeWith k (encodeWith k i ++ surplus) = .frame i surplus

/-- 30 R90, R91: a buffer that decodes to a frame IS that frame's encoding followed by the surplus bytes: no two frames
read the same, and no byte of the buffer is dropped. -/
def Obligations.DecodedBufferIsTheEncoding : Prop :=
  ∀ (k : Config.Sync) (buf : List Byte) (i : Instr) (surplus : List Byte),
    decodeWith k buf = .frame i surplus → i.wellFormed = true ∧ buf = encodeWith k i ++ surplus

/-- 40 R121 to R128, 60 R252: the tests of the decode pass in their fixed order, for every buffer. -/
def Obligations.DecodeTestsInFixedOrder : Prop :=
  ∀ (k : Config.Sync) (buf : List Byte),
    let n := payloadLength (buf.getD 3 0#8) (buf.getD 4 0#8)
    decodeWith k buf =
      if buf.length < 6 then .rejected .incomplete
      else if buf.getD 0 0#8 ≠ k.a ∨ buf.getD 1 0#8 ≠ k.b then .rejected .badSync
      else if buf.length < 6 + n then .rejected .incomplete
      else if byteSum ((buf.drop 2).take (3 + n)) ≠ buf.getD (5 + n) 0#8 then .rejected .badSum
      else .frame (selectCommand (buf.getD 2 0#8) ((buf.drop 5).take n)) (buf.drop (6 + n))

/-- 30 R94: the check byte is the sum of command, length and payload bytes modulo 256. -/
def Obligations.CheckByteIsTheModularSum : Prop :=
  ∀ (cmd lo hi : Byte) (payload : List Byte),
    (checkByte cmd lo hi payload).toNat =
      (cmd.toNat + lo.toNat + hi.toNat + (payload.map BitVec.toNat).sum) % 256

/-- 95 T1, 40 R126: changing any single payload byte of a valid frame turns it into one with a wrong check byte. -/
def Obligations.SingleCorruptedByteIsDetected : Prop :=
  ∀ (k : Config.Sync) (i : Instr) (surplus : List Byte) (j : Nat) (b : Byte),
    i.wellFormed = true → j < i.payload.length → b ≠ i.payload.getD j 0#8 →
      decodeWith k ((encodeWith k i ++ surplus).set (5 + j) b) = .rejected .badSum

/-! ## Reset -/

/-- 10 R48, 70 R271: the values the spec gives the state after reset. The spec marks them as its decisions D6, D7 and
D22. -/
def Obligations.ResetHoldsTheSpecsValues : Prop :=
  State.reset.rxlen = 0 ∧ State.reset.dstate = .idle ∧ State.reset.eph = .poll ∧ State.reset.lstate = .rejected ∧
    State.reset.nvmLock = true ∧ State.reset.cpuImask = false ∧ State.reset.tmrEn = true ∧ State.reset.tx = []

/-- 70 R271, R272, R273; 10 R48; 43 R222: a reset, with either level of the gate, gives the state R48 lists, with EPH at
POLL in update mode and at the one launch in direct mode (log 14), leaves on WIRE what the host sends afterwards, and
keeps every byte of NVM unless it strikes during a controller operation. CURSOR (R24: not persisted), NVM_FLAGS, CPU_MSP,
CPU_PC, CPU_VTBASE, TMR_CNT and RXBUF, which R48 leaves open, hold the draws of this reset, whatever they held before
(logs 5, 7). The reset as a turn of the schedule is the model's (log 15). -/
def Obligations.ResetKeepsNvmAndLosesTheSession : Prop :=
  ∀ (s : State) (ts : List Turn) (e : ResetEvent), s.sched = .reset e :: ts →
    ∃ t, step s = .next t ∧ (e.duringOperation = false → ∀ a, readByte t.nvm a = readByte s.nvm a) ∧ t.rxlen = 0 ∧
      t.dstate = .idle ∧
      t.eph = (match e.gate with
        | .update => .poll
        | .direct => .busy [.setLstate .candidate, .readSp, .bootReturn]) ∧
      t.lstate = .rejected ∧ t.nvmLock = true ∧ t.cpuImask = false ∧ t.tmrEn = true ∧ t.tx = [] ∧
      t.wire = e.wire ∧ t.sched = ts ∧
      t.cursor = Config.resetCursor s.draws ∧ (∀ f, f ∈ t.nvmFlags ↔ f ∈ Config.resetFlags s.draws) ∧
      t.cpuMsp = Config.resetMsp s.draws ∧ t.cpuPc = Config.resetPc s.draws ∧
      t.cpuVtbase = Config.resetVtbase s.draws ∧ t.tmrCnt = Config.resetTimer s.draws ∧
      ∀ i, i < Config.env.params.rxBufSize → readByte t.rxbuf i = Config.anyByte s.draws i

/-- 70 R273: a reset during a sector erase may change bytes of that sector only, during a program operation bytes of
that cell that are memory only, and at any other moment no byte of NVM (the spec's decision D27; log 15). -/
def Obligations.InterruptedOperationDamagesItsTargetOnly : Prop :=
  ∀ (s : State) (ts : List Turn) (e : ResetEvent), s.sched = .reset e :: ts →
    ∃ t, step s = .next t ∧ ∀ a,
      (match s.eph with
        | .busy (.nvmEraseSector r :: _) => r.contains a = false
        | .busy (.nvmProgramWord c _ :: _) =>
          ¬ (c.toNat ≤ a ∧ a < c.toNat + 4) ∨ Config.env.params.inNvm a = false
        | _ => True) →
      readByte t.nvm a = readByte s.nvm a

/-! ## The receive agent and the timer -/

/-- 40 R120, R133, 60 R247, R251: RX's turn. Masked, or with nothing on WIRE, it changes nothing; with room in the
buffer it stores the byte at RXLEN and counts it; with the buffer full it drops the byte. Nothing else changes. -/
def Obligations.RxTurnAppendsOrDrops : Prop :=
  ∀ (s : State) (ts : List Turn), s.sched = .rx :: ts →
    ∃ t, step s = .next t ∧
      match s.wire with
      | [] => t = setSched ts s
      | b :: rest =>
        if s.cpuImask = true then t = setSched ts s
        else if s.rxlen < Config.env.params.rxBufSize then
          t.rxlen = s.rxlen + 1 ∧ t.wire = rest ∧ readByte t.rxbuf s.rxlen = b ∧
            (∀ i, i ≠ s.rxlen → readByte t.rxbuf i = readByte s.rxbuf i) ∧
            t = { s with sched := ts, rxbuf := t.rxbuf, rxlen := t.rxlen, wire := t.wire }
        else t = { s with sched := ts, wire := rest }

/-- 20 R72: RX's turn leaves the bytes a pass has sampled as they were. -/
def Obligations.RxTurnKeepsTheSampledPrefix : Prop :=
  ∀ (s : State) (ts : List Turn), s.sched = .rx :: ts →
    ∃ t, step s = .next t ∧ s.rxlen ≤ t.rxlen ∧ (buffered t).take s.rxlen = buffered s

/-- 10 R38, 60 R250: time changes the timer's counter while TMR_EN = 1, and nothing else of the block. The value it
takes is free (log 6). -/
def Obligations.TimerTurnTouchesTheCounterOnly : Prop :=
  ∀ (s : State) (ts : List Turn), s.sched = .tick :: ts →
    ∃ t, step s = .next t ∧ t = { s with sched := ts, ticks := s.ticks + 1, tmrCnt := t.tmrCnt } ∧
      (s.tmrEn = false → t.tmrCnt = s.tmrCnt)

/-! ## The decode pass -/

/-- 40 R127, R130; 41 R151: at a poll, ENG next, a buffer that decodes to an instruction is run: the step is exec of
it, behind the turn the sample took off the schedule. -/
def Obligations.StepRunsTheDecodedInstruction : Prop :=
  ∀ (s : State) (ts : List Turn) (i : Instr) (surplus : List Byte),
    s.eph = .poll → EngNext s ts → decode (buffered s) = .frame i surplus → step s = exec i (setSched ts s)

/-- 60 R248: fewer than 6 bytes, or matching sync and fewer than 6 + N: the pass waits and changes nothing. -/
def Obligations.IncompleteFrameWaits : Prop :=
  ∀ (s : State) (ts : List Turn), s.eph = .poll → EngNext s ts →
    (s.rxlen < 6 ∨
      (readByte s.rxbuf 0 = Config.sync.a ∧ readByte s.rxbuf 1 = Config.sync.b ∧
        s.rxlen < 6 + payloadLength (readByte s.rxbuf 3) (readByte s.rxbuf 4))) →
    step s = .next (setSched ts s)

/-- 40 R123, 60 R242: 6 or more bytes of which byte 0 or byte 1 is not the sync byte: the whole buffer is discarded, no
reply is sent, nothing else of the engine changes. -/
def Obligations.BadSyncDiscardsSilently : Prop :=
  ∀ (s : State) (ts : List Turn), s.eph = .poll → EngNext s ts → quiet s = true → 6 ≤ s.rxlen →
    (readByte s.rxbuf 0 ≠ Config.sync.a ∨ readByte s.rxbuf 1 ≠ Config.sync.b) →
    ∃ t, step s = .next t ∧ PassEnded t ∧ t.tx = s.tx ∧ SessionSame s t ∧ NvmSame s t ∧ CpuSame s t ∧
      TimerSame s t ∧ RxSide s t

/-- 60 R243: a complete frame whose sum byte is wrong: NACK, the buffer is discarded, the command is not dispatched. -/
def Obligations.BadSumIsNackedAndDiscarded : Prop :=
  ∀ (s : State) (ts : List Turn), s.eph = .poll → EngNext s ts → quiet s = true → 6 ≤ s.rxlen →
    readByte s.rxbuf 0 = Config.sync.a → readByte s.rxbuf 1 = Config.sync.b →
    6 + payloadLength (readByte s.rxbuf 3) (readByte s.rxbuf 4) ≤ s.rxlen →
    byteSum (readBytes s.rxbuf 2 (3 + payloadLength (readByte s.rxbuf 3) (readByte s.rxbuf 4))) ≠
      readByte s.rxbuf (5 + payloadLength (readByte s.rxbuf 3) (readByte s.rxbuf 4)) →
    ∃ t, step s = .next t ∧ PassEnded t ∧ t.tx = s.tx ++ [0x15#8] ∧ SessionSame s t ∧ NvmSame s t ∧ CpuSame s t ∧
      TimerSame s t ∧ RxSide s t

/-- 41 R157: from a buffer that gives no valid frame, ENG's step changes neither storage, nor cursor, nor session
state, nor the processor's registers, whatever the schedule. -/
def Obligations.InvalidBufferNeverMutatesStorage : Prop :=
  ∀ (s t : State) (ts : List Turn) (why : Reject), s.eph = .poll → EngNext s ts →
    decode (buffered s) = .rejected why → step s = .next t → SessionSame s t ∧ NvmSame s t ∧ CpuSame s t

/-- 10 R27, R28; 20 R70: an instruction whose schedule pauses it, after any turns of ENG, RX and the timer. Either its
pass is still under way at the pause: then EPH holds the actions left, and going on with them gives what the instruction
gives under the schedule without the pause (in one step, if ENG is to move next). Or the pass ended before: then the pause
made no difference. Pauses are the model's own (log 4). -/
def Obligations.PausedPassResumes : Prop :=
  ∀ (i : Instr) (s t : State) (pre us : List Turn),
    s.sched = pre ++ .pause :: us → pre.all goesOn = true → exec i s = .next t →
    (pre = [] → MidPass t) ∧
    ((MidPass t ∧ t.sched = us ∧ exec i (setSched (pre ++ us) s) = .next (drive Config.env t) ∧
        ((us = [] ∨ ∃ vs, us = .eng :: vs) → step t = exec i (setSched (pre ++ us) s))) ∨
      (¬ MidPass t ∧ ∃ post, post <:+ pre ∧ t.sched = post ++ .pause :: us ∧
        exec i (setSched (pre ++ us) s) = .next (setSched (post ++ us) t)))

/-- 43 R219, R221: after a successful launch ENG has no further step. The stop and its name are the model's (log 13). -/
def Obligations.LaunchedEngineHasNoStep : Prop :=
  ∀ (s : State) (ts : List Turn), s.eph = .gone → EngNext s ts → step s = .fault .launched

/-! ## The commands -/

/-- 41 R152, R127: CONNECT under every quiet schedule. -/
def Obligations.ConnectCompletes : Prop :=
  ∀ (p : List Byte) (s : State), quiet s = true →
    ∃ t, exec (.connect p) s = .next t ∧ t.cursor = Config.env.params.appBase ∧ t.dstate = .connected ∧
      t.tx = s.tx ++ [0x06#8] ∧ PassEnded t ∧ t.lstate = s.lstate ∧ t.nvmLock = true ∧
      (∀ a, Config.env.params.inEraseSet a = false → readByte t.nvm a = readByte s.nvm a) ∧
      CpuSame s t ∧ TimerSame s t ∧ RxSide s t

/-- 42 R184, R187: every sector whose erase does not fail is all 0xFF after CONNECT; the i-th sector's failure is the
draw it takes (log 5). -/
def Obligations.ConnectErasesEverySectorThatDoesNotFail : Prop :=
  ∀ (p : List Byte) (s : State) (i : Nat) (r : Config.Region) (a : Nat), quiet s = true →
    Config.env.params.eraseSet[i]? = some r → r.contains a = true →
    ∃ t, exec (.connect p) s = .next t ∧ (Config.nvmFail (s.draws + i) = false → readByte t.nvm a = 0xFF#8)

/-- 42 R187, R183: in an environment where no operation fails (NVM_RELIABLE), CONNECT leaves ERASE_SET erased, every
other byte as it was, and no flag pending. -/
def Obligations.ReliableConnectErasesTheEraseSet : Prop :=
  ∀ (c : Config.Env) (p : List Byte) (s : State), c.Reliable → quiet s = true →
    ∃ t, execConnectIn c p s = .next t ∧ t.nvmFlags = [] ∧
      ∀ a, readByte t.nvm a = if c.params.inEraseSet a = true then 0xFF#8 else readByte s.nvm a

/-- 41 R153: DATA whose range stays below the top of the address space, under every quiet schedule: the cursor advances
by N modulo 2^32, ACK is sent, no byte outside the cells of the write changes, failures included, and no flag is
cleared. -/
def Obligations.DataCompletes : Prop :=
  ∀ (p : List Byte) (s : State), quiet s = true → s.cursor.toNat + p.length ≤ 2 ^ 32 →
    ∃ t, exec (.data p) s = .next t ∧ t.cursor.toNat = (s.cursor.toNat + p.length) % 2 ^ 32 ∧
      t.tx = s.tx ++ [0x06#8] ∧ PassEnded t ∧ t.dstate = s.dstate ∧ t.lstate = s.lstate ∧ t.nvmLock = true ∧
      (∀ a, (∀ cell ∈ cellsOf s.cursor.toNat p.length, ¬ (cell ≤ a ∧ a < cell + 4)) →
        readByte t.nvm a = readByte s.nvm a) ∧
      (∀ f, f ∈ s.nvmFlags → f ∈ t.nvmFlags) ∧ CpuSame s t ∧ TimerSame s t ∧ RxSide s t

/-- 42 R197: DATA is refused exactly when its range passes the top of the address space (the spec's decision D28;
log 12). -/
def Obligations.DataRefusedExactlyPastTheTop : Prop :=
  ∀ (p : List Byte) (s : State),
    exec (.data p) s = .refused .writePastTop ↔ 2 ^ 32 < s.cursor.toNat + p.length

/-- 42 R190: where no operation fails, DATA leaves every byte outside [CURSOR, CURSOR + N) as it was. -/
def Obligations.ReliableDataKeepsBytesOutsideItsRange : Prop :=
  ∀ (c : Config.Env) (p : List Byte) (s : State), c.Reliable → quiet s = true →
    s.cursor.toNat + p.length ≤ 2 ^ 32 →
    ∃ t, execDataIn c p s = .next t ∧
      ∀ a, ¬ (s.cursor.toNat ≤ a ∧ a < s.cursor.toNat + p.length) → readByte t.nvm a = readByte s.nvm a

/-- 42 R185, R188, R189: where no operation fails, the byte DATA presents for an address of its range: no memory there,
or payload 0xFF: unchanged; an erased byte takes the payload byte. Onto any other contents the value is free, and
nothing is said (D13; log 5). -/
def Obligations.ReliableDataProgramsErasedBytes : Prop :=
  ∀ (c : Config.Env) (p : List Byte) (s : State) (j : Nat), c.Reliable → quiet s = true →
    s.cursor.toNat + p.length ≤ 2 ^ 32 → j < p.length →
    ∃ t, execDataIn c p s = .next t ∧
      (if c.params.inNvm (s.cursor.toNat + j) = false ∨ p.getD j 0#8 = 0xFF#8 then
        readByte t.nvm (s.cursor.toNat + j) = readByte s.nvm (s.cursor.toNat + j)
      else readByte s.nvm (s.cursor.toNat + j) = 0xFF#8 → readByte t.nvm (s.cursor.toNat + j) = p.getD j 0#8)

/-- 42 R194: DATA with an empty payload programs nothing and leaves the cursor. -/
def Obligations.EmptyDataProgramsNothing : Prop :=
  ∀ s : State, quiet s = true →
    ∃ t, exec (.data []) s = .next t ∧ t.cursor = s.cursor ∧ (∀ a, readByte t.nvm a = readByte s.nvm a) ∧
      t.nvmFlags = s.nvmFlags ∧ t.nvmLock = true ∧ t.tx = s.tx ++ [0x06#8]

/-- 41 R159, 42 R195: DATA frames of any lengths, one after the other, onto erased memory where no operation fails: the
cursor ends at its start plus the sum of the lengths, each frame is acknowledged once, no flag is added, the
concatenated payloads lie there contiguously, and every other byte is as before. -/
def Obligations.DataSessionWritesContiguously : Prop :=
  ∀ (c : Config.Env) (ps : List (List Byte)) (s : State), c.Reliable → quiet s = true →
    s.cursor.toNat + ps.flatten.length ≤ 2 ^ 32 →
    (∀ j, j < ps.flatten.length →
      c.params.inNvm (s.cursor.toNat + j) = true ∧ readByte s.nvm (s.cursor.toNat + j) = 0xFF#8) →
    ∃ t, dataSession c ps s = some t ∧ t.cursor.toNat = (s.cursor.toNat + ps.flatten.length) % 2 ^ 32 ∧
      t.tx = s.tx ++ List.replicate ps.length 0x06#8 ∧ t.nvmFlags = s.nvmFlags ∧
      (∀ j, j < ps.flatten.length → readByte t.nvm (s.cursor.toNat + j) = ps.flatten.getD j 0#8) ∧
      ∀ a, ¬ (s.cursor.toNat ≤ a ∧ a < s.cursor.toNat + ps.flatten.length) → readByte t.nvm a = readByte s.nvm a

/-- 41 R154, 43 R211 to R218, R221: FINISH under every quiet schedule: one ACK, NVM, its controller and the cursor
unchanged; with the image's first word in the RAM range, RAM_LO and RAM_HI included, the image has control, otherwise the
pass ends with only LSTATE changed. The byte order of the words read and the ends of the range are D19 and D11 (log 23). -/
def Obligations.FinishLaunchesOrReturns : Prop :=
  ∀ (p : List Byte) (s : State), quiet s = true →
    ∃ t, exec (.finish p) s = .next t ∧ t.tx = s.tx ++ [0x06#8] ∧ NvmSame s t ∧ t.cursor = s.cursor ∧ RxSide s t ∧
      if Config.env.params.ramLo ≤ memRead s.nvm Config.env.params.appBase.toNat ∧
          memRead s.nvm Config.env.params.appBase.toNat ≤ Config.env.params.ramHi then
        HasLaunched Config.env.params (memRead s.nvm Config.env.params.appBase.toNat)
          (memRead s.nvm (Config.env.params.appBase.toNat + 4)) t
      else PassEnded t ∧ t.lstate = .rejected ∧ t.dstate = s.dstate ∧ CpuSame s t ∧ TimerSame s t

/-- 60 R245: a FINISH whose image's first word is outside the RAM range is recovered by refusing to transfer: one ACK,
the buffer cleared, LSTATE = REJECTED, and nothing else changed. Said for every environment; exec's is
`Config.env`. The byte order of the word read and the ends of the range are D19 and D11 (log 23). -/
def Obligations.RejectedLaunchLeavesNoTrace : Prop :=
  ∀ (c : Config.Env) (p : List Byte) (s : State), quiet s = true →
    ¬ (c.params.ramLo ≤ memRead s.nvm c.params.appBase.toNat ∧
      memRead s.nvm c.params.appBase.toNat ≤ c.params.ramHi) →
    ∃ t, execFinishIn c p s = .next t ∧ t.tx = s.tx ++ [0x06#8] ∧ PassEnded t ∧ t.lstate = .rejected ∧
      t.dstate = s.dstate ∧ t.cursor = s.cursor ∧ NvmSame s t ∧ CpuSame s t ∧ TimerSame s t ∧ RxSide s t

/-- 41 R155: UNKNOWN under every quiet schedule: NACK, the buffer cleared, nothing else changed. -/
def Obligations.UnknownIsNackedAndNothingElse : Prop :=
  ∀ (cmd : Byte) (p : List Byte) (s : State), quiet s = true →
    ∃ t, exec (.unknown cmd p) s = .next t ∧ t.tx = s.tx ++ [0x15#8] ∧ PassEnded t ∧ SessionSame s t ∧
      NvmSame s t ∧ CpuSame s t ∧ TimerSame s t ∧ RxSide s t

/-- 30 R97: the payload of CONNECT and FINISH is opaque, and that of UNKNOWN, and its code, are ignored. -/
def Obligations.PayloadIsOpaque : Prop :=
  ∀ (p q : List Byte) (cmd code : Byte) (s : State),
    exec (.connect p) s = exec (.connect q) s ∧ exec (.finish p) s = exec (.finish q) s ∧
      exec (.unknown cmd p) s = exec (.unknown code q) s

/-- 20 R73: for everything but RXBUF, RXLEN, WIRE and the timer's counter, an instruction under any quiet schedule does
what it does with no other agent scheduled; and RXLEN agrees too unless a launch succeeds. -/
def Obligations.InterleavingDoesNotMatter : Prop :=
  ∀ (i : Instr) (s : State), quiet s = true →
    (∃ t u, exec i s = .next t ∧ exec i (setSched [] s) = .next u ∧ EngineSame t u ∧
      (t.eph = .poll → t.rxlen = u.rxlen)) ∨
    (exec i s = .refused .writePastTop ∧ exec i (setSched [] s) = .refused .writePastTop)

/-! ## The storage writer's operations -/

/-- 42 R189: the lane rule of AssembleWord, and R189's worked cases. That the first cell of an unaligned write is padded
in its low lanes, so the cases at A + 3, is the spec's decision D12 (R188, C6; log 21). -/
def Obligations.AssembledWordFollowsTheLaneRule : Prop :=
  (∀ (cell addr : Nat) (data : List Byte) (k : Nat), k < 4 →
    laneOf (assembleWord cell addr data) k =
      if addr ≤ cell + k ∧ cell + k < addr + data.length then data.getD (cell + k - addr) 0#8 else 0xFF#8) ∧
  ∀ A : Nat, A % 4 = 0 →
    assembleWord A A [0x11#8] = 0xFFFFFF11#32 ∧
    assembleWord A A [0x11#8, 0x22#8, 0x33#8] = 0xFF332211#32 ∧
    assembleWord A A [0x44#8, 0x55#8, 0x66#8, 0x77#8, 0x88#8] = 0x77665544#32 ∧
    assembleWord (A + 4) A [0x44#8, 0x55#8, 0x66#8, 0x77#8, 0x88#8] = 0xFFFFFF88#32 ∧
    assembleWord A (A + 3) [0x44#8, 0x55#8, 0x66#8, 0x77#8, 0x88#8] = 0x44FFFFFF#32 ∧
    assembleWord (A + 4) (A + 3) [0x44#8, 0x55#8, 0x66#8, 0x77#8, 0x88#8] = 0x88776655#32

/-- 42 R188, 20 R65: the cells of a write are exactly the aligned cells that overlap its range. -/
def Obligations.WriteCoversTheOverlappingCells : Prop :=
  ∀ (addr len cell : Nat),
    cell ∈ cellsOf addr len ↔ cell % 4 = 0 ∧ cell < addr + len ∧ addr < cell + 4 ∧ 0 < len

/-- 42 R185: NvmProgramWord on an unlocked controller, lane by lane, in every environment; every byte outside the cell
as it was. A lane R185 leaves at any value holds the environment's draw (log 5). -/
def Obligations.ProgramWordFollowsTheLaneBranches : Prop :=
  ∀ (c : Config.Env) (cell w : Word) (s : State) (a : Nat), s.nvmLock = false →
    readByte (nvmProgramWord c cell w s).nvm a =
      if cell.toNat ≤ a ∧ a < cell.toNat + 4 then
        if c.params.inNvm a = false then readByte s.nvm a
        else if c.nvmFail s.draws = true then c.anyByte s.draws a
        else if laneOf w (a - cell.toNat) = 0xFF#8 then readByte s.nvm a
        else if readByte s.nvm a = 0xFF#8 then laneOf w (a - cell.toNat)
        else c.anyByte s.draws a
      else readByte s.nvm a

/-- 42 R184, R185, 10 R32: an erase or program operation that neither fails nor overprograms (a lane of R185's last
branch) leaves the status flags, and so does a program operation where there is no memory, also if it fails (D15, log 17);
any other one of the two only adds flags. What else changes them is in
`FlagsChangeOnlyByTheController`. -/
def Obligations.EraseAndProgramFlagOnlyFailureOrOverprogramming : Prop :=
  ∀ (c : Config.Env) (cell w : Word) (r : Config.Region) (s : State),
    (∀ f, f ∈ s.nvmFlags → f ∈ (nvmProgramWord c cell w s).nvmFlags ∧ f ∈ (nvmEraseSector c r s).nvmFlags) ∧
    (c.nvmFail s.draws = false → (nvmEraseSector c r s).nvmFlags = s.nvmFlags) ∧
    ((∀ k, k < 4 → c.params.inNvm (cell.toNat + k) = false ∨
        (c.nvmFail s.draws = false ∧ (laneOf w k = 0xFF#8 ∨ readByte s.nvm (cell.toNat + k) = 0xFF#8))) →
      (nvmProgramWord c cell w s).nvmFlags = s.nvmFlags)

/-- 42 R184: NvmEraseSector on an unlocked controller, in every environment. -/
def Obligations.EraseSectorErasesItsSectorOnly : Prop :=
  ∀ (c : Config.Env) (r : Config.Region) (s : State) (a : Nat), s.nvmLock = false →
    readByte (nvmEraseSector c r s).nvm a =
      if r.contains a = true then (if c.nvmFail s.draws = true then c.anyByte s.draws a else 0xFF#8)
      else readByte s.nvm a

/-- 42 R186: the value of MemRead, little-endian by the spec's decision D19 (R63: the document does not state the order;
log 23). -/
def Obligations.MemReadIsLittleEndian : Prop :=
  ∀ (m : Memory) (a : Nat),
    (memRead m a).toNat = (readByte m a).toNat + 256 * (readByte m (a + 1)).toNat +
      65536 * (readByte m (a + 2)).toNat + 16777216 * (readByte m (a + 3)).toNat

/-- 20 R62, R63: a word programmed without failure onto an erased cell of the memory reads back as itself. -/
def Obligations.ProgrammedWordReadsBack : Prop :=
  ∀ (c : Config.Env) (cell w : Word) (s : State), s.nvmLock = false → c.nvmFail s.draws = false →
    (∀ k, k < 4 → c.params.inNvm (cell.toNat + k) = true ∧ readByte s.nvm (cell.toNat + k) = 0xFF#8) →
    memRead (nvmProgramWord c cell w s).nvm cell.toNat = w

/-- 93 U7: a mutating primitive on a locked controller is the no-op the spec allows (the model's choice, log 11). -/
def Obligations.LockedControllerKeepsNvm : Prop :=
  ∀ (c : Config.Env) (cell w : Word) (r : Config.Region) (s : State), s.nvmLock = true →
    NvmSame s (nvmProgramWord c cell w s) ∧ NvmSame s (nvmEraseSector c r s)

/-! ## Whole-machine rules -/

/-- 10 R21, R22, R30, R49: canonical memories, RXLEN within the capacity, NVM only where memory exists: every step
keeps it. -/
def Obligations.MemoriesStayOk : Prop :=
  ∀ s t : State, MemoriesOk Config.env.params s → step s = .next t → MemoriesOk Config.env.params t

/-- 10 R31: NVM_LOCK = 1 whenever EPH = POLL, mutating primitives only with NVM_LOCK = 0: every step keeps it. -/
def Obligations.LockDisciplineStays : Prop :=
  ∀ s t : State, LockOk s → step s = .next t → LockOk t

/-- 10 R31 in the words of the rule: a state that keeps the discipline is locked at every poll, and what it performs
next among the mutating primitives finds the controller unlocked. -/
def Obligations.LockDisciplineMeansLockedAtPoll : Prop :=
  ∀ s : State, LockOk s →
    (s.eph = .poll → s.nvmLock = true) ∧
    (∀ r k, s.eph = .busy (.nvmEraseSector r :: k) → s.nvmLock = false) ∧
    (∀ c w k, s.eph = .busy (.nvmProgramWord c w :: k) → s.nvmLock = false)

/-- 10 R41, R49: TX holds only ACK and NACK: every step keeps it. -/
def Obligations.RepliesStayAckOrNack : Prop :=
  ∀ s t : State, RepliesOk s → step s = .next t → RepliesOk t

/-- 10 R27, R49; 43 R221: EPH = GONE exactly when DSTATE = LAUNCHED, and then interrupts are masked, the timer is off
and zero, the vector base is APP_BASE and the stack pointer lies in the RAM range: every step keeps it. -/
def Obligations.LaunchedStateStays : Prop :=
  ∀ s t : State, LaunchOk Config.env.params s → step s = .next t → LaunchOk Config.env.params t

/-- The invariants hold after reset (10 R48, R49). -/
def Obligations.ResetMeetsTheInvariants : Prop :=
  MemoriesOk Config.env.params State.reset ∧ LockOk State.reset ∧ RepliesOk State.reset ∧
    LaunchOk Config.env.params State.reset ∧ CursorOk Config.env.params State.reset

/-- 10 R41: TX is append-only: every step but a reset leaves the bytes sent before, in order. -/
def Obligations.TxOnlyGrows : Prop :=
  ∀ s t : State, resetNext s = false → step s = .next t → s.tx <+: t.tx

/-- 70 R281, 93 U9: a frame larger than the buffer hangs the receiver: every step but a reset completes, changes
nothing the host or the storage could show, and leaves the machine hung. Said for every environment (RX_BUF_SIZE is
open) and every meaning of a dispatched frame, since none is dispatched; the machine's step is `turnIn Config.env exec`. -/
def Obligations.OversizedFrameHangsTheReceiver : Prop :=
  (∀ s : State, step s = turnIn Config.env exec s) ∧
  ∀ (c : Config.Env) (run : Run) (s : State), Hung c s → resetNext s = false →
    ∃ t, turnIn c run s = .next t ∧ Hung c t ∧ t.tx = s.tx ∧ SessionSame s t ∧ NvmSame s t ∧ CpuSame s t

/-- 43 R211 to R218, R222; 70 R271, R275; 10 R48; D23: a reset whose gate selects direct boot leaves EPH at the one launch,
with R48's LSTATE, DSTATE, NVM_LOCK, CPU_IMASK, TMR_EN and TX (RXLEN = 0 and the rest of the state after a reset are in
`ResetKeepsNvmAndLosesTheSession`). Turns of RX and the timer leave that phase as it is. From it ENG's next step runs the
launch: on an image whose first word is in the RAM range it succeeds, otherwise the machine is refused at ENG's next move.
The form of direct boot is log 14's; the word read and the range are as D19 and D11 (log 23). -/
def Obligations.DirectBootLaunchesOnce : Prop :=
  (∀ (s : State) (ts : List Turn) (e : ResetEvent), s.sched = .reset e :: ts → e.gate = .direct →
    ∃ t, step s = .next t ∧ t.eph = .busy directBootActions ∧ t.sched = ts ∧ t.lstate = .rejected ∧
      t.dstate = .idle ∧ t.nvmLock = true ∧ t.cpuImask = false ∧ t.tmrEn = true ∧ t.tx = []) ∧
  (∀ (s : State) (ts : List Turn), s.eph = .busy directBootActions → (s.sched = .rx :: ts ∨ s.sched = .tick :: ts) →
    ∃ t, step s = .next t ∧ t.eph = .busy directBootActions ∧ t.sched = ts) ∧
  ∀ (s : State) (ts : List Turn), quiet s = true → s.eph = .busy directBootActions → EngNext s ts →
    ∃ t, step s = .next t ∧ NvmSame s t ∧ t.tx = s.tx ∧
      if Config.env.params.ramLo ≤ memRead s.nvm Config.env.params.appBase.toNat ∧
          memRead s.nvm Config.env.params.appBase.toNat ≤ Config.env.params.ramHi then
        HasLaunched Config.env.params (memRead s.nvm Config.env.params.appBase.toNat)
          (memRead s.nvm (Config.env.params.appBase.toNat + 4)) t
      else t.lstate = .rejected ∧ CpuSame s t ∧
        ∀ u : State, u = setSched [] t → step u = .refused .directBootRejected

/-- 10 R49; 41 R159: CURSOR over every step but a reset, whatever the schedule, pauses included: it is unchanged, or the
buffer holds a CONNECT and it is the image base, or the buffer holds a DATA and it has grown by the payload's length. What
a paused pass still writes to it is kept as the command in the buffer says, by every step, a reset included. -/
def Obligations.CursorMovesByPayloadLengthsOnly : Prop :=
  ∀ s t : State, CursorOk Config.env.params s → step s = .next t →
    CursorOk Config.env.params t ∧
      (resetNext s = false → t.cursor = s.cursor ∨ CursorTarget Config.env.params s t.cursor)

/-- 10 R27, R28: a step from BUSY(k). With ENG to move, it performs the head of `k` and goes on with what is left; a turn
of RX or the timer leaves the rest of the pass as it was, and so does a pause (log 4). Outside a pass nothing is left to
go on with. -/
def Obligations.MidPassStepGoesOn : Prop :=
  (∀ (s : State) (a : Action) (k : List Action) (ts : List Turn), s.eph = .busy (a :: k) → a ≠ .bootReturn →
    (EngNext s ts →
      step s = .next (drive Config.env s) ∧ drive Config.env s = drive Config.env (act Config.env a k (setSched ts s))) ∧
    (s.sched = .rx :: ts ∨ s.sched = .tick :: ts →
      ∃ t, step s = .next t ∧ t.eph = s.eph ∧ t.sched = ts ∧ drive Config.env t = drive Config.env s) ∧
    (s.sched = .pause :: ts → step s = .next (setSched ts s) ∧ drive Config.env s = setSched ts s)) ∧
  ∀ s : State, ¬ MidPass s → drive Config.env s = s

/-- 10 R27, R28; 20 R70; 60 R253: a step of ENG whose schedule pauses it, from a poll or from inside a pass, whatever the
pass is: a command, the recovery of a rejected buffer, the rest of a paused pass, a direct boot. Either the pass is under
way at the pause, and going on from there gives what the step gives under the schedule without the pause; or the pass
ended before (or never began), and the pause made no difference (log 4). -/
def Obligations.PausedStepResumes : Prop :=
  ∀ (s t : State) (pre us : List Turn),
    s.sched = .eng :: (pre ++ .pause :: us) → pre.all goesOn = true → s.eph ≠ .busy [] → step s = .next t →
    (MidPass t ∧ t.sched = us ∧ step (setSched (.eng :: (pre ++ us)) s) = .next (drive Config.env t) ∧
        ((us = [] ∨ ∃ vs, us = .eng :: vs) → step t = step (setSched (.eng :: (pre ++ us)) s))) ∨
      (¬ MidPass t ∧ ∃ post, post <:+ pre ∧ t.sched = post ++ .pause :: us ∧
        step (setSched (.eng :: (pre ++ us)) s) = .next (setSched (post ++ us) t))

/-- 70 R271, R272; 10 R24, R48: nothing but NVM survives a reset. Two states with the same NVM, drawing the same free
values, are reset to the same state, whatever else they held: cursor, buffer, session, flags, processor and timer
registers, TX, WIRE. For a reset during a controller operation the two must be in the same phase, since it damages what
that operation targets (R273; log 15). -/
def Obligations.ResetForgetsEverythingButNvm : Prop :=
  ∀ (s u : State) (ts : List Turn) (e : ResetEvent), s.sched = .reset e :: ts → u.sched = .reset e :: ts →
    u.nvm = s.nvm → u.draws = s.draws → u.ticks = s.ticks → (e.duringOperation = true → u.eph = s.eph) →
    ∃ t, step s = .next t ∧ step u = .next t

/-- 10 R32; 42 R183, R184, R185: what changes NVM_FLAGS. NvmClearFlags empties them; no atomic action but that, an erase
and a program operation changes them. Over every step but a reset, whatever the schedule: a pending flag stays unless
the pass holds NvmClearFlags, which of the commands only CONNECT's does; none is added unless the pass holds an erase or a
program operation, which only CONNECT's and DATA's do; and with neither they are as before. What a reset leaves is in
`ResetKeepsNvmAndLosesTheSession`. -/
def Obligations.FlagsChangeOnlyByTheController : Prop :=
  (∀ (c : Config.Env) (k : List Action) (s : State), (act c .nvmClearFlags k s).nvmFlags = []) ∧
  (∀ (c : Config.Env) (a : Action) (k : List Action) (s : State), a ≠ .nvmClearFlags → mutates a = false →
    (act c a k s).nvmFlags = s.nvmFlags) ∧
  ∀ s t : State, resetNext s = false → step s = .next t →
    (¬ MayClearFlags s → ∀ f, f ∈ s.nvmFlags → f ∈ t.nvmFlags) ∧
    (¬ MayAddFlags s → ∀ f, f ∈ t.nvmFlags → f ∈ s.nvmFlags) ∧
    (¬ MayClearFlags s → ¬ MayAddFlags s → t.nvmFlags = s.nvmFlags)

/-- 42 R185, R193: where there is no memory a program operation changes no state, in every environment, whatever the word
and the failure draw are (the spec's decisions D15, D16; log 17), but for the model's count of draws. So DATA whose range
lies outside NVM_DOM is not refused and not reported: every byte of NVM and the flags are as before, failures included, the
cursor advances and ACK is sent. Said for every environment whose parameters meet R9 (its NVM_DOM holds whole cells, so the
padding of the range meets no memory either); exec's is one. -/
def Obligations.OutsideTheMemoryNothingIsProgrammed : Prop :=
  (∀ (c : Config.Env) (cell w : Word) (s : State), (∀ k, k < 4 → c.params.inNvm (cell.toNat + k) = false) →
    nvmProgramWord c cell w s = { s with draws := s.draws + 1 }) ∧
  (Config.env.params.ok = true ∧ ∀ (p : List Byte) (s : State), exec (.data p) s = execDataIn Config.env p s) ∧
  ∀ (c : Config.Env) (p : List Byte) (s : State), c.params.ok = true → quiet s = true →
    s.cursor.toNat + p.length ≤ 2 ^ 32 → (∀ j, j < p.length → c.params.inNvm (s.cursor.toNat + j) = false) →
    ∃ t, execDataIn c p s = .next t ∧ (∀ a, readByte t.nvm a = readByte s.nvm a) ∧ t.nvmFlags = s.nvmFlags ∧
      t.nvmLock = true ∧ t.cursor.toNat = (s.cursor.toNat + p.length) % 2 ^ 32 ∧ t.tx = s.tx ++ [0x06#8] ∧ PassEnded t
end

