-- ==== Sys2Proof/Laws/Config.lean ====
section
/-! SUPPORT. The parameters meet the constraints of spec 00 R9, whatever they are, and what follows from that. -/

namespace Sys2Proof.Config

/-- The constraints of R9 in words a proof can use. -/
structure Params.Valid (p : Params) : Prop where
  room : 6 ≤ p.rxBufSize
  aligned : p.appBase.toNat % 4 = 0
  header : 8 ≤ p.appSize
  top : p.appBase.toNat + p.appSize ≤ 2 ^ 32
  disjoint : p.eraseSet.Pairwise fun r q => r.disjoint q = true
  covered : ∀ i, i < p.appSize → p.inEraseSet (p.appBase.toNat + i) = true
  sectorIn : ∀ r ∈ p.eraseSet, ∀ i, i < r.size → p.inNvm (r.base + i) = true
  domAligned : ∀ r ∈ p.nvmDom, r.base % 4 = 0 ∧ r.size % 4 = 0 ∧ r.base + r.size ≤ 2 ^ 32
  ram : p.ramLo ≤ p.ramHi

theorem Region.mem_iff (r : Region) (a : Nat) :
    r.contains a = true ↔ r.base ≤ a ∧ a < r.base + r.size := by
  simp [Region.contains]

theorem Params.ok_iff (p : Params) : p.ok = true ↔ p.Valid := by
  simp only [Params.ok, Bool.and_eq_true, decide_eq_true_eq, List.all_eq_true, and_assoc]
  constructor
  · rintro ⟨h1, h2, h3, h4, h5, h6, h7, h8, h9⟩
    exact ⟨h1, h2, h3, h4, h5, h6, h7, h8, h9⟩
  · rintro ⟨h1, h2, h3, h4, h5, h6, h7, h8, h9⟩
    exact ⟨h1, h2, h3, h4, h5, h6, h7, h8, h9⟩

theorem exampleParams_valid : exampleParams.Valid where
  room := by decide
  aligned := by decide
  header := by decide
  top := by decide
  disjoint := by decide
  covered := by
    intro i hi
    replace hi : i < 0x18000 := hi
    show exampleParams.inEraseSet (0x08008000 + i) = true
    simp only [Params.inEraseSet, exampleParams, List.any_cons, List.any_nil, Bool.or_false, Bool.or_eq_true,
      Region.mem_iff]
    omega
  sectorIn := by
    intro r hr i hi
    simp only [exampleParams, List.mem_cons, List.not_mem_nil, or_false] at hr
    simp only [Params.inNvm, exampleParams, List.any_cons, List.any_nil, Bool.or_false, Region.mem_iff]
    rcases hr with rfl | rfl | rfl <;> simp only at hi ⊢ <;> omega
  domAligned := by decide
  ram := by decide

/-- The machine's parameters meet R9. -/
theorem params_valid : params.Valid := by
  unfold params
  split
  · rename_i h
    exact (Params.ok_iff _).1 h
  · exact exampleParams_valid

theorem Params.inEraseSet_iff (p : Params) (a : Nat) :
    p.inEraseSet a = true ↔ ∃ r ∈ p.eraseSet, r.contains a = true := by
  simp [Params.inEraseSet]

/-- Every sector of ERASE_SET lies in NVM_DOM. -/
theorem Params.Valid.sector_inNvm {p : Params} (h : p.Valid) {r : Region} (hr : r ∈ p.eraseSet) {a : Nat}
    (ha : r.contains a = true) : p.inNvm a = true := by
  rw [Region.mem_iff] at ha
  have := h.sectorIn r hr (a - r.base) (by omega)
  rwa [Nat.add_sub_cancel' ha.1] at this

/-- NVM_DOM holds the whole of an aligned cell or nothing of it (R9). -/
theorem Params.Valid.inNvm_cell {p : Params} (h : p.Valid) {x k j : Nat} (hx : x % 4 = 0) (hk : k < 4) (hj : j < 4) :
    p.inNvm (x + k) = p.inNvm (x + j) := by
  unfold Params.inNvm
  rw [Bool.eq_iff_iff, List.any_eq_true, List.any_eq_true]
  refine exists_congr fun r => and_congr_right fun hr => ?_
  have := h.domAligned r hr
  rw [Region.mem_iff, Region.mem_iff]
  omega

theorem Params.inRam_iff (p : Params) (v : Word) : p.inRam v = true ↔ p.ramLo ≤ v ∧ v ≤ p.ramHi := by
  simp [Params.inRam]

/-- RAM_LO itself is an acceptable stack pointer. -/
theorem Params.Valid.inRam_lo {p : Params} (h : p.Valid) : p.inRam p.ramLo = true := by
  simp [Params.inRam, h.ram]

end Sys2Proof.Config
end

