-- ==== Sys2Proof/Laws/Memory.lean ====
section
/-! SUPPORT. The laws of a memory: what a read gives after each operation, and that each keeps the canonical form. -/

namespace Sys2Proof.Machine

@[simp] theorem readByte_nil (a : Nat) : readByte [] a = Config.erased := rfl

theorem readByte_cons (k : Nat) (b : Byte) (m : Memory) (a : Nat) :
    readByte ((k, b) :: m) a = if k = a then b else readByte m a := rfl

/-- A filter by address reads as the memory where it keeps, and as erased where it drops. -/
theorem readByte_filter (m : Memory) (q : Nat → Bool) (a : Nat) :
    readByte (m.filter fun x => q x.1) a = if q a then readByte m a else Config.erased := by
  induction m with
  | nil => simp
  | cons x m ih =>
    obtain ⟨k, b⟩ := x
    by_cases hk : k = a
    · subst hk
      by_cases hq : q k = true <;> simp [hq, readByte_cons, ih]
    · by_cases hq : q k = true <;> simp [hq, readByte_cons, hk, ih]

theorem readByte_dropCell (m : Memory) (a x : Nat) :
    readByte (dropCell m a) x = if x = a then Config.erased else readByte m x := by
  rw [dropCell, readByte_filter m (fun k => decide (k ≠ a))]
  by_cases h : x = a <;> simp [h]

theorem readByte_insertCell (m : Memory) (a : Nat) (b : Byte) (x : Nat) (hm : ∀ y ∈ m, y.1 ≠ a) :
    readByte (insertCell m a b) x = if x = a then b else readByte m x := by
  induction m with
  | nil => simp [insertCell, readByte_cons, eq_comm]
  | cons y m ih =>
    obtain ⟨k, v⟩ := y
    have hk : k ≠ a := hm (k, v) (by simp)
    have ih := ih fun y hy => hm y (by simp [hy])
    unfold insertCell
    split
    · simp only [readByte_cons, eq_comm (a := a)]
    · rw [readByte_cons, ih, readByte_cons]
      by_cases hx : x = a
      · subst hx; simp [hk]
      · simp [hx]

theorem dropCell_ne (m : Memory) (a : Nat) : ∀ y ∈ dropCell m a, y.1 ≠ a := by
  intro y hy
  simpa using (List.mem_filter.1 hy).2

/-- Read after write, at every address. -/
theorem readByte_writeByte (m : Memory) (a : Nat) (b : Byte) (x : Nat) :
    readByte (writeByte m a b) x = if x = a then b else readByte m x := by
  unfold writeByte
  split
  · rename_i hb
    rw [readByte_dropCell, hb]
  · rw [readByte_insertCell _ _ _ _ (dropCell_ne m a), readByte_dropCell]
    by_cases h : x = a <;> simp [h]

@[simp] theorem readByte_writeByte_same (m : Memory) (a : Nat) (b : Byte) : readByte (writeByte m a b) a = b := by
  simp [readByte_writeByte]

theorem readByte_writeByte_ne (m : Memory) (a : Nat) (b : Byte) {x : Nat} (h : x ≠ a) :
    readByte (writeByte m a b) x = readByte m x := by
  simp [readByte_writeByte, h]

theorem readByte_writeBytes (m : Memory) (a : Nat) (bs : List Byte) (x : Nat) :
    readByte (writeBytes m a bs) x =
      if a ≤ x ∧ x < a + bs.length then bs.getD (x - a) Config.erased else readByte m x := by
  induction bs generalizing m a with
  | nil =>
    have : ¬(a ≤ x ∧ x < a) := by omega
    simp [writeBytes, this]
  | cons b bs ih =>
    rw [writeBytes, ih, readByte_writeByte]
    by_cases hx : x = a
    · subst hx
      simp
    · by_cases h : a + 1 ≤ x ∧ x < a + 1 + bs.length
      · have h' : a ≤ x ∧ x < a + (b :: bs).length := by simp; omega
        have e : x - a = (x - (a + 1)) + 1 := by omega
        simp only [h, h', and_self, if_true, e, List.getD_cons_succ]
      · have h' : ¬(a ≤ x ∧ x < a + (b :: bs).length) := by simp; omega
        simp only [h, h', if_false, hx]

theorem readByte_fillBytes (m : Memory) (a n : Nat) (f : Nat → Byte) (x : Nat) :
    readByte (fillBytes m a n f) x = if a ≤ x ∧ x < a + n then f x else readByte m x := by
  induction n with
  | zero =>
    have : ¬(a ≤ x ∧ x < a + 0) := by omega
    rw [fillBytes, if_neg this]
  | succ n ih =>
    rw [fillBytes, readByte_writeByte, ih]
    by_cases hx : x = a + n
    · subst hx
      simp
    · by_cases h : a ≤ x ∧ x < a + n
      · have h' : a ≤ x ∧ x < a + (n + 1) := by omega
        simp [h, h', hx]
      · have h' : ¬(a ≤ x ∧ x < a + (n + 1)) := by omega
        simp [h, h', hx]

theorem readByte_eraseRegion (m : Memory) (r : Config.Region) (x : Nat) :
    readByte (eraseRegion m r) x = if r.contains x then Config.erased else readByte m x := by
  rw [eraseRegion, readByte_filter m (fun k => !r.contains k)]
  by_cases h : r.contains x = true <;> simp [h]

@[simp] theorem length_readBytes (m : Memory) (a n : Nat) : (readBytes m a n).length = n := by simp [readBytes]

theorem getD_readBytes (m : Memory) (a n i : Nat) (hi : i < n) (d : Byte) :
    (readBytes m a n).getD i d = readByte m (a + i) := by
  simp [readBytes, List.getD, hi]

/-- Reading depends only on the bytes read. -/
theorem readBytes_congr {m m' : Memory} {a n : Nat} (h : ∀ i, i < n → readByte m' (a + i) = readByte m (a + i)) :
    readBytes m' a n = readBytes m a n := by
  unfold readBytes
  apply List.map_congr_left
  intro i hi
  exact h i (List.mem_range.1 hi)

/-! The canonical form. -/

theorem memoryWf_iff (m : Memory) :
    memoryWf m = true ↔ m.Pairwise (fun x y => x.1 < y.1) ∧ ∀ x ∈ m, x.2 ≠ Config.erased := by
  simp [memoryWf]

@[simp] theorem memoryWf_nil : memoryWf [] = true := rfl

theorem memoryWf_filter {m : Memory} (h : memoryWf m = true) (q : Host.Cell → Bool) :
    memoryWf (m.filter q) = true := by
  rw [memoryWf_iff] at *
  exact ⟨h.1.filter _, fun x hx => h.2 x (List.mem_filter.1 hx).1⟩

theorem memoryWf_dropCell {m : Memory} (h : memoryWf m = true) (a : Nat) : memoryWf (dropCell m a) = true :=
  memoryWf_filter h _

theorem memoryWf_eraseRegion {m : Memory} (h : memoryWf m = true) (r : Config.Region) :
    memoryWf (eraseRegion m r) = true :=
  memoryWf_filter h _

theorem mem_insertCell {m : Memory} {a : Nat} {b : Byte} {y : Host.Cell} (hy : y ∈ insertCell m a b) :
    y = (a, b) ∨ y ∈ m := by
  induction m with
  | nil => simpa [insertCell] using hy
  | cons z m ih =>
    obtain ⟨k, v⟩ := z
    unfold insertCell at hy
    split at hy
    · simpa using hy
    · rcases List.mem_cons.1 hy with rfl | hy
      · simp
      · rcases ih hy with h | h
        · exact .inl h
        · exact .inr (by simp [h])

theorem memoryWf_insertCell {m : Memory} {a : Nat} {b : Byte} (h : memoryWf m = true) (hm : ∀ y ∈ m, y.1 ≠ a)
    (hb : b ≠ Config.erased) : memoryWf (insertCell m a b) = true := by
  rw [memoryWf_iff] at h ⊢
  refine ⟨?_, fun x hx => ?_⟩
  · obtain ⟨hs, -⟩ := h
    induction m with
    | nil => simp [insertCell]
    | cons z m ih =>
      obtain ⟨k, v⟩ := z
      have hk : k ≠ a := hm (k, v) (by simp)
      rw [List.pairwise_cons] at hs
      unfold insertCell
      split
      · rename_i hlt
        refine List.pairwise_cons.2 ⟨fun y hy => ?_, List.pairwise_cons.2 hs⟩
        rcases List.mem_cons.1 hy with rfl | hy
        · exact hlt
        · exact Nat.lt_trans hlt (hs.1 y hy)
      · rename_i hge
        refine List.pairwise_cons.2 ⟨fun y hy => ?_, ih (fun y hy => hm y (by simp [hy])) hs.2⟩
        rcases mem_insertCell hy with rfl | hy
        · show k < a
          omega
        · exact hs.1 y hy
  · rcases mem_insertCell hx with rfl | hx
    · exact hb
    · exact h.2 x hx

/-- Writing a byte keeps the canonical form. -/
theorem memoryWf_writeByte {m : Memory} (h : memoryWf m = true) (a : Nat) (b : Byte) :
    memoryWf (writeByte m a b) = true := by
  unfold writeByte
  split
  · exact memoryWf_dropCell h a
  · rename_i hb
    exact memoryWf_insertCell (memoryWf_dropCell h a) (dropCell_ne m a) hb

theorem memoryWf_writeBytes {m : Memory} (h : memoryWf m = true) (a : Nat) (bs : List Byte) :
    memoryWf (writeBytes m a bs) = true := by
  induction bs generalizing m a with
  | nil => exact h
  | cons b bs ih => exact ih (memoryWf_writeByte h a b) (a + 1)

theorem memoryWf_fillBytes {m : Memory} (h : memoryWf m = true) (a n : Nat) (f : Nat → Byte) :
    memoryWf (fillBytes m a n f) = true := by
  induction n with
  | zero => exact h
  | succ n ih => exact memoryWf_writeByte ih _ _

/-! Which addresses are listed. -/

theorem mem_writeByte {m : Memory} {a : Nat} {b : Byte} {y : Host.Cell} (hy : y ∈ writeByte m a b) :
    y.1 = a ∨ y ∈ m := by
  unfold writeByte at hy
  split at hy
  · exact .inr (List.mem_filter.1 hy).1
  · rcases mem_insertCell hy with rfl | hy
    · exact .inl rfl
    · exact .inr (List.mem_filter.1 hy).1

theorem mem_fillBytes {m : Memory} {a n : Nat} {f : Nat → Byte} {y : Host.Cell} (hy : y ∈ fillBytes m a n f) :
    (a ≤ y.1 ∧ y.1 < a + n) ∨ y ∈ m := by
  induction n with
  | zero => exact .inr hy
  | succ n ih =>
    rcases mem_writeByte hy with h | h
    · exact .inl (by omega)
    · rcases ih h with h | h
      · exact .inl (by omega)
      · exact .inr h

end Sys2Proof.Machine
end

