-- ==== Sys2Proof/Laws/Operands.lean ====
section
/-! SUPPORT. The laws of the operand forms: lanes of a word, assembled words, the cells of a write, and what the
controller primitives leave in NVM, byte by byte. -/

namespace Sys2Proof.Machine

theorem toNat_laneOf (w : Word) (k : Nat) : (laneOf w k).toNat = w.toNat / 2 ^ (8 * k) % 256 := by
  simp [laneOf, Nat.shiftRight_eq_div_pow]

/-- The little-endian sum of spec 20 R63 and 42 R186; it never wraps. -/
theorem toNat_wordOfLanes (l0 l1 l2 l3 : Byte) :
    (wordOfLanes l0 l1 l2 l3).toNat = l0.toNat + 256 * l1.toNat + 65536 * l2.toNat + 16777216 * l3.toNat := by
  have h0 := l0.isLt
  have h1 := l1.isLt
  have h2 := l2.isLt
  have h3 := l3.isLt
  simp only [wordOfLanes, BitVec.toNat_ofNat]
  omega

@[simp] theorem laneOf_wordOfLanes_zero (l0 l1 l2 l3 : Byte) : laneOf (wordOfLanes l0 l1 l2 l3) 0 = l0 := by
  have h0 := l0.isLt
  have h1 := l1.isLt
  have h2 := l2.isLt
  have h3 := l3.isLt
  apply BitVec.eq_of_toNat_eq
  rw [toNat_laneOf, toNat_wordOfLanes]
  omega

@[simp] theorem laneOf_wordOfLanes_one (l0 l1 l2 l3 : Byte) : laneOf (wordOfLanes l0 l1 l2 l3) 1 = l1 := by
  have h0 := l0.isLt
  have h1 := l1.isLt
  have h2 := l2.isLt
  have h3 := l3.isLt
  apply BitVec.eq_of_toNat_eq
  rw [toNat_laneOf, toNat_wordOfLanes]
  omega

@[simp] theorem laneOf_wordOfLanes_two (l0 l1 l2 l3 : Byte) : laneOf (wordOfLanes l0 l1 l2 l3) 2 = l2 := by
  have h0 := l0.isLt
  have h1 := l1.isLt
  have h2 := l2.isLt
  have h3 := l3.isLt
  apply BitVec.eq_of_toNat_eq
  rw [toNat_laneOf, toNat_wordOfLanes]
  omega

@[simp] theorem laneOf_wordOfLanes_three (l0 l1 l2 l3 : Byte) : laneOf (wordOfLanes l0 l1 l2 l3) 3 = l3 := by
  have h0 := l0.isLt
  have h1 := l1.isLt
  have h2 := l2.isLt
  have h3 := l3.isLt
  apply BitVec.eq_of_toNat_eq
  rw [toNat_laneOf, toNat_wordOfLanes]
  omega

/-- A word is its four lanes. -/
theorem wordOfLanes_laneOf (w : Word) : wordOfLanes (laneOf w 0) (laneOf w 1) (laneOf w 2) (laneOf w 3) = w := by
  have h := w.isLt
  apply BitVec.eq_of_toNat_eq
  simp only [toNat_wordOfLanes, toNat_laneOf]
  omega

/-- Two words with the same four lanes are equal. -/
theorem word_ext_lanes {v w : Word} (h : ∀ k, k < 4 → laneOf v k = laneOf w k) : v = w := by
  rw [← wordOfLanes_laneOf v, ← wordOfLanes_laneOf w, h 0 (by decide), h 1 (by decide), h 2 (by decide),
    h 3 (by decide)]

/-- What a lane of a programmed word leaves at its address (spec 42 R185), as one function of the old byte. -/
def laneResult (c : Config.Env) (n a : Nat) (d old : Byte) : Byte :=
  if c.params.inNvm a = false then old
  else if c.nvmFail n then c.anyByte n a
  else if d = Config.erased then old
  else if old = Config.erased then d
  else c.anyByte n a

theorem readByte_programLane (c : Config.Env) (n : Nat) (m : Memory) (a : Nat) (d : Byte) (x : Nat) :
    readByte (programLane c n m a d) x = if x = a then laneResult c n a d (readByte m a) else readByte m x := by
  unfold programLane laneResult
  by_cases hx : x = a
  · subst hx
    rw [if_pos rfl]
    split_ifs <;> simp
  · rw [if_neg hx]
    split_ifs <;> simp [hx, readByte_writeByte]

/-- Inside the cell the lane's result, outside it the old byte (spec 42 R185). -/
theorem readByte_programmedNvm (c : Config.Env) (n a : Nat) (w : Word) (m : Memory) (x : Nat) :
    readByte (programmedNvm c n a w m) x =
      if a ≤ x ∧ x < a + 4 then laneResult c n x (laneOf w (x - a)) (readByte m x) else readByte m x := by
  unfold programmedNvm
  simp only [readByte_programLane]
  by_cases h : a ≤ x ∧ x < a + 4
  · obtain rfl | rfl | rfl | rfl : x = a ∨ x = a + 1 ∨ x = a + 2 ∨ x = a + 3 := by omega
    all_goals simp
  · have h0 : x ≠ a := by omega
    have h1 : x ≠ a + 1 := by omega
    have h2 : x ≠ a + 2 := by omega
    have h3 : x ≠ a + 3 := by omega
    simp [h, h0, h1, h2, h3]

theorem readByte_erasedNvm (c : Config.Env) (n : Nat) (r : Config.Region) (m : Memory) (x : Nat) :
    readByte (erasedNvm c n r m) x =
      if r.contains x then (if c.nvmFail n then c.anyByte n x else Config.erased) else readByte m x := by
  unfold erasedNvm
  split
  · rename_i h
    rw [readByte_fillBytes]
    by_cases hx : r.contains x = true
    · rw [if_pos ((Config.Region.mem_iff r x).1 hx)]
      simp [hx]
    · rw [if_neg (fun h => hx ((Config.Region.mem_iff r x).2 h))]
      simp [hx]
  · rw [readByte_eraseRegion]

theorem memoryWf_erasedNvm {m : Memory} (h : memoryWf m = true) (c : Config.Env) (n : Nat) (r : Config.Region) :
    memoryWf (erasedNvm c n r m) = true := by
  unfold erasedNvm
  split
  · exact memoryWf_fillBytes h _ _ _
  · exact memoryWf_eraseRegion h r

theorem memoryWf_programLane {m : Memory} (h : memoryWf m = true) (c : Config.Env) (n a : Nat) (d : Byte) :
    memoryWf (programLane c n m a d) = true := by
  unfold programLane
  split
  · exact h
  · split
    · exact memoryWf_writeByte h _ _
    · split
      · exact h
      · split <;> exact memoryWf_writeByte h _ _

theorem memoryWf_programmedNvm {m : Memory} (h : memoryWf m = true) (c : Config.Env) (n a : Nat) (w : Word) :
    memoryWf (programmedNvm c n a w m) = true :=
  memoryWf_programLane (memoryWf_programLane (memoryWf_programLane (memoryWf_programLane h _ _ _ _) _ _ _ _) _ _ _ _)
    _ _ _ _

/-- When a program operation may add flags: some lane of it is memory, and fails or overprograms (42 R185; D15). -/
theorem programMayFlag_iff {c : Config.Env} {n a : Nat} {w : Word} {m : Memory} :
    programMayFlag c n a w m = true ↔ ∃ k, k < 4 ∧ laneMayFlag c n m (a + k) (laneOf w k) = true := by
  simp only [programMayFlag, Bool.or_eq_true]
  constructor
  · rintro (((h | h) | h) | h)
    · exact ⟨0, by omega, h⟩
    · exact ⟨1, by omega, h⟩
    · exact ⟨2, by omega, h⟩
    · exact ⟨3, by omega, h⟩
  · rintro ⟨k, hk, h⟩
    obtain rfl | rfl | rfl | rfl : k = 0 ∨ k = 1 ∨ k = 2 ∨ k = 3 := by omega
    · exact .inl (.inl (.inl h))
    · exact .inl (.inl (.inr h))
    · exact .inl (.inr h)
    · exact .inr h

/-- Where there is no memory no flag is added. -/
theorem laneMayFlag_outside {c : Config.Env} {n : Nat} {m : Memory} {a : Nat} {d : Byte}
    (h : c.params.inNvm a = false) : laneMayFlag c n m a d = false := by
  simp [laneMayFlag, laneUndefined, h]

/-- An operation that does not fail adds flags only where it overprograms. -/
theorem laneMayFlag_of_not_fail {c : Config.Env} {n : Nat} {m : Memory} {a : Nat} {d : Byte} (h : c.nvmFail n = false) :
    laneMayFlag c n m a d = laneUndefined c m a d := by
  simp [laneMayFlag, h]

/-- Programming a cell where there is no memory changes no state, whatever the word and the failure are (42 R185, R193;
D15); the draw it takes is counted. -/
theorem nvmProgramWord_outside {c : Config.Env} {a : Word} (w : Word) (s : State)
    (h : ∀ k, k < 4 → c.params.inNvm (a.toNat + k) = false) :
    nvmProgramWord c a w s = { s with draws := s.draws + 1 } := by
  have hf : programMayFlag c s.draws a.toNat w s.nvm = false := by
    by_contra hc
    obtain ⟨k, hk, hm⟩ := programMayFlag_iff.1 (by simpa using hc)
    rw [laneMayFlag_outside (h k hk)] at hm
    cases hm
  have h0 : c.params.inNvm a.toNat = false := h 0 (by omega)
  have hm : programmedNvm c s.draws a.toNat w s.nvm = s.nvm := by
    simp only [programmedNvm, programLane, h0, h 1 (by omega), h 2 (by omega), h 3 (by omega), if_true]
  simp only [nvmProgramWord, hf, hm, Bool.and_false, Bool.false_eq_true, if_false, ite_self]

/-- A lane lists its own address at most, and only where there is memory. -/
theorem mem_programLane {c : Config.Env} {n : Nat} {m : Memory} {a : Nat} {d : Byte} {y : Host.Cell}
    (hy : y ∈ programLane c n m a d) : (y.1 = a ∧ c.params.inNvm a = true) ∨ y ∈ m := by
  unfold programLane at hy
  split at hy
  · exact .inr hy
  · rename_i hin
    have hin : c.params.inNvm a = true := by simpa using hin
    split at hy
    · exact (mem_writeByte hy).imp (fun h => ⟨h, hin⟩) id
    · split at hy
      · exact .inr hy
      · split at hy <;> exact (mem_writeByte hy).imp (fun h => ⟨h, hin⟩) id

theorem mem_programmedNvm {c : Config.Env} {n a : Nat} {w : Word} {m : Memory} {y : Host.Cell}
    (hy : y ∈ programmedNvm c n a w m) : c.params.inNvm y.1 = true ∨ y ∈ m := by
  have key : ∀ {m' : Memory} {b : Nat} {d : Byte}, y ∈ programLane c n m' b d → c.params.inNvm y.1 = true ∨ y ∈ m' := by
    intro m' b d h
    rcases mem_programLane h with ⟨h, h'⟩ | h
    · exact .inl (h ▸ h')
    · exact .inr h
  rcases key hy with h | h
  · exact .inl h
  rcases key h with h | h
  · exact .inl h
  rcases key h with h | h
  · exact .inl h
  exact key h

theorem mem_erasedNvm {c : Config.Env} {n : Nat} {r : Config.Region} {m : Memory} {y : Host.Cell}
    (hy : y ∈ erasedNvm c n r m) : r.contains y.1 = true ∨ y ∈ m := by
  unfold erasedNvm at hy
  split at hy
  · exact (mem_fillBytes hy).imp (fun h => (Config.Region.mem_iff r y.1).2 h) id
  · exact .inr (List.mem_filter.1 hy).1

/-! The cells of a write. -/

/-- Some cell of a write holds every address of its range, and its lane there is the source byte (spec 42 R189). -/
theorem firstCell_le (addr : Nat) : firstCell addr ≤ addr := Nat.sub_le _ _

theorem firstCell_mod (addr : Nat) : firstCell addr % 4 = 0 := by
  unfold firstCell
  omega

theorem mem_cellsOf {addr len cell : Nat} :
    cell ∈ cellsOf addr len ↔ ∃ i, i < cellCount addr len ∧ cell = firstCell addr + 4 * i := by
  simp [cellsOf, eq_comm]

/-- The end of the last cell of a nonempty write. -/
theorem cellCount_pos {addr len : Nat} (h : 0 < len) :
    firstCell addr + 4 * (cellCount addr len - 1) ≤ addr + len - 1 ∧
      addr + len ≤ firstCell addr + 4 * cellCount addr len ∧ 0 < cellCount addr len := by
  have hne : len ≠ 0 := by omega
  simp only [cellCount, hne, if_false, firstCell]
  omega

/-- An address of the range lies in a cell of the write. -/
theorem exists_cellsOf {addr len a : Nat} (h1 : addr ≤ a) (h2 : a < addr + len) :
    ∃ cell ∈ cellsOf addr len, cell ≤ a ∧ a < cell + 4 := by
  have hlen : 0 < len := by omega
  obtain ⟨-, h4, h5⟩ := cellCount_pos (addr := addr) hlen
  have h6 := firstCell_le addr
  refine ⟨firstCell addr + 4 * ((a - firstCell addr) / 4), mem_cellsOf.2 ⟨_, ?_, rfl⟩, ?_, ?_⟩ <;> omega

/-- A cell of a write that does not pass the top of the address space is a 32-bit address, aligned. -/
theorem cellsOf_top {addr len cell : Nat} (h : addr + len ≤ 2 ^ 32) (hc : cell ∈ cellsOf addr len) :
    cell < 2 ^ 32 ∧ cell % 4 = 0 := by
  obtain ⟨i, hi, rfl⟩ := mem_cellsOf.1 hc
  have hf := firstCell_mod addr
  by_cases hlen : 0 < len
  · obtain ⟨h3, -, -⟩ := cellCount_pos (addr := addr) hlen
    constructor <;> omega
  · have : len = 0 := by omega
    simp [cellCount, this] at hi

@[simp] theorem length_cellsOf (addr len : Nat) : (cellsOf addr len).length = cellCount addr len := by
  simp [cellsOf]

/-- The cells of a write do not overlap. -/
theorem cellsOf_pairwise (addr len : Nat) : (cellsOf addr len).Pairwise fun x y => x + 4 ≤ y := by
  unfold cellsOf
  rw [List.pairwise_map]
  exact List.pairwise_lt_range.imp fun h => by omega

/-- Every lane of an assembled word is the source byte of its address (spec 42 R189). -/
theorem laneOf_assemble_eq_sourceByte (cell addr : Nat) (data : List Byte) {x : Nat} (h1 : cell ≤ x) (h2 : x < cell + 4) :
    laneOf (assembleWord cell addr data) (x - cell) = sourceByte addr data x := by
  obtain rfl | rfl | rfl | rfl : x = cell ∨ x = cell + 1 ∨ x = cell + 2 ∨ x = cell + 3 := by omega
  all_goals simp [assembleWord]

theorem writePastTop_iff (addr : Word) (data : List Byte) :
    writePastTop addr data = true ↔ 2 ^ 32 < addr.toNat + data.length := by
  cases data with
  | nil =>
    have := addr.isLt
    simp only [writePastTop, List.length_nil]
    constructor
    · intro h; simp at h
    · intro h; omega
  | cons b bs => simp [writePastTop]

end Sys2Proof.Machine
end

