-- ==== Sys2Proof/Laws/State.lean ====
section
/-! SUPPORT. One lemma per field of State per shared operation, each true by definition: no later proof unfolds a
record update. -/

namespace Sys2Proof.Machine

/-! `setPhase` -/

@[simp] theorem setPhase_rxbuf (v : Phase) (s : State) : (setPhase v s).rxbuf = s.rxbuf := rfl
@[simp] theorem setPhase_rxlen (v : Phase) (s : State) : (setPhase v s).rxlen = s.rxlen := rfl
@[simp] theorem setPhase_dstate (v : Phase) (s : State) : (setPhase v s).dstate = s.dstate := rfl
@[simp] theorem setPhase_cursor (v : Phase) (s : State) : (setPhase v s).cursor = s.cursor := rfl
@[simp] theorem setPhase_lstate (v : Phase) (s : State) : (setPhase v s).lstate = s.lstate := rfl
@[simp] theorem setPhase_eph (v : Phase) (s : State) : (setPhase v s).eph = v := rfl
@[simp] theorem setPhase_nvm (v : Phase) (s : State) : (setPhase v s).nvm = s.nvm := rfl
@[simp] theorem setPhase_nvmLock (v : Phase) (s : State) : (setPhase v s).nvmLock = s.nvmLock := rfl
@[simp] theorem setPhase_nvmFlags (v : Phase) (s : State) : (setPhase v s).nvmFlags = s.nvmFlags := rfl
@[simp] theorem setPhase_cpuMsp (v : Phase) (s : State) : (setPhase v s).cpuMsp = s.cpuMsp := rfl
@[simp] theorem setPhase_cpuPc (v : Phase) (s : State) : (setPhase v s).cpuPc = s.cpuPc := rfl
@[simp] theorem setPhase_cpuImask (v : Phase) (s : State) : (setPhase v s).cpuImask = s.cpuImask := rfl
@[simp] theorem setPhase_cpuVtbase (v : Phase) (s : State) : (setPhase v s).cpuVtbase = s.cpuVtbase := rfl
@[simp] theorem setPhase_tmrEn (v : Phase) (s : State) : (setPhase v s).tmrEn = s.tmrEn := rfl
@[simp] theorem setPhase_tmrCnt (v : Phase) (s : State) : (setPhase v s).tmrCnt = s.tmrCnt := rfl
@[simp] theorem setPhase_wire (v : Phase) (s : State) : (setPhase v s).wire = s.wire := rfl
@[simp] theorem setPhase_tx (v : Phase) (s : State) : (setPhase v s).tx = s.tx := rfl
@[simp] theorem setPhase_sched (v : Phase) (s : State) : (setPhase v s).sched = s.sched := rfl
@[simp] theorem setPhase_draws (v : Phase) (s : State) : (setPhase v s).draws = s.draws := rfl
@[simp] theorem setPhase_ticks (v : Phase) (s : State) : (setPhase v s).ticks = s.ticks := rfl

/-! `setSched` -/

@[simp] theorem setSched_rxbuf (v : List Turn) (s : State) : (setSched v s).rxbuf = s.rxbuf := rfl
@[simp] theorem setSched_rxlen (v : List Turn) (s : State) : (setSched v s).rxlen = s.rxlen := rfl
@[simp] theorem setSched_dstate (v : List Turn) (s : State) : (setSched v s).dstate = s.dstate := rfl
@[simp] theorem setSched_cursor (v : List Turn) (s : State) : (setSched v s).cursor = s.cursor := rfl
@[simp] theorem setSched_lstate (v : List Turn) (s : State) : (setSched v s).lstate = s.lstate := rfl
@[simp] theorem setSched_eph (v : List Turn) (s : State) : (setSched v s).eph = s.eph := rfl
@[simp] theorem setSched_nvm (v : List Turn) (s : State) : (setSched v s).nvm = s.nvm := rfl
@[simp] theorem setSched_nvmLock (v : List Turn) (s : State) : (setSched v s).nvmLock = s.nvmLock := rfl
@[simp] theorem setSched_nvmFlags (v : List Turn) (s : State) : (setSched v s).nvmFlags = s.nvmFlags := rfl
@[simp] theorem setSched_cpuMsp (v : List Turn) (s : State) : (setSched v s).cpuMsp = s.cpuMsp := rfl
@[simp] theorem setSched_cpuPc (v : List Turn) (s : State) : (setSched v s).cpuPc = s.cpuPc := rfl
@[simp] theorem setSched_cpuImask (v : List Turn) (s : State) : (setSched v s).cpuImask = s.cpuImask := rfl
@[simp] theorem setSched_cpuVtbase (v : List Turn) (s : State) : (setSched v s).cpuVtbase = s.cpuVtbase := rfl
@[simp] theorem setSched_tmrEn (v : List Turn) (s : State) : (setSched v s).tmrEn = s.tmrEn := rfl
@[simp] theorem setSched_tmrCnt (v : List Turn) (s : State) : (setSched v s).tmrCnt = s.tmrCnt := rfl
@[simp] theorem setSched_wire (v : List Turn) (s : State) : (setSched v s).wire = s.wire := rfl
@[simp] theorem setSched_tx (v : List Turn) (s : State) : (setSched v s).tx = s.tx := rfl
@[simp] theorem setSched_sched (v : List Turn) (s : State) : (setSched v s).sched = v := rfl
@[simp] theorem setSched_draws (v : List Turn) (s : State) : (setSched v s).draws = s.draws := rfl
@[simp] theorem setSched_ticks (v : List Turn) (s : State) : (setSched v s).ticks = s.ticks := rfl

/-! `setCursor` -/

@[simp] theorem setCursor_rxbuf (v : Word) (s : State) : (setCursor v s).rxbuf = s.rxbuf := rfl
@[simp] theorem setCursor_rxlen (v : Word) (s : State) : (setCursor v s).rxlen = s.rxlen := rfl
@[simp] theorem setCursor_dstate (v : Word) (s : State) : (setCursor v s).dstate = s.dstate := rfl
@[simp] theorem setCursor_cursor (v : Word) (s : State) : (setCursor v s).cursor = v := rfl
@[simp] theorem setCursor_lstate (v : Word) (s : State) : (setCursor v s).lstate = s.lstate := rfl
@[simp] theorem setCursor_eph (v : Word) (s : State) : (setCursor v s).eph = s.eph := rfl
@[simp] theorem setCursor_nvm (v : Word) (s : State) : (setCursor v s).nvm = s.nvm := rfl
@[simp] theorem setCursor_nvmLock (v : Word) (s : State) : (setCursor v s).nvmLock = s.nvmLock := rfl
@[simp] theorem setCursor_nvmFlags (v : Word) (s : State) : (setCursor v s).nvmFlags = s.nvmFlags := rfl
@[simp] theorem setCursor_cpuMsp (v : Word) (s : State) : (setCursor v s).cpuMsp = s.cpuMsp := rfl
@[simp] theorem setCursor_cpuPc (v : Word) (s : State) : (setCursor v s).cpuPc = s.cpuPc := rfl
@[simp] theorem setCursor_cpuImask (v : Word) (s : State) : (setCursor v s).cpuImask = s.cpuImask := rfl
@[simp] theorem setCursor_cpuVtbase (v : Word) (s : State) : (setCursor v s).cpuVtbase = s.cpuVtbase := rfl
@[simp] theorem setCursor_tmrEn (v : Word) (s : State) : (setCursor v s).tmrEn = s.tmrEn := rfl
@[simp] theorem setCursor_tmrCnt (v : Word) (s : State) : (setCursor v s).tmrCnt = s.tmrCnt := rfl
@[simp] theorem setCursor_wire (v : Word) (s : State) : (setCursor v s).wire = s.wire := rfl
@[simp] theorem setCursor_tx (v : Word) (s : State) : (setCursor v s).tx = s.tx := rfl
@[simp] theorem setCursor_sched (v : Word) (s : State) : (setCursor v s).sched = s.sched := rfl
@[simp] theorem setCursor_draws (v : Word) (s : State) : (setCursor v s).draws = s.draws := rfl
@[simp] theorem setCursor_ticks (v : Word) (s : State) : (setCursor v s).ticks = s.ticks := rfl

/-! `setDstate` -/

@[simp] theorem setDstate_rxbuf (v : DState) (s : State) : (setDstate v s).rxbuf = s.rxbuf := rfl
@[simp] theorem setDstate_rxlen (v : DState) (s : State) : (setDstate v s).rxlen = s.rxlen := rfl
@[simp] theorem setDstate_dstate (v : DState) (s : State) : (setDstate v s).dstate = v := rfl
@[simp] theorem setDstate_cursor (v : DState) (s : State) : (setDstate v s).cursor = s.cursor := rfl
@[simp] theorem setDstate_lstate (v : DState) (s : State) : (setDstate v s).lstate = s.lstate := rfl
@[simp] theorem setDstate_eph (v : DState) (s : State) : (setDstate v s).eph = s.eph := rfl
@[simp] theorem setDstate_nvm (v : DState) (s : State) : (setDstate v s).nvm = s.nvm := rfl
@[simp] theorem setDstate_nvmLock (v : DState) (s : State) : (setDstate v s).nvmLock = s.nvmLock := rfl
@[simp] theorem setDstate_nvmFlags (v : DState) (s : State) : (setDstate v s).nvmFlags = s.nvmFlags := rfl
@[simp] theorem setDstate_cpuMsp (v : DState) (s : State) : (setDstate v s).cpuMsp = s.cpuMsp := rfl
@[simp] theorem setDstate_cpuPc (v : DState) (s : State) : (setDstate v s).cpuPc = s.cpuPc := rfl
@[simp] theorem setDstate_cpuImask (v : DState) (s : State) : (setDstate v s).cpuImask = s.cpuImask := rfl
@[simp] theorem setDstate_cpuVtbase (v : DState) (s : State) : (setDstate v s).cpuVtbase = s.cpuVtbase := rfl
@[simp] theorem setDstate_tmrEn (v : DState) (s : State) : (setDstate v s).tmrEn = s.tmrEn := rfl
@[simp] theorem setDstate_tmrCnt (v : DState) (s : State) : (setDstate v s).tmrCnt = s.tmrCnt := rfl
@[simp] theorem setDstate_wire (v : DState) (s : State) : (setDstate v s).wire = s.wire := rfl
@[simp] theorem setDstate_tx (v : DState) (s : State) : (setDstate v s).tx = s.tx := rfl
@[simp] theorem setDstate_sched (v : DState) (s : State) : (setDstate v s).sched = s.sched := rfl
@[simp] theorem setDstate_draws (v : DState) (s : State) : (setDstate v s).draws = s.draws := rfl
@[simp] theorem setDstate_ticks (v : DState) (s : State) : (setDstate v s).ticks = s.ticks := rfl

/-! `setLstate` -/

@[simp] theorem setLstate_rxbuf (v : LState) (s : State) : (setLstate v s).rxbuf = s.rxbuf := rfl
@[simp] theorem setLstate_rxlen (v : LState) (s : State) : (setLstate v s).rxlen = s.rxlen := rfl
@[simp] theorem setLstate_dstate (v : LState) (s : State) : (setLstate v s).dstate = s.dstate := rfl
@[simp] theorem setLstate_cursor (v : LState) (s : State) : (setLstate v s).cursor = s.cursor := rfl
@[simp] theorem setLstate_lstate (v : LState) (s : State) : (setLstate v s).lstate = v := rfl
@[simp] theorem setLstate_eph (v : LState) (s : State) : (setLstate v s).eph = s.eph := rfl
@[simp] theorem setLstate_nvm (v : LState) (s : State) : (setLstate v s).nvm = s.nvm := rfl
@[simp] theorem setLstate_nvmLock (v : LState) (s : State) : (setLstate v s).nvmLock = s.nvmLock := rfl
@[simp] theorem setLstate_nvmFlags (v : LState) (s : State) : (setLstate v s).nvmFlags = s.nvmFlags := rfl
@[simp] theorem setLstate_cpuMsp (v : LState) (s : State) : (setLstate v s).cpuMsp = s.cpuMsp := rfl
@[simp] theorem setLstate_cpuPc (v : LState) (s : State) : (setLstate v s).cpuPc = s.cpuPc := rfl
@[simp] theorem setLstate_cpuImask (v : LState) (s : State) : (setLstate v s).cpuImask = s.cpuImask := rfl
@[simp] theorem setLstate_cpuVtbase (v : LState) (s : State) : (setLstate v s).cpuVtbase = s.cpuVtbase := rfl
@[simp] theorem setLstate_tmrEn (v : LState) (s : State) : (setLstate v s).tmrEn = s.tmrEn := rfl
@[simp] theorem setLstate_tmrCnt (v : LState) (s : State) : (setLstate v s).tmrCnt = s.tmrCnt := rfl
@[simp] theorem setLstate_wire (v : LState) (s : State) : (setLstate v s).wire = s.wire := rfl
@[simp] theorem setLstate_tx (v : LState) (s : State) : (setLstate v s).tx = s.tx := rfl
@[simp] theorem setLstate_sched (v : LState) (s : State) : (setLstate v s).sched = s.sched := rfl
@[simp] theorem setLstate_draws (v : LState) (s : State) : (setLstate v s).draws = s.draws := rfl
@[simp] theorem setLstate_ticks (v : LState) (s : State) : (setLstate v s).ticks = s.ticks := rfl

/-! `setVtbase` -/

@[simp] theorem setVtbase_rxbuf (v : Word) (s : State) : (setVtbase v s).rxbuf = s.rxbuf := rfl
@[simp] theorem setVtbase_rxlen (v : Word) (s : State) : (setVtbase v s).rxlen = s.rxlen := rfl
@[simp] theorem setVtbase_dstate (v : Word) (s : State) : (setVtbase v s).dstate = s.dstate := rfl
@[simp] theorem setVtbase_cursor (v : Word) (s : State) : (setVtbase v s).cursor = s.cursor := rfl
@[simp] theorem setVtbase_lstate (v : Word) (s : State) : (setVtbase v s).lstate = s.lstate := rfl
@[simp] theorem setVtbase_eph (v : Word) (s : State) : (setVtbase v s).eph = s.eph := rfl
@[simp] theorem setVtbase_nvm (v : Word) (s : State) : (setVtbase v s).nvm = s.nvm := rfl
@[simp] theorem setVtbase_nvmLock (v : Word) (s : State) : (setVtbase v s).nvmLock = s.nvmLock := rfl
@[simp] theorem setVtbase_nvmFlags (v : Word) (s : State) : (setVtbase v s).nvmFlags = s.nvmFlags := rfl
@[simp] theorem setVtbase_cpuMsp (v : Word) (s : State) : (setVtbase v s).cpuMsp = s.cpuMsp := rfl
@[simp] theorem setVtbase_cpuPc (v : Word) (s : State) : (setVtbase v s).cpuPc = s.cpuPc := rfl
@[simp] theorem setVtbase_cpuImask (v : Word) (s : State) : (setVtbase v s).cpuImask = s.cpuImask := rfl
@[simp] theorem setVtbase_cpuVtbase (v : Word) (s : State) : (setVtbase v s).cpuVtbase = v := rfl
@[simp] theorem setVtbase_tmrEn (v : Word) (s : State) : (setVtbase v s).tmrEn = s.tmrEn := rfl
@[simp] theorem setVtbase_tmrCnt (v : Word) (s : State) : (setVtbase v s).tmrCnt = s.tmrCnt := rfl
@[simp] theorem setVtbase_wire (v : Word) (s : State) : (setVtbase v s).wire = s.wire := rfl
@[simp] theorem setVtbase_tx (v : Word) (s : State) : (setVtbase v s).tx = s.tx := rfl
@[simp] theorem setVtbase_sched (v : Word) (s : State) : (setVtbase v s).sched = s.sched := rfl
@[simp] theorem setVtbase_draws (v : Word) (s : State) : (setVtbase v s).draws = s.draws := rfl
@[simp] theorem setVtbase_ticks (v : Word) (s : State) : (setVtbase v s).ticks = s.ticks := rfl

/-! `setMsp` -/

@[simp] theorem setMsp_rxbuf (v : Word) (s : State) : (setMsp v s).rxbuf = s.rxbuf := rfl
@[simp] theorem setMsp_rxlen (v : Word) (s : State) : (setMsp v s).rxlen = s.rxlen := rfl
@[simp] theorem setMsp_dstate (v : Word) (s : State) : (setMsp v s).dstate = s.dstate := rfl
@[simp] theorem setMsp_cursor (v : Word) (s : State) : (setMsp v s).cursor = s.cursor := rfl
@[simp] theorem setMsp_lstate (v : Word) (s : State) : (setMsp v s).lstate = s.lstate := rfl
@[simp] theorem setMsp_eph (v : Word) (s : State) : (setMsp v s).eph = s.eph := rfl
@[simp] theorem setMsp_nvm (v : Word) (s : State) : (setMsp v s).nvm = s.nvm := rfl
@[simp] theorem setMsp_nvmLock (v : Word) (s : State) : (setMsp v s).nvmLock = s.nvmLock := rfl
@[simp] theorem setMsp_nvmFlags (v : Word) (s : State) : (setMsp v s).nvmFlags = s.nvmFlags := rfl
@[simp] theorem setMsp_cpuMsp (v : Word) (s : State) : (setMsp v s).cpuMsp = v := rfl
@[simp] theorem setMsp_cpuPc (v : Word) (s : State) : (setMsp v s).cpuPc = s.cpuPc := rfl
@[simp] theorem setMsp_cpuImask (v : Word) (s : State) : (setMsp v s).cpuImask = s.cpuImask := rfl
@[simp] theorem setMsp_cpuVtbase (v : Word) (s : State) : (setMsp v s).cpuVtbase = s.cpuVtbase := rfl
@[simp] theorem setMsp_tmrEn (v : Word) (s : State) : (setMsp v s).tmrEn = s.tmrEn := rfl
@[simp] theorem setMsp_tmrCnt (v : Word) (s : State) : (setMsp v s).tmrCnt = s.tmrCnt := rfl
@[simp] theorem setMsp_wire (v : Word) (s : State) : (setMsp v s).wire = s.wire := rfl
@[simp] theorem setMsp_tx (v : Word) (s : State) : (setMsp v s).tx = s.tx := rfl
@[simp] theorem setMsp_sched (v : Word) (s : State) : (setMsp v s).sched = s.sched := rfl
@[simp] theorem setMsp_draws (v : Word) (s : State) : (setMsp v s).draws = s.draws := rfl
@[simp] theorem setMsp_ticks (v : Word) (s : State) : (setMsp v s).ticks = s.ticks := rfl

/-! `setPc` -/

@[simp] theorem setPc_rxbuf (v : Word) (s : State) : (setPc v s).rxbuf = s.rxbuf := rfl
@[simp] theorem setPc_rxlen (v : Word) (s : State) : (setPc v s).rxlen = s.rxlen := rfl
@[simp] theorem setPc_dstate (v : Word) (s : State) : (setPc v s).dstate = s.dstate := rfl
@[simp] theorem setPc_cursor (v : Word) (s : State) : (setPc v s).cursor = s.cursor := rfl
@[simp] theorem setPc_lstate (v : Word) (s : State) : (setPc v s).lstate = s.lstate := rfl
@[simp] theorem setPc_eph (v : Word) (s : State) : (setPc v s).eph = s.eph := rfl
@[simp] theorem setPc_nvm (v : Word) (s : State) : (setPc v s).nvm = s.nvm := rfl
@[simp] theorem setPc_nvmLock (v : Word) (s : State) : (setPc v s).nvmLock = s.nvmLock := rfl
@[simp] theorem setPc_nvmFlags (v : Word) (s : State) : (setPc v s).nvmFlags = s.nvmFlags := rfl
@[simp] theorem setPc_cpuMsp (v : Word) (s : State) : (setPc v s).cpuMsp = s.cpuMsp := rfl
@[simp] theorem setPc_cpuPc (v : Word) (s : State) : (setPc v s).cpuPc = v := rfl
@[simp] theorem setPc_cpuImask (v : Word) (s : State) : (setPc v s).cpuImask = s.cpuImask := rfl
@[simp] theorem setPc_cpuVtbase (v : Word) (s : State) : (setPc v s).cpuVtbase = s.cpuVtbase := rfl
@[simp] theorem setPc_tmrEn (v : Word) (s : State) : (setPc v s).tmrEn = s.tmrEn := rfl
@[simp] theorem setPc_tmrCnt (v : Word) (s : State) : (setPc v s).tmrCnt = s.tmrCnt := rfl
@[simp] theorem setPc_wire (v : Word) (s : State) : (setPc v s).wire = s.wire := rfl
@[simp] theorem setPc_tx (v : Word) (s : State) : (setPc v s).tx = s.tx := rfl
@[simp] theorem setPc_sched (v : Word) (s : State) : (setPc v s).sched = s.sched := rfl
@[simp] theorem setPc_draws (v : Word) (s : State) : (setPc v s).draws = s.draws := rfl
@[simp] theorem setPc_ticks (v : Word) (s : State) : (setPc v s).ticks = s.ticks := rfl

/-! `maskInterrupts` -/

@[simp] theorem maskInterrupts_rxbuf (s : State) : (maskInterrupts s).rxbuf = s.rxbuf := rfl
@[simp] theorem maskInterrupts_rxlen (s : State) : (maskInterrupts s).rxlen = s.rxlen := rfl
@[simp] theorem maskInterrupts_dstate (s : State) : (maskInterrupts s).dstate = s.dstate := rfl
@[simp] theorem maskInterrupts_cursor (s : State) : (maskInterrupts s).cursor = s.cursor := rfl
@[simp] theorem maskInterrupts_lstate (s : State) : (maskInterrupts s).lstate = s.lstate := rfl
@[simp] theorem maskInterrupts_eph (s : State) : (maskInterrupts s).eph = s.eph := rfl
@[simp] theorem maskInterrupts_nvm (s : State) : (maskInterrupts s).nvm = s.nvm := rfl
@[simp] theorem maskInterrupts_nvmLock (s : State) : (maskInterrupts s).nvmLock = s.nvmLock := rfl
@[simp] theorem maskInterrupts_nvmFlags (s : State) : (maskInterrupts s).nvmFlags = s.nvmFlags := rfl
@[simp] theorem maskInterrupts_cpuMsp (s : State) : (maskInterrupts s).cpuMsp = s.cpuMsp := rfl
@[simp] theorem maskInterrupts_cpuPc (s : State) : (maskInterrupts s).cpuPc = s.cpuPc := rfl
@[simp] theorem maskInterrupts_cpuImask (s : State) : (maskInterrupts s).cpuImask = true := rfl
@[simp] theorem maskInterrupts_cpuVtbase (s : State) : (maskInterrupts s).cpuVtbase = s.cpuVtbase := rfl
@[simp] theorem maskInterrupts_tmrEn (s : State) : (maskInterrupts s).tmrEn = s.tmrEn := rfl
@[simp] theorem maskInterrupts_tmrCnt (s : State) : (maskInterrupts s).tmrCnt = s.tmrCnt := rfl
@[simp] theorem maskInterrupts_wire (s : State) : (maskInterrupts s).wire = s.wire := rfl
@[simp] theorem maskInterrupts_tx (s : State) : (maskInterrupts s).tx = s.tx := rfl
@[simp] theorem maskInterrupts_sched (s : State) : (maskInterrupts s).sched = s.sched := rfl
@[simp] theorem maskInterrupts_draws (s : State) : (maskInterrupts s).draws = s.draws := rfl
@[simp] theorem maskInterrupts_ticks (s : State) : (maskInterrupts s).ticks = s.ticks := rfl

/-! `timerDisable` -/

@[simp] theorem timerDisable_rxbuf (s : State) : (timerDisable s).rxbuf = s.rxbuf := rfl
@[simp] theorem timerDisable_rxlen (s : State) : (timerDisable s).rxlen = s.rxlen := rfl
@[simp] theorem timerDisable_dstate (s : State) : (timerDisable s).dstate = s.dstate := rfl
@[simp] theorem timerDisable_cursor (s : State) : (timerDisable s).cursor = s.cursor := rfl
@[simp] theorem timerDisable_lstate (s : State) : (timerDisable s).lstate = s.lstate := rfl
@[simp] theorem timerDisable_eph (s : State) : (timerDisable s).eph = s.eph := rfl
@[simp] theorem timerDisable_nvm (s : State) : (timerDisable s).nvm = s.nvm := rfl
@[simp] theorem timerDisable_nvmLock (s : State) : (timerDisable s).nvmLock = s.nvmLock := rfl
@[simp] theorem timerDisable_nvmFlags (s : State) : (timerDisable s).nvmFlags = s.nvmFlags := rfl
@[simp] theorem timerDisable_cpuMsp (s : State) : (timerDisable s).cpuMsp = s.cpuMsp := rfl
@[simp] theorem timerDisable_cpuPc (s : State) : (timerDisable s).cpuPc = s.cpuPc := rfl
@[simp] theorem timerDisable_cpuImask (s : State) : (timerDisable s).cpuImask = s.cpuImask := rfl
@[simp] theorem timerDisable_cpuVtbase (s : State) : (timerDisable s).cpuVtbase = s.cpuVtbase := rfl
@[simp] theorem timerDisable_tmrEn (s : State) : (timerDisable s).tmrEn = false := rfl
@[simp] theorem timerDisable_tmrCnt (s : State) : (timerDisable s).tmrCnt = s.tmrCnt := rfl
@[simp] theorem timerDisable_wire (s : State) : (timerDisable s).wire = s.wire := rfl
@[simp] theorem timerDisable_tx (s : State) : (timerDisable s).tx = s.tx := rfl
@[simp] theorem timerDisable_sched (s : State) : (timerDisable s).sched = s.sched := rfl
@[simp] theorem timerDisable_draws (s : State) : (timerDisable s).draws = s.draws := rfl
@[simp] theorem timerDisable_ticks (s : State) : (timerDisable s).ticks = s.ticks := rfl

/-! `timerZero` -/

@[simp] theorem timerZero_rxbuf (s : State) : (timerZero s).rxbuf = s.rxbuf := rfl
@[simp] theorem timerZero_rxlen (s : State) : (timerZero s).rxlen = s.rxlen := rfl
@[simp] theorem timerZero_dstate (s : State) : (timerZero s).dstate = s.dstate := rfl
@[simp] theorem timerZero_cursor (s : State) : (timerZero s).cursor = s.cursor := rfl
@[simp] theorem timerZero_lstate (s : State) : (timerZero s).lstate = s.lstate := rfl
@[simp] theorem timerZero_eph (s : State) : (timerZero s).eph = s.eph := rfl
@[simp] theorem timerZero_nvm (s : State) : (timerZero s).nvm = s.nvm := rfl
@[simp] theorem timerZero_nvmLock (s : State) : (timerZero s).nvmLock = s.nvmLock := rfl
@[simp] theorem timerZero_nvmFlags (s : State) : (timerZero s).nvmFlags = s.nvmFlags := rfl
@[simp] theorem timerZero_cpuMsp (s : State) : (timerZero s).cpuMsp = s.cpuMsp := rfl
@[simp] theorem timerZero_cpuPc (s : State) : (timerZero s).cpuPc = s.cpuPc := rfl
@[simp] theorem timerZero_cpuImask (s : State) : (timerZero s).cpuImask = s.cpuImask := rfl
@[simp] theorem timerZero_cpuVtbase (s : State) : (timerZero s).cpuVtbase = s.cpuVtbase := rfl
@[simp] theorem timerZero_tmrEn (s : State) : (timerZero s).tmrEn = s.tmrEn := rfl
@[simp] theorem timerZero_tmrCnt (s : State) : (timerZero s).tmrCnt = 0 := rfl
@[simp] theorem timerZero_wire (s : State) : (timerZero s).wire = s.wire := rfl
@[simp] theorem timerZero_tx (s : State) : (timerZero s).tx = s.tx := rfl
@[simp] theorem timerZero_sched (s : State) : (timerZero s).sched = s.sched := rfl
@[simp] theorem timerZero_draws (s : State) : (timerZero s).draws = s.draws := rfl
@[simp] theorem timerZero_ticks (s : State) : (timerZero s).ticks = s.ticks := rfl

/-! `rxAppend` -/

@[simp] theorem rxAppend_rxbuf (c : Config.Env) (s : State) :
    (rxAppend c s).rxbuf = if rxStores c s then writeByte s.rxbuf s.rxlen (s.wire.headD 0#8) else s.rxbuf := rfl
@[simp] theorem rxAppend_rxlen (c : Config.Env) (s : State) :
    (rxAppend c s).rxlen = if rxStores c s then s.rxlen + 1 else s.rxlen := rfl
@[simp] theorem rxAppend_dstate (c : Config.Env) (s : State) : (rxAppend c s).dstate = s.dstate := rfl
@[simp] theorem rxAppend_cursor (c : Config.Env) (s : State) : (rxAppend c s).cursor = s.cursor := rfl
@[simp] theorem rxAppend_lstate (c : Config.Env) (s : State) : (rxAppend c s).lstate = s.lstate := rfl
@[simp] theorem rxAppend_eph (c : Config.Env) (s : State) : (rxAppend c s).eph = s.eph := rfl
@[simp] theorem rxAppend_nvm (c : Config.Env) (s : State) : (rxAppend c s).nvm = s.nvm := rfl
@[simp] theorem rxAppend_nvmLock (c : Config.Env) (s : State) : (rxAppend c s).nvmLock = s.nvmLock := rfl
@[simp] theorem rxAppend_nvmFlags (c : Config.Env) (s : State) : (rxAppend c s).nvmFlags = s.nvmFlags := rfl
@[simp] theorem rxAppend_cpuMsp (c : Config.Env) (s : State) : (rxAppend c s).cpuMsp = s.cpuMsp := rfl
@[simp] theorem rxAppend_cpuPc (c : Config.Env) (s : State) : (rxAppend c s).cpuPc = s.cpuPc := rfl
@[simp] theorem rxAppend_cpuImask (c : Config.Env) (s : State) : (rxAppend c s).cpuImask = s.cpuImask := rfl
@[simp] theorem rxAppend_cpuVtbase (c : Config.Env) (s : State) : (rxAppend c s).cpuVtbase = s.cpuVtbase := rfl
@[simp] theorem rxAppend_tmrEn (c : Config.Env) (s : State) : (rxAppend c s).tmrEn = s.tmrEn := rfl
@[simp] theorem rxAppend_tmrCnt (c : Config.Env) (s : State) : (rxAppend c s).tmrCnt = s.tmrCnt := rfl
@[simp] theorem rxAppend_wire (c : Config.Env) (s : State) :
    (rxAppend c s).wire = if rxEnabled s then s.wire.tail else s.wire := rfl
@[simp] theorem rxAppend_tx (c : Config.Env) (s : State) : (rxAppend c s).tx = s.tx := rfl
@[simp] theorem rxAppend_sched (c : Config.Env) (s : State) : (rxAppend c s).sched = s.sched := rfl
@[simp] theorem rxAppend_draws (c : Config.Env) (s : State) : (rxAppend c s).draws = s.draws := rfl
@[simp] theorem rxAppend_ticks (c : Config.Env) (s : State) : (rxAppend c s).ticks = s.ticks := rfl

/-! `timerTick` -/

@[simp] theorem timerTick_rxbuf (c : Config.Env) (s : State) : (timerTick c s).rxbuf = s.rxbuf := rfl
@[simp] theorem timerTick_rxlen (c : Config.Env) (s : State) : (timerTick c s).rxlen = s.rxlen := rfl
@[simp] theorem timerTick_dstate (c : Config.Env) (s : State) : (timerTick c s).dstate = s.dstate := rfl
@[simp] theorem timerTick_cursor (c : Config.Env) (s : State) : (timerTick c s).cursor = s.cursor := rfl
@[simp] theorem timerTick_lstate (c : Config.Env) (s : State) : (timerTick c s).lstate = s.lstate := rfl
@[simp] theorem timerTick_eph (c : Config.Env) (s : State) : (timerTick c s).eph = s.eph := rfl
@[simp] theorem timerTick_nvm (c : Config.Env) (s : State) : (timerTick c s).nvm = s.nvm := rfl
@[simp] theorem timerTick_nvmLock (c : Config.Env) (s : State) : (timerTick c s).nvmLock = s.nvmLock := rfl
@[simp] theorem timerTick_nvmFlags (c : Config.Env) (s : State) : (timerTick c s).nvmFlags = s.nvmFlags := rfl
@[simp] theorem timerTick_cpuMsp (c : Config.Env) (s : State) : (timerTick c s).cpuMsp = s.cpuMsp := rfl
@[simp] theorem timerTick_cpuPc (c : Config.Env) (s : State) : (timerTick c s).cpuPc = s.cpuPc := rfl
@[simp] theorem timerTick_cpuImask (c : Config.Env) (s : State) : (timerTick c s).cpuImask = s.cpuImask := rfl
@[simp] theorem timerTick_cpuVtbase (c : Config.Env) (s : State) : (timerTick c s).cpuVtbase = s.cpuVtbase := rfl
@[simp] theorem timerTick_tmrEn (c : Config.Env) (s : State) : (timerTick c s).tmrEn = s.tmrEn := rfl
@[simp] theorem timerTick_tmrCnt (c : Config.Env) (s : State) :
    (timerTick c s).tmrCnt = if s.tmrEn then c.timerCount s.ticks else s.tmrCnt := rfl
@[simp] theorem timerTick_wire (c : Config.Env) (s : State) : (timerTick c s).wire = s.wire := rfl
@[simp] theorem timerTick_tx (c : Config.Env) (s : State) : (timerTick c s).tx = s.tx := rfl
@[simp] theorem timerTick_sched (c : Config.Env) (s : State) : (timerTick c s).sched = s.sched := rfl
@[simp] theorem timerTick_draws (c : Config.Env) (s : State) : (timerTick c s).draws = s.draws := rfl
@[simp] theorem timerTick_ticks (c : Config.Env) (s : State) : (timerTick c s).ticks = s.ticks + 1 := rfl

/-! `discard` -/

@[simp] theorem discard_rxbuf (s : State) : (discard s).rxbuf = s.rxbuf := rfl
@[simp] theorem discard_rxlen (s : State) : (discard s).rxlen = 0 := rfl
@[simp] theorem discard_dstate (s : State) : (discard s).dstate = s.dstate := rfl
@[simp] theorem discard_cursor (s : State) : (discard s).cursor = s.cursor := rfl
@[simp] theorem discard_lstate (s : State) : (discard s).lstate = s.lstate := rfl
@[simp] theorem discard_eph (s : State) : (discard s).eph = s.eph := rfl
@[simp] theorem discard_nvm (s : State) : (discard s).nvm = s.nvm := rfl
@[simp] theorem discard_nvmLock (s : State) : (discard s).nvmLock = s.nvmLock := rfl
@[simp] theorem discard_nvmFlags (s : State) : (discard s).nvmFlags = s.nvmFlags := rfl
@[simp] theorem discard_cpuMsp (s : State) : (discard s).cpuMsp = s.cpuMsp := rfl
@[simp] theorem discard_cpuPc (s : State) : (discard s).cpuPc = s.cpuPc := rfl
@[simp] theorem discard_cpuImask (s : State) : (discard s).cpuImask = s.cpuImask := rfl
@[simp] theorem discard_cpuVtbase (s : State) : (discard s).cpuVtbase = s.cpuVtbase := rfl
@[simp] theorem discard_tmrEn (s : State) : (discard s).tmrEn = s.tmrEn := rfl
@[simp] theorem discard_tmrCnt (s : State) : (discard s).tmrCnt = s.tmrCnt := rfl
@[simp] theorem discard_wire (s : State) : (discard s).wire = s.wire := rfl
@[simp] theorem discard_tx (s : State) : (discard s).tx = s.tx := rfl
@[simp] theorem discard_sched (s : State) : (discard s).sched = s.sched := rfl
@[simp] theorem discard_draws (s : State) : (discard s).draws = s.draws := rfl
@[simp] theorem discard_ticks (s : State) : (discard s).ticks = s.ticks := rfl

/-! `txByte` -/

@[simp] theorem txByte_rxbuf (b : Byte) (s : State) : (txByte b s).rxbuf = s.rxbuf := rfl
@[simp] theorem txByte_rxlen (b : Byte) (s : State) : (txByte b s).rxlen = s.rxlen := rfl
@[simp] theorem txByte_dstate (b : Byte) (s : State) : (txByte b s).dstate = s.dstate := rfl
@[simp] theorem txByte_cursor (b : Byte) (s : State) : (txByte b s).cursor = s.cursor := rfl
@[simp] theorem txByte_lstate (b : Byte) (s : State) : (txByte b s).lstate = s.lstate := rfl
@[simp] theorem txByte_eph (b : Byte) (s : State) : (txByte b s).eph = s.eph := rfl
@[simp] theorem txByte_nvm (b : Byte) (s : State) : (txByte b s).nvm = s.nvm := rfl
@[simp] theorem txByte_nvmLock (b : Byte) (s : State) : (txByte b s).nvmLock = s.nvmLock := rfl
@[simp] theorem txByte_nvmFlags (b : Byte) (s : State) : (txByte b s).nvmFlags = s.nvmFlags := rfl
@[simp] theorem txByte_cpuMsp (b : Byte) (s : State) : (txByte b s).cpuMsp = s.cpuMsp := rfl
@[simp] theorem txByte_cpuPc (b : Byte) (s : State) : (txByte b s).cpuPc = s.cpuPc := rfl
@[simp] theorem txByte_cpuImask (b : Byte) (s : State) : (txByte b s).cpuImask = s.cpuImask := rfl
@[simp] theorem txByte_cpuVtbase (b : Byte) (s : State) : (txByte b s).cpuVtbase = s.cpuVtbase := rfl
@[simp] theorem txByte_tmrEn (b : Byte) (s : State) : (txByte b s).tmrEn = s.tmrEn := rfl
@[simp] theorem txByte_tmrCnt (b : Byte) (s : State) : (txByte b s).tmrCnt = s.tmrCnt := rfl
@[simp] theorem txByte_wire (b : Byte) (s : State) : (txByte b s).wire = s.wire := rfl
@[simp] theorem txByte_tx (b : Byte) (s : State) : (txByte b s).tx = s.tx ++ [b] := rfl
@[simp] theorem txByte_sched (b : Byte) (s : State) : (txByte b s).sched = s.sched := rfl
@[simp] theorem txByte_draws (b : Byte) (s : State) : (txByte b s).draws = s.draws := rfl
@[simp] theorem txByte_ticks (b : Byte) (s : State) : (txByte b s).ticks = s.ticks := rfl

/-! `nvmUnlock` -/

@[simp] theorem nvmUnlock_rxbuf (s : State) : (nvmUnlock s).rxbuf = s.rxbuf := rfl
@[simp] theorem nvmUnlock_rxlen (s : State) : (nvmUnlock s).rxlen = s.rxlen := rfl
@[simp] theorem nvmUnlock_dstate (s : State) : (nvmUnlock s).dstate = s.dstate := rfl
@[simp] theorem nvmUnlock_cursor (s : State) : (nvmUnlock s).cursor = s.cursor := rfl
@[simp] theorem nvmUnlock_lstate (s : State) : (nvmUnlock s).lstate = s.lstate := rfl
@[simp] theorem nvmUnlock_eph (s : State) : (nvmUnlock s).eph = s.eph := rfl
@[simp] theorem nvmUnlock_nvm (s : State) : (nvmUnlock s).nvm = s.nvm := rfl
@[simp] theorem nvmUnlock_nvmLock (s : State) : (nvmUnlock s).nvmLock = false := rfl
@[simp] theorem nvmUnlock_nvmFlags (s : State) : (nvmUnlock s).nvmFlags = s.nvmFlags := rfl
@[simp] theorem nvmUnlock_cpuMsp (s : State) : (nvmUnlock s).cpuMsp = s.cpuMsp := rfl
@[simp] theorem nvmUnlock_cpuPc (s : State) : (nvmUnlock s).cpuPc = s.cpuPc := rfl
@[simp] theorem nvmUnlock_cpuImask (s : State) : (nvmUnlock s).cpuImask = s.cpuImask := rfl
@[simp] theorem nvmUnlock_cpuVtbase (s : State) : (nvmUnlock s).cpuVtbase = s.cpuVtbase := rfl
@[simp] theorem nvmUnlock_tmrEn (s : State) : (nvmUnlock s).tmrEn = s.tmrEn := rfl
@[simp] theorem nvmUnlock_tmrCnt (s : State) : (nvmUnlock s).tmrCnt = s.tmrCnt := rfl
@[simp] theorem nvmUnlock_wire (s : State) : (nvmUnlock s).wire = s.wire := rfl
@[simp] theorem nvmUnlock_tx (s : State) : (nvmUnlock s).tx = s.tx := rfl
@[simp] theorem nvmUnlock_sched (s : State) : (nvmUnlock s).sched = s.sched := rfl
@[simp] theorem nvmUnlock_draws (s : State) : (nvmUnlock s).draws = s.draws := rfl
@[simp] theorem nvmUnlock_ticks (s : State) : (nvmUnlock s).ticks = s.ticks := rfl

/-! `nvmLockOp` -/

@[simp] theorem nvmLockOp_rxbuf (s : State) : (nvmLockOp s).rxbuf = s.rxbuf := rfl
@[simp] theorem nvmLockOp_rxlen (s : State) : (nvmLockOp s).rxlen = s.rxlen := rfl
@[simp] theorem nvmLockOp_dstate (s : State) : (nvmLockOp s).dstate = s.dstate := rfl
@[simp] theorem nvmLockOp_cursor (s : State) : (nvmLockOp s).cursor = s.cursor := rfl
@[simp] theorem nvmLockOp_lstate (s : State) : (nvmLockOp s).lstate = s.lstate := rfl
@[simp] theorem nvmLockOp_eph (s : State) : (nvmLockOp s).eph = s.eph := rfl
@[simp] theorem nvmLockOp_nvm (s : State) : (nvmLockOp s).nvm = s.nvm := rfl
@[simp] theorem nvmLockOp_nvmLock (s : State) : (nvmLockOp s).nvmLock = true := rfl
@[simp] theorem nvmLockOp_nvmFlags (s : State) : (nvmLockOp s).nvmFlags = s.nvmFlags := rfl
@[simp] theorem nvmLockOp_cpuMsp (s : State) : (nvmLockOp s).cpuMsp = s.cpuMsp := rfl
@[simp] theorem nvmLockOp_cpuPc (s : State) : (nvmLockOp s).cpuPc = s.cpuPc := rfl
@[simp] theorem nvmLockOp_cpuImask (s : State) : (nvmLockOp s).cpuImask = s.cpuImask := rfl
@[simp] theorem nvmLockOp_cpuVtbase (s : State) : (nvmLockOp s).cpuVtbase = s.cpuVtbase := rfl
@[simp] theorem nvmLockOp_tmrEn (s : State) : (nvmLockOp s).tmrEn = s.tmrEn := rfl
@[simp] theorem nvmLockOp_tmrCnt (s : State) : (nvmLockOp s).tmrCnt = s.tmrCnt := rfl
@[simp] theorem nvmLockOp_wire (s : State) : (nvmLockOp s).wire = s.wire := rfl
@[simp] theorem nvmLockOp_tx (s : State) : (nvmLockOp s).tx = s.tx := rfl
@[simp] theorem nvmLockOp_sched (s : State) : (nvmLockOp s).sched = s.sched := rfl
@[simp] theorem nvmLockOp_draws (s : State) : (nvmLockOp s).draws = s.draws := rfl
@[simp] theorem nvmLockOp_ticks (s : State) : (nvmLockOp s).ticks = s.ticks := rfl

/-! `nvmClearFlags` -/

@[simp] theorem nvmClearFlags_rxbuf (s : State) : (nvmClearFlags s).rxbuf = s.rxbuf := rfl
@[simp] theorem nvmClearFlags_rxlen (s : State) : (nvmClearFlags s).rxlen = s.rxlen := rfl
@[simp] theorem nvmClearFlags_dstate (s : State) : (nvmClearFlags s).dstate = s.dstate := rfl
@[simp] theorem nvmClearFlags_cursor (s : State) : (nvmClearFlags s).cursor = s.cursor := rfl
@[simp] theorem nvmClearFlags_lstate (s : State) : (nvmClearFlags s).lstate = s.lstate := rfl
@[simp] theorem nvmClearFlags_eph (s : State) : (nvmClearFlags s).eph = s.eph := rfl
@[simp] theorem nvmClearFlags_nvm (s : State) : (nvmClearFlags s).nvm = s.nvm := rfl
@[simp] theorem nvmClearFlags_nvmLock (s : State) : (nvmClearFlags s).nvmLock = s.nvmLock := rfl
@[simp] theorem nvmClearFlags_nvmFlags (s : State) : (nvmClearFlags s).nvmFlags = [] := rfl
@[simp] theorem nvmClearFlags_cpuMsp (s : State) : (nvmClearFlags s).cpuMsp = s.cpuMsp := rfl
@[simp] theorem nvmClearFlags_cpuPc (s : State) : (nvmClearFlags s).cpuPc = s.cpuPc := rfl
@[simp] theorem nvmClearFlags_cpuImask (s : State) : (nvmClearFlags s).cpuImask = s.cpuImask := rfl
@[simp] theorem nvmClearFlags_cpuVtbase (s : State) : (nvmClearFlags s).cpuVtbase = s.cpuVtbase := rfl
@[simp] theorem nvmClearFlags_tmrEn (s : State) : (nvmClearFlags s).tmrEn = s.tmrEn := rfl
@[simp] theorem nvmClearFlags_tmrCnt (s : State) : (nvmClearFlags s).tmrCnt = s.tmrCnt := rfl
@[simp] theorem nvmClearFlags_wire (s : State) : (nvmClearFlags s).wire = s.wire := rfl
@[simp] theorem nvmClearFlags_tx (s : State) : (nvmClearFlags s).tx = s.tx := rfl
@[simp] theorem nvmClearFlags_sched (s : State) : (nvmClearFlags s).sched = s.sched := rfl
@[simp] theorem nvmClearFlags_draws (s : State) : (nvmClearFlags s).draws = s.draws := rfl
@[simp] theorem nvmClearFlags_ticks (s : State) : (nvmClearFlags s).ticks = s.ticks := rfl

/-! `nvmEraseSector` -/

@[simp] theorem nvmEraseSector_rxbuf (c : Config.Env) (r : Config.Region) (s : State) :
    (nvmEraseSector c r s).rxbuf = s.rxbuf := rfl
@[simp] theorem nvmEraseSector_rxlen (c : Config.Env) (r : Config.Region) (s : State) :
    (nvmEraseSector c r s).rxlen = s.rxlen := rfl
@[simp] theorem nvmEraseSector_dstate (c : Config.Env) (r : Config.Region) (s : State) :
    (nvmEraseSector c r s).dstate = s.dstate := rfl
@[simp] theorem nvmEraseSector_cursor (c : Config.Env) (r : Config.Region) (s : State) :
    (nvmEraseSector c r s).cursor = s.cursor := rfl
@[simp] theorem nvmEraseSector_lstate (c : Config.Env) (r : Config.Region) (s : State) :
    (nvmEraseSector c r s).lstate = s.lstate := rfl
@[simp] theorem nvmEraseSector_eph (c : Config.Env) (r : Config.Region) (s : State) :
    (nvmEraseSector c r s).eph = s.eph := rfl
@[simp] theorem nvmEraseSector_nvm (c : Config.Env) (r : Config.Region) (s : State) :
    (nvmEraseSector c r s).nvm = if s.nvmLock then s.nvm else erasedNvm c s.draws r s.nvm := rfl
@[simp] theorem nvmEraseSector_nvmLock (c : Config.Env) (r : Config.Region) (s : State) :
    (nvmEraseSector c r s).nvmLock = s.nvmLock := rfl
@[simp] theorem nvmEraseSector_nvmFlags (c : Config.Env) (r : Config.Region) (s : State) :
    (nvmEraseSector c r s).nvmFlags = if !s.nvmLock && c.nvmFail s.draws then unionFlags s.nvmFlags (c.anyFlags s.draws) else s.nvmFlags := rfl
@[simp] theorem nvmEraseSector_cpuMsp (c : Config.Env) (r : Config.Region) (s : State) :
    (nvmEraseSector c r s).cpuMsp = s.cpuMsp := rfl
@[simp] theorem nvmEraseSector_cpuPc (c : Config.Env) (r : Config.Region) (s : State) :
    (nvmEraseSector c r s).cpuPc = s.cpuPc := rfl
@[simp] theorem nvmEraseSector_cpuImask (c : Config.Env) (r : Config.Region) (s : State) :
    (nvmEraseSector c r s).cpuImask = s.cpuImask := rfl
@[simp] theorem nvmEraseSector_cpuVtbase (c : Config.Env) (r : Config.Region) (s : State) :
    (nvmEraseSector c r s).cpuVtbase = s.cpuVtbase := rfl
@[simp] theorem nvmEraseSector_tmrEn (c : Config.Env) (r : Config.Region) (s : State) :
    (nvmEraseSector c r s).tmrEn = s.tmrEn := rfl
@[simp] theorem nvmEraseSector_tmrCnt (c : Config.Env) (r : Config.Region) (s : State) :
    (nvmEraseSector c r s).tmrCnt = s.tmrCnt := rfl
@[simp] theorem nvmEraseSector_wire (c : Config.Env) (r : Config.Region) (s : State) :
    (nvmEraseSector c r s).wire = s.wire := rfl
@[simp] theorem nvmEraseSector_tx (c : Config.Env) (r : Config.Region) (s : State) :
    (nvmEraseSector c r s).tx = s.tx := rfl
@[simp] theorem nvmEraseSector_sched (c : Config.Env) (r : Config.Region) (s : State) :
    (nvmEraseSector c r s).sched = s.sched := rfl
@[simp] theorem nvmEraseSector_draws (c : Config.Env) (r : Config.Region) (s : State) :
    (nvmEraseSector c r s).draws = s.draws + 1 := rfl
@[simp] theorem nvmEraseSector_ticks (c : Config.Env) (r : Config.Region) (s : State) :
    (nvmEraseSector c r s).ticks = s.ticks := rfl

/-! `nvmProgramWord` -/

@[simp] theorem nvmProgramWord_rxbuf (c : Config.Env) (a w : Word) (s : State) :
    (nvmProgramWord c a w s).rxbuf = s.rxbuf := rfl
@[simp] theorem nvmProgramWord_rxlen (c : Config.Env) (a w : Word) (s : State) :
    (nvmProgramWord c a w s).rxlen = s.rxlen := rfl
@[simp] theorem nvmProgramWord_dstate (c : Config.Env) (a w : Word) (s : State) :
    (nvmProgramWord c a w s).dstate = s.dstate := rfl
@[simp] theorem nvmProgramWord_cursor (c : Config.Env) (a w : Word) (s : State) :
    (nvmProgramWord c a w s).cursor = s.cursor := rfl
@[simp] theorem nvmProgramWord_lstate (c : Config.Env) (a w : Word) (s : State) :
    (nvmProgramWord c a w s).lstate = s.lstate := rfl
@[simp] theorem nvmProgramWord_eph (c : Config.Env) (a w : Word) (s : State) :
    (nvmProgramWord c a w s).eph = s.eph := rfl
@[simp] theorem nvmProgramWord_nvm (c : Config.Env) (a w : Word) (s : State) :
    (nvmProgramWord c a w s).nvm = if s.nvmLock then s.nvm else programmedNvm c s.draws a.toNat w s.nvm := rfl
@[simp] theorem nvmProgramWord_nvmLock (c : Config.Env) (a w : Word) (s : State) :
    (nvmProgramWord c a w s).nvmLock = s.nvmLock := rfl
@[simp] theorem nvmProgramWord_nvmFlags (c : Config.Env) (a w : Word) (s : State) :
    (nvmProgramWord c a w s).nvmFlags = if !s.nvmLock && programMayFlag c s.draws a.toNat w s.nvm then
      unionFlags s.nvmFlags (c.anyFlags s.draws) else s.nvmFlags := rfl
@[simp] theorem nvmProgramWord_cpuMsp (c : Config.Env) (a w : Word) (s : State) :
    (nvmProgramWord c a w s).cpuMsp = s.cpuMsp := rfl
@[simp] theorem nvmProgramWord_cpuPc (c : Config.Env) (a w : Word) (s : State) :
    (nvmProgramWord c a w s).cpuPc = s.cpuPc := rfl
@[simp] theorem nvmProgramWord_cpuImask (c : Config.Env) (a w : Word) (s : State) :
    (nvmProgramWord c a w s).cpuImask = s.cpuImask := rfl
@[simp] theorem nvmProgramWord_cpuVtbase (c : Config.Env) (a w : Word) (s : State) :
    (nvmProgramWord c a w s).cpuVtbase = s.cpuVtbase := rfl
@[simp] theorem nvmProgramWord_tmrEn (c : Config.Env) (a w : Word) (s : State) :
    (nvmProgramWord c a w s).tmrEn = s.tmrEn := rfl
@[simp] theorem nvmProgramWord_tmrCnt (c : Config.Env) (a w : Word) (s : State) :
    (nvmProgramWord c a w s).tmrCnt = s.tmrCnt := rfl
@[simp] theorem nvmProgramWord_wire (c : Config.Env) (a w : Word) (s : State) :
    (nvmProgramWord c a w s).wire = s.wire := rfl
@[simp] theorem nvmProgramWord_tx (c : Config.Env) (a w : Word) (s : State) :
    (nvmProgramWord c a w s).tx = s.tx := rfl
@[simp] theorem nvmProgramWord_sched (c : Config.Env) (a w : Word) (s : State) :
    (nvmProgramWord c a w s).sched = s.sched := rfl
@[simp] theorem nvmProgramWord_draws (c : Config.Env) (a w : Word) (s : State) :
    (nvmProgramWord c a w s).draws = s.draws + 1 := rfl
@[simp] theorem nvmProgramWord_ticks (c : Config.Env) (a w : Word) (s : State) :
    (nvmProgramWord c a w s).ticks = s.ticks := rfl

/-! `hostSend` -/

@[simp] theorem hostSend_rxbuf (bs : List Byte) (s : State) : (hostSend bs s).rxbuf = s.rxbuf := rfl
@[simp] theorem hostSend_rxlen (bs : List Byte) (s : State) : (hostSend bs s).rxlen = s.rxlen := rfl
@[simp] theorem hostSend_dstate (bs : List Byte) (s : State) : (hostSend bs s).dstate = s.dstate := rfl
@[simp] theorem hostSend_cursor (bs : List Byte) (s : State) : (hostSend bs s).cursor = s.cursor := rfl
@[simp] theorem hostSend_lstate (bs : List Byte) (s : State) : (hostSend bs s).lstate = s.lstate := rfl
@[simp] theorem hostSend_eph (bs : List Byte) (s : State) : (hostSend bs s).eph = s.eph := rfl
@[simp] theorem hostSend_nvm (bs : List Byte) (s : State) : (hostSend bs s).nvm = s.nvm := rfl
@[simp] theorem hostSend_nvmLock (bs : List Byte) (s : State) : (hostSend bs s).nvmLock = s.nvmLock := rfl
@[simp] theorem hostSend_nvmFlags (bs : List Byte) (s : State) : (hostSend bs s).nvmFlags = s.nvmFlags := rfl
@[simp] theorem hostSend_cpuMsp (bs : List Byte) (s : State) : (hostSend bs s).cpuMsp = s.cpuMsp := rfl
@[simp] theorem hostSend_cpuPc (bs : List Byte) (s : State) : (hostSend bs s).cpuPc = s.cpuPc := rfl
@[simp] theorem hostSend_cpuImask (bs : List Byte) (s : State) : (hostSend bs s).cpuImask = s.cpuImask := rfl
@[simp] theorem hostSend_cpuVtbase (bs : List Byte) (s : State) : (hostSend bs s).cpuVtbase = s.cpuVtbase := rfl
@[simp] theorem hostSend_tmrEn (bs : List Byte) (s : State) : (hostSend bs s).tmrEn = s.tmrEn := rfl
@[simp] theorem hostSend_tmrCnt (bs : List Byte) (s : State) : (hostSend bs s).tmrCnt = s.tmrCnt := rfl
@[simp] theorem hostSend_wire (bs : List Byte) (s : State) : (hostSend bs s).wire = s.wire ++ bs := rfl
@[simp] theorem hostSend_tx (bs : List Byte) (s : State) : (hostSend bs s).tx = s.tx := rfl
@[simp] theorem hostSend_sched (bs : List Byte) (s : State) : (hostSend bs s).sched = s.sched := rfl
@[simp] theorem hostSend_draws (bs : List Byte) (s : State) : (hostSend bs s).draws = s.draws := rfl
@[simp] theorem hostSend_ticks (bs : List Byte) (s : State) : (hostSend bs s).ticks = s.ticks := rfl

/-! `act` -/

@[simp] theorem act_rxbuf (c : Config.Env) (a : Action) (k : List Action) (s : State) :
    (act c a k s).rxbuf = (perform c a s).rxbuf := rfl
@[simp] theorem act_rxlen (c : Config.Env) (a : Action) (k : List Action) (s : State) :
    (act c a k s).rxlen = (perform c a s).rxlen := rfl
@[simp] theorem act_dstate (c : Config.Env) (a : Action) (k : List Action) (s : State) :
    (act c a k s).dstate = (perform c a s).dstate := rfl
@[simp] theorem act_cursor (c : Config.Env) (a : Action) (k : List Action) (s : State) :
    (act c a k s).cursor = (perform c a s).cursor := rfl
@[simp] theorem act_lstate (c : Config.Env) (a : Action) (k : List Action) (s : State) :
    (act c a k s).lstate = (perform c a s).lstate := rfl
@[simp] theorem act_eph (c : Config.Env) (a : Action) (k : List Action) (s : State) :
    (act c a k s).eph = nextPhase c.params a k s.nvm := rfl
@[simp] theorem act_nvm (c : Config.Env) (a : Action) (k : List Action) (s : State) :
    (act c a k s).nvm = (perform c a s).nvm := rfl
@[simp] theorem act_nvmLock (c : Config.Env) (a : Action) (k : List Action) (s : State) :
    (act c a k s).nvmLock = (perform c a s).nvmLock := rfl
@[simp] theorem act_nvmFlags (c : Config.Env) (a : Action) (k : List Action) (s : State) :
    (act c a k s).nvmFlags = (perform c a s).nvmFlags := rfl
@[simp] theorem act_cpuMsp (c : Config.Env) (a : Action) (k : List Action) (s : State) :
    (act c a k s).cpuMsp = (perform c a s).cpuMsp := rfl
@[simp] theorem act_cpuPc (c : Config.Env) (a : Action) (k : List Action) (s : State) :
    (act c a k s).cpuPc = (perform c a s).cpuPc := rfl
@[simp] theorem act_cpuImask (c : Config.Env) (a : Action) (k : List Action) (s : State) :
    (act c a k s).cpuImask = (perform c a s).cpuImask := rfl
@[simp] theorem act_cpuVtbase (c : Config.Env) (a : Action) (k : List Action) (s : State) :
    (act c a k s).cpuVtbase = (perform c a s).cpuVtbase := rfl
@[simp] theorem act_tmrEn (c : Config.Env) (a : Action) (k : List Action) (s : State) :
    (act c a k s).tmrEn = (perform c a s).tmrEn := rfl
@[simp] theorem act_tmrCnt (c : Config.Env) (a : Action) (k : List Action) (s : State) :
    (act c a k s).tmrCnt = (perform c a s).tmrCnt := rfl
@[simp] theorem act_wire (c : Config.Env) (a : Action) (k : List Action) (s : State) :
    (act c a k s).wire = (perform c a s).wire := rfl
@[simp] theorem act_tx (c : Config.Env) (a : Action) (k : List Action) (s : State) :
    (act c a k s).tx = (perform c a s).tx := rfl
@[simp] theorem act_sched (c : Config.Env) (a : Action) (k : List Action) (s : State) :
    (act c a k s).sched = (perform c a s).sched := rfl
@[simp] theorem act_draws (c : Config.Env) (a : Action) (k : List Action) (s : State) :
    (act c a k s).draws = (perform c a s).draws := rfl
@[simp] theorem act_ticks (c : Config.Env) (a : Action) (k : List Action) (s : State) :
    (act c a k s).ticks = (perform c a s).ticks := rfl

end Sys2Proof.Machine
end

