-- ==== Sys2Proof/Laws/Engine.lean ====
section
/-! SUPPORT. What ENG's run of a pass can do, said once: it ends within its fuel, it is a sequence of atomic actions
with the other agents' turns between them (`drive_induction`), and under a quiet schedule each action happens, after
turns that change only the receive side and the timer (`drive_quiet`). -/

namespace Sys2Proof.Machine

open Sys2Proof.Safety

/-! EPH and the fuel. -/

@[simp] theorem phaseOf_nil : phaseOf [] = .poll := rfl

@[simp] theorem phaseOf_cons (a : Action) (k : List Action) : phaseOf (a :: k) = .busy (a :: k) := rfl

theorem pending_phaseOf (k : List Action) : pending (phaseOf k) = k := by cases k <;> rfl

theorem phaseCost_phaseOf (k : List Action) : phaseCost (phaseOf k) = (k.map actionCost).sum := by
  cases k <;> rfl

@[simp] theorem phaseCost_poll : phaseCost .poll = 0 := rfl

@[simp] theorem phaseCost_gone : phaseCost .gone = 0 := rfl

theorem phaseCost_busy_cons (a : Action) (k : List Action) :
    phaseCost (.busy (a :: k)) = actionCost a + (k.map actionCost).sum := by
  simp [phaseCost]

/-! What each action performs, and the phase behind it, true by rfl. -/

@[simp] theorem perform_tx (c : Config.Env) (b : Byte) (s : State) : perform c (.tx b) s = txByte b s := rfl
@[simp] theorem perform_nvmUnlock (c : Config.Env) (s : State) : perform c (.nvmUnlock) s = nvmUnlock s := rfl
@[simp] theorem perform_nvmLock (c : Config.Env) (s : State) : perform c (.nvmLock) s = nvmLockOp s := rfl
@[simp] theorem perform_nvmClearFlags (c : Config.Env) (s : State) : perform c (.nvmClearFlags) s = nvmClearFlags s := rfl
@[simp] theorem perform_nvmEraseSector (c : Config.Env) (r : Config.Region) (s : State) : perform c (.nvmEraseSector r) s = nvmEraseSector c r s := rfl
@[simp] theorem perform_nvmProgramWord (c : Config.Env) (a w : Word) (s : State) : perform c (.nvmProgramWord a w) s = nvmProgramWord c a w s := rfl
@[simp] theorem perform_setCursor (c : Config.Env) (v : Word) (s : State) : perform c (.setCursor v) s = setCursor v s := rfl
@[simp] theorem perform_setDstate (c : Config.Env) (v : DState) (s : State) : perform c (.setDstate v) s = setDstate v s := rfl
@[simp] theorem perform_setLstate (c : Config.Env) (v : LState) (s : State) : perform c (.setLstate v) s = setLstate v s := rfl
@[simp] theorem perform_delay (c : Config.Env) (n : Nat) (s : State) : perform c (.delay n) s = s := rfl
@[simp] theorem perform_readSp (c : Config.Env) (s : State) : perform c (.readSp) s = s := rfl
@[simp] theorem perform_readEntry (c : Config.Env) (v : Word) (s : State) : perform c (.readEntry v) s = s := rfl
@[simp] theorem perform_maskInterrupts (c : Config.Env) (s : State) : perform c (.maskInterrupts) s = maskInterrupts s := rfl
@[simp] theorem perform_timerDisable (c : Config.Env) (s : State) : perform c (.timerDisable) s = timerDisable s := rfl
@[simp] theorem perform_timerZero (c : Config.Env) (s : State) : perform c (.timerZero) s = timerZero s := rfl
@[simp] theorem perform_setVtbase (c : Config.Env) (v : Word) (s : State) : perform c (.setVtbase v) s = setVtbase v s := rfl
@[simp] theorem perform_setMsp (c : Config.Env) (v : Word) (s : State) : perform c (.setMsp v) s = setMsp v s := rfl
@[simp] theorem perform_setPc (c : Config.Env) (v : Word) (s : State) : perform c (.setPc v) s = setPc v s := rfl
@[simp] theorem perform_leave (c : Config.Env) (s : State) : perform c (.leave) s = setDstate .launched s := rfl
@[simp] theorem perform_discard (c : Config.Env) (s : State) : perform c (.discard) s = discard s := rfl
@[simp] theorem perform_bootReturn (c : Config.Env) (s : State) : perform c (.bootReturn) s = s := rfl

@[simp] theorem nextPhase_tx (p : Config.Params) (b : Byte) (k : List Action) (m : Memory) :
    nextPhase p (.tx b) k m = phaseOf k := rfl
@[simp] theorem nextPhase_nvmUnlock (p : Config.Params) (k : List Action) (m : Memory) :
    nextPhase p (.nvmUnlock) k m = phaseOf k := rfl
@[simp] theorem nextPhase_nvmLock (p : Config.Params) (k : List Action) (m : Memory) :
    nextPhase p (.nvmLock) k m = phaseOf k := rfl
@[simp] theorem nextPhase_nvmClearFlags (p : Config.Params) (k : List Action) (m : Memory) :
    nextPhase p (.nvmClearFlags) k m = phaseOf k := rfl
@[simp] theorem nextPhase_nvmEraseSector (p : Config.Params) (r : Config.Region) (k : List Action) (m : Memory) :
    nextPhase p (.nvmEraseSector r) k m = phaseOf k := rfl
@[simp] theorem nextPhase_nvmProgramWord (p : Config.Params) (a w : Word) (k : List Action) (m : Memory) :
    nextPhase p (.nvmProgramWord a w) k m = phaseOf k := rfl
@[simp] theorem nextPhase_setCursor (p : Config.Params) (v : Word) (k : List Action) (m : Memory) :
    nextPhase p (.setCursor v) k m = phaseOf k := rfl
@[simp] theorem nextPhase_setDstate (p : Config.Params) (v : DState) (k : List Action) (m : Memory) :
    nextPhase p (.setDstate v) k m = phaseOf k := rfl
@[simp] theorem nextPhase_setLstate (p : Config.Params) (v : LState) (k : List Action) (m : Memory) :
    nextPhase p (.setLstate v) k m = phaseOf k := rfl
@[simp] theorem nextPhase_delay (p : Config.Params) (n : Nat) (k : List Action) (m : Memory) :
    nextPhase p (.delay n) k m = phaseOf k := rfl
@[simp] theorem nextPhase_readSp (p : Config.Params) (k : List Action) (m : Memory) :
    nextPhase p (.readSp) k m = phaseOf (afterSp p (imageSp p m) ++ k) := rfl
@[simp] theorem nextPhase_readEntry (p : Config.Params) (v : Word) (k : List Action) (m : Memory) :
    nextPhase p (.readEntry v) k m = phaseOf (afterEntry p v (imageEntry p m) ++ k) := rfl
@[simp] theorem nextPhase_maskInterrupts (p : Config.Params) (k : List Action) (m : Memory) :
    nextPhase p (.maskInterrupts) k m = phaseOf k := rfl
@[simp] theorem nextPhase_timerDisable (p : Config.Params) (k : List Action) (m : Memory) :
    nextPhase p (.timerDisable) k m = phaseOf k := rfl
@[simp] theorem nextPhase_timerZero (p : Config.Params) (k : List Action) (m : Memory) :
    nextPhase p (.timerZero) k m = phaseOf k := rfl
@[simp] theorem nextPhase_setVtbase (p : Config.Params) (v : Word) (k : List Action) (m : Memory) :
    nextPhase p (.setVtbase v) k m = phaseOf k := rfl
@[simp] theorem nextPhase_setMsp (p : Config.Params) (v : Word) (k : List Action) (m : Memory) :
    nextPhase p (.setMsp v) k m = phaseOf k := rfl
@[simp] theorem nextPhase_setPc (p : Config.Params) (v : Word) (k : List Action) (m : Memory) :
    nextPhase p (.setPc v) k m = phaseOf k := rfl
@[simp] theorem nextPhase_leave (p : Config.Params) (k : List Action) (m : Memory) :
    nextPhase p (.leave) k m = .gone := rfl
@[simp] theorem nextPhase_discard (p : Config.Params) (k : List Action) (m : Memory) :
    nextPhase p (.discard) k m = phaseOf k := rfl
@[simp] theorem nextPhase_bootReturn (p : Config.Params) (k : List Action) (m : Memory) :
    nextPhase p (.bootReturn) k m = phaseOf k := rfl

/-- Every action leaves less to do than before it. -/
theorem phaseCost_nextPhase (p : Config.Params) (a : Action) (k : List Action) (m : Memory) :
    phaseCost (nextPhase p a k m) < phaseCost (.busy (a :: k)) := by
  rw [phaseCost_busy_cons]
  cases a with
  | readSp =>
    simp only [nextPhase, expand, phaseCost_phaseOf, List.map_append, List.sum_append, afterSp, actionCost]
    split <;> simp [actionCost]
  | readEntry sp =>
    simp only [nextPhase, expand, phaseCost_phaseOf, List.map_append, List.sum_append, afterEntry, actionCost]
    simp [actionCost]
  | leave => simp [nextPhase, actionCost]
  | _ => simp [nextPhase, expand, phaseCost_phaseOf, actionCost]

/-- How many turns a state needs at most. -/
def need (s : State) : Nat := s.sched.length + phaseCost s.eph

theorem need_act_lt {c : Config.Env} {a : Action} {k : List Action} {s s' : State} (h : s.eph = .busy (a :: k))
    (hl : s'.sched.length ≤ s.sched.length) : need (act c a k s') < need s := by
  have h1 : (act c a k s').sched = s'.sched := by
    cases a <;> rfl
  have := phaseCost_nextPhase c.params a k s'.nvm
  simp only [need, h1, act_eph, h]
  omega

@[simp] theorem sched_act (c : Config.Env) (a : Action) (k : List Action) (s : State) :
    (act c a k s).sched = s.sched := by
  cases a <;> rfl

/-- More fuel than needed changes nothing. -/
theorem burst_eq_drive (c : Config.Env) (fuel : Nat) (s : State) (h : need s ≤ fuel) :
    burst c fuel s = drive c s := by
  suffices key : ∀ n m, ∀ s : State, need s ≤ n → need s ≤ m → burst c n s = burst c m s from
    key fuel (need s) s h (Nat.le_refl _)
  intro n
  induction n with
  | zero =>
    intro m s hn hm
    have hc : phaseCost s.eph = 0 := by simp only [need] at hn; omega
    cases m with
    | zero => rfl
    | succ m =>
      unfold burst
      rcases he : s.eph with _ | k | _
      · rfl
      · cases k with
        | nil => rfl
        | cons a k =>
          rw [he, phaseCost_busy_cons] at hc
          cases a <;> simp [actionCost] at hc
      · rfl
  | succ n ih =>
    intro m s hn hm
    cases m with
    | zero =>
      have hc : phaseCost s.eph = 0 := by simp only [need] at hm; omega
      unfold burst
      rcases he : s.eph with _ | k | _
      · rfl
      · cases k with
        | nil => rfl
        | cons a k =>
          rw [he, phaseCost_busy_cons] at hc
          cases a <;> simp [actionCost] at hc
      · rfl
    | succ m =>
      rcases he : s.eph with _ | k | _
      · simp only [burst, he]
      · cases k with
        | nil => simp only [burst, he]
        | cons a k =>
          by_cases hb : a = .bootReturn
          · subst hb
            simp only [burst, he]
          · have step : ∀ f, burst c (f + 1) s = interleave c (burst c f) a k s := by
              intro f
              cases a <;> first | exact absurd rfl hb | simp only [burst, he]
            rw [step, step]
            unfold interleave
            rcases hs : s.sched with _ | ⟨t, ts⟩
            · have := need_act_lt (c := c) (s' := s) he (Nat.le_refl _)
              exact ih m _ (by omega) (by omega)
            · have hlen : s.sched.length = ts.length + 1 := by rw [hs]; rfl
              cases t with
              | eng =>
                have := need_act_lt (c := c) (s' := setSched ts s) he (by simp only [setSched_sched]; omega)
                exact ih m _ (by omega) (by omega)
              | rx =>
                have : need (rxAppend c (setSched ts s)) < need s := by
                  simp only [need, rxAppend_sched, rxAppend_eph, setSched_sched, setSched_eph]; omega
                exact ih m _ (by omega) (by omega)
              | tick =>
                have : need (timerTick c (setSched ts s)) < need s := by
                  simp only [need, timerTick_sched, timerTick_eph, setSched_sched, setSched_eph]; omega
                exact ih m _ (by omega) (by omega)
              | pause => rfl
              | reset e => rfl
      · simp only [burst, he]

theorem burst_one (c : Config.Env) {a : Action} {k : List Action} {s : State} (he : s.eph = .busy (a :: k))
    (hb : a ≠ .bootReturn) (f : Nat) :
    burst c (f + 1) s = interleave c (burst c f) a k s := by
  cases a <;> first | exact absurd rfl hb | simp only [burst, he]

/-! `drive` one turn at a time. -/

theorem drive_poll (c : Config.Env) {s : State} (h : s.eph = .poll) : drive c s = s := by
  unfold drive
  cases s.sched.length + phaseCost s.eph <;> simp [burst, h]

theorem drive_gone (c : Config.Env) {s : State} (h : s.eph = .gone) : drive c s = s := by
  unfold drive
  cases s.sched.length + phaseCost s.eph <;> simp [burst, h]

theorem drive_busy_nil (c : Config.Env) {s : State} (h : s.eph = .busy []) : drive c s = s := by
  unfold drive
  cases s.sched.length + phaseCost s.eph <;> simp [burst, h]

theorem drive_bootReturn (c : Config.Env) {s : State} {k : List Action} (h : s.eph = .busy (.bootReturn :: k)) :
    drive c s = s := by
  unfold drive
  cases s.sched.length + phaseCost s.eph <;> simp [burst, h]

/-- The run of a pass unfolds one turn at a time. -/
theorem drive_busy (c : Config.Env) {a : Action} {k : List Action} {s : State} (he : s.eph = .busy (a :: k))
    (hb : a ≠ .bootReturn) :
    drive c s = interleave c (drive c) a k s := by
  rw [← burst_eq_drive c (need s + 1) s (by omega), burst_one c he hb]
  unfold interleave
  rcases hs : s.sched with _ | ⟨t, ts⟩
  · exact burst_eq_drive c _ _ (Nat.le_of_lt (need_act_lt he (Nat.le_refl _)))
  · have hlen : s.sched.length = ts.length + 1 := by rw [hs]; rfl
    cases t with
    | eng => exact burst_eq_drive c _ _ (Nat.le_of_lt (need_act_lt he (by simp only [setSched_sched]; omega)))
    | rx => exact burst_eq_drive c _ _ (by simp only [need, rxAppend_sched, rxAppend_eph, setSched_sched, setSched_eph]; omega)
    | tick => exact burst_eq_drive c _ _ (by simp only [need, timerTick_sched, timerTick_eph, setSched_sched, setSched_eph]; omega)
    | pause => rfl
    | reset e => rfl

/-- A predicate that every atomic action of ENG, every turn of RX and the timer, and every change of the schedule
keeps, is kept by the run of a pass. -/
theorem drive_induction (c : Config.Env) (P : State → Prop)
    (hact : ∀ s a k, s.eph = .busy (a :: k) → a ≠ .bootReturn → P s → P (act c a k s))
    (hrx : ∀ s, P s → P (rxAppend c s)) (htick : ∀ s, P s → P (timerTick c s))
    (hsched : ∀ s ts, P s → P (setSched ts s)) {s : State} (h : P s) : P (drive c s) := by
  have key : ∀ n, ∀ s, P s → P (burst c n s) := by
    intro n
    induction n with
    | zero => exact fun s h => h
    | succ n ih =>
      intro s h
      rcases he : s.eph with _ | k | _
      · simpa only [burst, he] using h
      · cases k with
        | nil => simpa only [burst, he] using h
        | cons a k =>
          by_cases hb : a = .bootReturn
          · subst hb
            simpa only [burst, he] using h
          · rw [burst_one c he hb]
            unfold interleave
            rcases hs : s.sched with _ | ⟨t, ts⟩
            · exact ih _ (hact s a k he hb h)
            · cases t with
              | eng => exact ih _ (hact (setSched ts s) a k he hb (hsched s ts h))
              | rx => exact ih _ (hrx _ (hsched s ts h))
              | tick => exact ih _ (htick _ (hsched s ts h))
              | pause => exact hsched s ts h
              | reset e => exact h
      · simpa only [burst, he] using h
  exact key _ s h

/-! A quiet schedule. -/

/-- What the turns of RX and the timer between two actions of ENG leave (spec 20 R71, R72). -/
structure Between (s t : State) : Prop where
  engine : EngineSame s t
  rx : RxSide s t
  rxlen : s.rxlen ≤ t.rxlen
  count : s.tmrEn = false ∨ noTick s = true → t.tmrCnt = s.tmrCnt
  sched : t.sched <:+ s.sched

theorem engineSame_refl (s : State) : EngineSame s s := by constructor <;> rfl

theorem engineSame_trans {s t u : State} (h : EngineSame s t) (g : EngineSame t u) : EngineSame s u := by
  constructor
  · rw [g.dstate, h.dstate]
  · rw [g.cursor, h.cursor]
  · rw [g.lstate, h.lstate]
  · rw [g.eph, h.eph]
  · rw [g.nvm, h.nvm]
  · rw [g.nvmLock, h.nvmLock]
  · rw [g.nvmFlags, h.nvmFlags]
  · rw [g.cpuMsp, h.cpuMsp]
  · rw [g.cpuPc, h.cpuPc]
  · rw [g.cpuImask, h.cpuImask]
  · rw [g.cpuVtbase, h.cpuVtbase]
  · rw [g.tmrEn, h.tmrEn]
  · rw [g.tx, h.tx]
  · rw [g.draws, h.draws]

theorem quiet_of_suffix {s t : State} (h : t.sched <:+ s.sched) (hq : quiet s = true) : quiet t = true := by
  simp only [quiet, List.all_eq_true] at *
  exact fun x hx => hq x (h.subset hx)

theorem noTick_of_suffix {s t : State} (h : t.sched <:+ s.sched) (hq : noTick s = true) : noTick t = true := by
  simp only [noTick, List.all_eq_true] at *
  exact fun x hx => hq x (h.subset hx)

theorem Between.refl (s : State) : Between s s :=
  ⟨engineSame_refl s, ⟨List.suffix_refl _, fun _ _ => rfl⟩, Nat.le_refl _, fun _ => rfl, List.suffix_refl _⟩

theorem Between.trans {s t u : State} (h : Between s t) (g : Between t u) : Between s u where
  engine := engineSame_trans h.engine g.engine
  rx := ⟨g.rx.wire.trans h.rx.wire, fun i hi => by
    rw [g.rx.sampled i (Nat.lt_of_lt_of_le hi h.rxlen), h.rx.sampled i hi]⟩
  rxlen := Nat.le_trans h.rxlen g.rxlen
  count := fun hc => by
    rw [g.count (hc.imp (fun h' => by rw [h.engine.tmrEn, h']) (noTick_of_suffix h.sched)), h.count hc]
  sched := g.sched.trans h.sched

theorem Between.quiet {s t : State} (h : Between s t) (hq : Safety.quiet s = true) : Safety.quiet t = true :=
  quiet_of_suffix h.sched hq

/-- Taking a turn off the schedule. -/
theorem Between.turn {s : State} {t : Turn} {ts : List Turn} (h : s.sched = t :: ts) :
    Between s (setSched ts s) where
  engine := by constructor <;> rfl
  rx := ⟨List.suffix_refl _, fun _ _ => rfl⟩
  rxlen := Nat.le_refl _
  count := fun _ => rfl
  sched := by rw [h]; exact List.suffix_cons _ _

/-- RX writes RXBUF only at RXLEN, and only raises RXLEN (spec 20 R71, R72). -/
theorem Between.rxAppend (c : Config.Env) (s : State) : Between s (rxAppend c s) where
  engine := by constructor <;> rfl
  rx := by
    constructor
    · simp only [rxAppend_wire]
      split
      · exact List.tail_suffix _
      · exact List.suffix_refl _
    · intro i hi
      simp only [rxAppend_rxbuf]
      split
      · exact readByte_writeByte_ne _ _ _ (by omega)
      · rfl
  rxlen := by
    simp only [rxAppend_rxlen]
    split <;> omega
  count := fun _ => rfl
  sched := List.suffix_refl _

theorem Between.timerTick (c : Config.Env) {s : State} {ts : List Turn} (h : s.sched = .tick :: ts) :
    Between s (timerTick c (setSched ts s)) where
  engine := by constructor <;> rfl
  rx := ⟨List.suffix_refl _, fun _ _ => rfl⟩
  rxlen := Nat.le_refl _
  count := by
    intro hc
    simp only [timerTick_tmrCnt]
    rcases hc with hc | hc
    · simp [hc]
    · simp [noTick, h] at hc
  sched := by rw [timerTick_sched, h]; exact List.suffix_cons _ _

/-- Under a quiet schedule the head of the list is performed, after turns of the other agents only. -/
theorem drive_quiet (c : Config.Env) {a : Action} {k : List Action} {s : State} (he : s.eph = .busy (a :: k))
    (hb : a ≠ .bootReturn) (hq : quiet s = true) :
    ∃ s', Between s s' ∧ drive c s = drive c (act c a k s') := by
  rcases hs : s.sched with _ | ⟨t, ts⟩
  · exact ⟨s, .refl s, by rw [drive_busy c he hb, interleave, hs]⟩
  · generalize hn : ts.length = n
    induction n using Nat.strong_induction_on generalizing s t ts with
    | _ n ih =>
      have next : ∀ s1 : State, Between s s1 → s1.sched = ts → drive c s = drive c s1 →
          ∃ s', Between s s' ∧ drive c s = drive c (act c a k s') := by
        intro s1 h1 hts hd
        have he1 : s1.eph = .busy (a :: k) := by rw [h1.engine.eph, he]
        rcases hs1 : ts with _ | ⟨t1, ts1⟩
        · exact ⟨s1, h1, by rw [hd, drive_busy c he1 hb, interleave, hts, hs1]⟩
        · obtain ⟨s', hb', hd'⟩ := ih ts1.length (by rw [← hn, hs1]; simp) he1 (h1.quiet hq) t1 ts1
            (by rw [hts, hs1]) rfl
          exact ⟨s', h1.trans hb', hd.trans hd'⟩
      have hd := drive_busy c he hb
      rw [interleave, hs] at hd
      cases t with
      | eng => exact ⟨setSched ts s, .turn hs, hd⟩
      | rx => exact next _ ((Between.turn hs).trans (.rxAppend c _)) rfl hd
      | tick => exact next _ (.timerTick c hs) rfl hd
      | pause => simp [quiet, hs, goesOn] at hq
      | reset e => simp [quiet, hs, goesOn] at hq

end Sys2Proof.Machine
end

