-- ==== Sys2Proof/Laws/Flags.lean ====
section
/-! SUPPORT. The flag set keeps its canonical form and is the union it stands for (spec 10 R32). -/

namespace Sys2Proof.Machine

theorem mem_insertFlag {f g : Nat} {s : List Nat} : g ∈ insertFlag f s ↔ g = f ∨ g ∈ s := by
  induction s with
  | nil => simp [insertFlag]
  | cons x s ih =>
    unfold insertFlag
    split_ifs with h1 h2
    · simp
    · subst h2; simp
    · simp only [List.mem_cons, ih]
      tauto

theorem mem_unionFlags {g : Nat} {s fs : List Nat} : g ∈ unionFlags s fs ↔ g ∈ s ∨ g ∈ fs := by
  induction fs with
  | nil => simp [unionFlags]
  | cons f fs ih =>
    simp only [unionFlags, mem_insertFlag, ih, List.mem_cons]
    tauto

theorem flagsWf_insertFlag {s : List Nat} (f : Nat) (h : flagsWf s = true) : flagsWf (insertFlag f s) = true := by
  simp only [flagsWf, decide_eq_true_eq] at *
  induction s with
  | nil => simp [insertFlag]
  | cons x s ih =>
    rw [List.pairwise_cons] at h
    unfold insertFlag
    split_ifs with h1 h2
    · refine List.pairwise_cons.2 ⟨fun y hy => ?_, List.pairwise_cons.2 h⟩
      rcases List.mem_cons.1 hy with rfl | hy
      · exact h1
      · exact Nat.lt_trans h1 (h.1 y hy)
    · exact List.pairwise_cons.2 h
    · refine List.pairwise_cons.2 ⟨fun y hy => ?_, ih h.2⟩
      rcases mem_insertFlag.1 hy with rfl | hy
      · omega
      · exact h.1 y hy

theorem flagsWf_unionFlags {s : List Nat} (fs : List Nat) (h : flagsWf s = true) : flagsWf (unionFlags s fs) = true := by
  induction fs with
  | nil => exact h
  | cons f fs ih => exact flagsWf_insertFlag f ih

end Sys2Proof.Machine
end

