-- ==== Sys2Proof/Laws/Pass.lean ====
section
/-! SUPPORT. What a pass does, said once: under a quiet schedule a list of actions that keep control is performed in
order, with only the receive side and the timer moving in between (`drive_plain`); and what the storage writer's two
lists of controller operations leave in NVM, byte by byte (`performAll_erase`, `performAll_program`). -/

namespace Sys2Proof.Machine

open Sys2Proof.Safety

/-! Agreement of the engine's fields. -/

/-- Agreement of the engine's fields is equality up to the receive side, the timer's counter and the schedule. -/
theorem engineSame_eq {s t : State} (h : EngineSame s t) :
    t = { s with rxbuf := t.rxbuf, rxlen := t.rxlen, wire := t.wire, tmrCnt := t.tmrCnt, sched := t.sched,
                 ticks := t.ticks } := by
  obtain ⟨h1, h2, h3, h4, h5, h6, h7, h8, h9, h10, h11, h12, h13, h14⟩ := h
  cases s
  cases t
  simp only at *
  subst h1 h2 h3 h4 h5 h6 h7 h8 h9 h10 h11 h12 h13 h14
  rfl

theorem perform_congr (c : Config.Env) (a : Action) {s t : State} (h : EngineSame s t) :
    EngineSame (perform c a s) (perform c a t) := by
  rw [engineSame_eq h]
  cases a <;> constructor <;> rfl

/-- What ENG does depends on the engine's fields only (spec 20 R73). -/
theorem act_congr (c : Config.Env) (a : Action) (k : List Action) {s t : State} (h : EngineSame s t) :
    EngineSame (act c a k s) (act c a k t) := by
  rw [engineSame_eq h]
  cases a <;> constructor <;> rfl

theorem setPhase_congr (v : Phase) {s t : State} (h : EngineSame s t) :
    EngineSame (setPhase v s) (setPhase v t) := by
  rw [engineSame_eq h]
  constructor <;> rfl

/-! Lists of plain actions. -/

/-- Actions that read nothing, and leave control, the timer and the receive buffer where they are. -/
def plain : Action → Bool
  | .readSp => false
  | .readEntry _ => false
  | .timerDisable => false
  | .timerZero => false
  | .leave => false
  | .discard => false
  | .bootReturn => false
  | _ => true

@[simp] theorem plain_tx (b : Byte) : plain (.tx b) = true := rfl
@[simp] theorem plain_setCursor (v : Word) : plain (.setCursor v) = true := rfl
@[simp] theorem plain_setDstate (v : DState) : plain (.setDstate v) = true := rfl
@[simp] theorem plain_setLstate (v : LState) : plain (.setLstate v) = true := rfl
@[simp] theorem plain_delay (n : Nat) : plain (.delay n) = true := rfl
@[simp] theorem plain_nvmUnlock : plain .nvmUnlock = true := rfl
@[simp] theorem plain_nvmLock : plain .nvmLock = true := rfl
@[simp] theorem plain_nvmClearFlags : plain .nvmClearFlags = true := rfl
@[simp] theorem plain_nvmEraseSector (r : Config.Region) : plain (.nvmEraseSector r) = true := rfl
@[simp] theorem plain_nvmProgramWord (a w : Word) : plain (.nvmProgramWord a w) = true := rfl
@[simp] theorem plain_maskInterrupts : plain .maskInterrupts = true := rfl
@[simp] theorem plain_setVtbase (v : Word) : plain (.setVtbase v) = true := rfl
@[simp] theorem plain_setMsp (v : Word) : plain (.setMsp v) = true := rfl
@[simp] theorem plain_setPc (v : Word) : plain (.setPc v) = true := rfl

/-- The effects of a list of actions, nobody else moving. -/
def performAll (c : Config.Env) (k : List Action) (s : State) : State := k.foldl (fun s a => perform c a s) s

@[simp] theorem performAll_nil (c : Config.Env) (s : State) : performAll c [] s = s := rfl

@[simp] theorem performAll_cons (c : Config.Env) (a : Action) (k : List Action) (s : State) :
    performAll c (a :: k) s = performAll c k (perform c a s) := rfl

@[simp] theorem performAll_append (c : Config.Env) (k l : List Action) (s : State) :
    performAll c (k ++ l) s = performAll c l (performAll c k s) := List.foldl_append

theorem performAll_congr (c : Config.Env) (k : List Action) {s t : State} (h : EngineSame s t) :
    EngineSame (performAll c k s) (performAll c k t) := by
  induction k generalizing s t with
  | nil => exact h
  | cons a k ih => exact ih (perform_congr c a h)

theorem perform_setPhase (c : Config.Env) (a : Action) (v : Phase) (s : State) :
    perform c a (setPhase v s) = setPhase v (perform c a s) := by
  cases a <;> rfl

/-- No action reads or writes EPH. -/
theorem performAll_setPhase (c : Config.Env) (k : List Action) (v : Phase) (s : State) :
    performAll c k (setPhase v s) = setPhase v (performAll c k s) := by
  induction k generalizing s with
  | nil => rfl
  | cons a k ih => rw [performAll_cons, perform_setPhase, ih, performAll_cons]

/-- What a plain action leaves of the receive side, the timer and the schedule. -/
theorem perform_plain (c : Config.Env) {a : Action} (s : State) (h : plain a = true) :
    (perform c a s).rxbuf = s.rxbuf ∧ (perform c a s).rxlen = s.rxlen ∧ (perform c a s).wire = s.wire ∧
      (perform c a s).tmrEn = s.tmrEn ∧ (perform c a s).tmrCnt = s.tmrCnt ∧ (perform c a s).sched = s.sched := by
  cases a <;> first | exact ⟨rfl, rfl, rfl, rfl, rfl, rfl⟩ | cases h

theorem nextPhase_plain (p : Config.Params) {a : Action} (k : List Action) (m : Memory) (h : plain a = true) :
    nextPhase p a k m = phaseOf k := by
  cases a <;> first | rfl | cases h

/-- `s` has come to `t` by the actions `k`, the actions `l` still to perform: the engine's fields are as `k` leaves
them, the receive side, the timer and the schedule as the turns in between leave them. -/
structure RunTo (c : Config.Env) (k l : List Action) (s t : State) : Prop where
  engine : EngineSame (setPhase (phaseOf l) (performAll c k s)) t
  rx : RxSide s t
  rxlen : s.rxlen ≤ t.rxlen
  count : s.tmrEn = false ∨ noTick s = true → t.tmrCnt = s.tmrCnt
  sched : t.sched <:+ s.sched

/-- Under a quiet schedule a list of plain actions is performed, the other agents' turns between them, and the run goes
on with the actions behind it. -/
theorem drive_plain (c : Config.Env) (k l : List Action) {s : State} (he : s.eph = phaseOf (k ++ l))
    (hk : ∀ a ∈ k, plain a = true) (hq : quiet s = true) :
    ∃ t, RunTo c k l s t ∧ drive c s = drive c t := by
  induction k generalizing s with
  | nil =>
    refine ⟨s, ⟨?_, ⟨List.suffix_refl _, fun _ _ => rfl⟩, Nat.le_refl _, fun _ => rfl, List.suffix_refl _⟩, rfl⟩
    have hp : setPhase (phaseOf l) s = s := by
      have he : s.eph = phaseOf l := he
      rw [← he]
      rfl
    rw [performAll_nil, hp]
    exact engineSame_refl s
  | cons a k ih =>
    have ha : plain a = true := hk a (by simp)
    obtain ⟨s1, hb, hd⟩ := drive_quiet c (a := a) (k := k ++ l) he (by rintro rfl; cases ha) hq
    obtain ⟨p1, p2, p3, p4, p5, p6⟩ := perform_plain c s1 ha
    have hs : (act c a (k ++ l) s1).sched <:+ s.sched := by rw [sched_act]; exact hb.sched
    obtain ⟨t, ht, hdt⟩ := ih (s := act c a (k ++ l) s1) (by rw [act_eph, nextPhase_plain _ _ _ ha])
      (fun x hx => hk x (by simp [hx])) (quiet_of_suffix hs hq)
    refine ⟨t, ⟨?_, ⟨ht.rx.wire.trans ?_, fun i hi => ?_⟩, ?_, fun hc => ?_, ht.sched.trans hs⟩, hd.trans hdt⟩
    · refine engineSame_trans ?_ ht.engine
      rw [act, performAll_setPhase, performAll_cons]
      show EngineSame _ (setPhase (phaseOf l) (performAll c k (perform c a s1)))
      exact setPhase_congr (phaseOf l) (performAll_congr c k (perform_congr c a hb.engine))
    · rw [act_wire, p3]
      exact hb.rx.wire
    · rw [ht.rx.sampled i (by rw [act_rxlen, p2]; exact Nat.lt_of_lt_of_le hi hb.rxlen), act_rxbuf, p1,
        hb.rx.sampled i hi]
    · have := ht.rxlen
      rw [act_rxlen, p2] at this
      exact Nat.le_trans hb.rxlen this
    · rw [ht.count (by rw [act_tmrEn, p4, hb.engine.tmrEn]; exact hc.imp id (noTick_of_suffix hs)), act_tmrCnt, p5,
        hb.count hc]

/-- A pass of plain actions that ends with the clear of RXLEN (spec 40 R127, R134). -/
structure PassDone (c : Config.Env) (k : List Action) (s t : State) : Prop where
  engine : EngineSame (setPhase .poll (performAll c k s)) t
  ended : PassEnded t
  rx : RxSide s t
  timer : TimerSame s t
  sched : t.sched <:+ s.sched

theorem performAll_tmrEn (c : Config.Env) {k : List Action} (hk : ∀ a ∈ k, plain a = true) (s : State) :
    (performAll c k s).tmrEn = s.tmrEn := by
  induction k generalizing s with
  | nil => rfl
  | cons a k ih =>
    rw [performAll_cons, ih (fun x hx => hk x (by simp [hx])), (perform_plain c s (hk a (by simp))).2.2.2.1]

/-- A pass of plain actions under a quiet schedule, run to its end. -/
theorem runPass_plain (c : Config.Env) {k : List Action} {s : State} (hk : ∀ a ∈ k, plain a = true)
    (hq : quiet s = true) : PassDone c k s (runPass c (k ++ [.discard]) s) := by
  obtain ⟨t, ht, hd⟩ := drive_plain c k [.discard] (s := setPhase (phaseOf (k ++ [.discard])) s) rfl hk hq
  have het : t.eph = .busy [.discard] := ht.engine.eph
  have hqt : quiet t = true := quiet_of_suffix ht.sched hq
  obtain ⟨u, hu, hd'⟩ := drive_quiet c het (by decide) hqt
  have hpoll : (act c .discard [] u).eph = .poll := rfl
  have hr : runPass c (k ++ [.discard]) s = act c .discard [] u := by
    rw [runPass, hd, hd', drive_poll c hpoll]
  rw [hr]
  have hen : EngineSame (setPhase .poll (performAll c k s)) (act c .discard [] u) := by
    have h1 := engineSame_trans ht.engine hu.engine
    rw [performAll_setPhase] at h1
    rw [engineSame_eq h1]
    constructor <;> rfl
  refine ⟨hen, ⟨rfl, rfl⟩, ⟨hu.rx.wire.trans ht.rx.wire, fun i hi => ?_⟩, ⟨?_, fun hc => ?_⟩, hu.sched.trans ht.sched⟩
  · exact (hu.rx.sampled i (Nat.lt_of_lt_of_le hi ht.rxlen)).trans (ht.rx.sampled i hi)
  · exact hen.tmrEn.trans (performAll_tmrEn c hk s)
  · have h1 : t.tmrCnt = s.tmrCnt := ht.count hc
    have h2 : t.tmrEn = s.tmrEn := by
      have := ht.engine.tmrEn
      rw [performAll_setPhase] at this
      exact this.trans (performAll_tmrEn c hk s)
    exact (hu.count (hc.imp (fun h => by rw [h2, h]) (noTick_of_suffix ht.sched))).trans h1

/-! The storage writer's lists of controller operations. -/

/-- Erasing a list of sectors with an unlocked controller (spec 42 R184, R187), everything it can change. -/
theorem performAll_erase (c : Config.Env) (rs : List Config.Region) (s : State) (hl : s.nvmLock = false) :
    ∃ m f, performAll c (rs.map Action.nvmEraseSector) s =
        { s with nvm := m, nvmFlags := f, draws := s.draws + rs.length } ∧
      (∀ a, (∀ r ∈ rs, r.contains a = false) → readByte m a = readByte s.nvm a) ∧
      (∀ i r a, rs[i]? = some r → r.contains a = true → (∀ q ∈ rs.drop (i + 1), q.contains a = false) →
        readByte m a = if c.nvmFail (s.draws + i) then c.anyByte (s.draws + i) a else Config.erased) ∧
      (c.Reliable → f = s.nvmFlags ∧
        ∀ a, readByte m a = if rs.any (·.contains a) then Config.erased else readByte s.nvm a) := by
  induction rs generalizing s with
  | nil => exact ⟨s.nvm, s.nvmFlags, rfl, fun _ _ => rfl, by simp, fun _ => ⟨rfl, fun a => by simp⟩⟩
  | cons r rs ih =>
    obtain ⟨m, f, he, h1, h2, h3⟩ := ih (nvmEraseSector c r s) hl
    have hn : ∀ a, readByte (nvmEraseSector c r s).nvm a = if r.contains a then
        (if c.nvmFail s.draws then c.anyByte s.draws a else Config.erased) else readByte s.nvm a := by
      intro a
      simp only [nvmEraseSector, hl, Bool.false_eq_true, if_false]
      exact readByte_erasedNvm c s.draws r s.nvm a
    refine ⟨m, f, ?_, fun a ha => ?_, fun i q a hi hq hlater => ?_, fun hr => ⟨?_, fun a => ?_⟩⟩
    · rw [List.map_cons, performAll_cons]
      refine he.trans ?_
      simp only [nvmEraseSector, List.length_cons]
      congr 1
      omega
    · rw [h1 a (fun q hq => ha q (by simp [hq])), hn, ha r (by simp)]
      rfl
    · cases i with
      | zero =>
        cases hi
        rw [h1 a (fun q hq => hlater q (by simpa using hq)), hn, hq]
        rfl
      | succ i =>
        have hd : (nvmEraseSector c r s).draws + i = s.draws + (i + 1) := by
          rw [nvmEraseSector_draws]
          omega
        rw [h2 i q a hi hq (fun q hq => hlater q (by simpa using hq))]
        simp only [hd]
    · rw [(h3 hr).1]
      simp [nvmEraseSector, hr s.draws]
    · rw [(h3 hr).2 a, hn, hr s.draws, List.any_cons]
      cases r.contains a <;> cases rs.any (·.contains a) <;> rfl

/-- Programming the cells of a write with an unlocked controller (spec 42 R185, R188, R189): outside the cells nothing
changes; each address of a cell takes the lane result of its source byte; no flag is dropped, and none is added where no
operation fails and no lane takes R185's last branch. -/
theorem performAll_program (c : Config.Env) (addr : Nat) (data : List Byte) (cells : List Nat) (s : State)
    (hl : s.nvmLock = false) (ht : ∀ x ∈ cells, x < 2 ^ 32) (hp : cells.Pairwise fun x y => x + 4 ≤ y) :
    ∃ m f, performAll c (cells.map (programAction addr data)) s =
        { s with nvm := m, nvmFlags := f, draws := s.draws + cells.length } ∧
      (∀ a, (∀ x ∈ cells, ¬ (x ≤ a ∧ a < x + 4)) → readByte m a = readByte s.nvm a) ∧
      (∀ a, ∀ x ∈ cells, x ≤ a → a < x + 4 →
        ∃ n, readByte m a = laneResult c n a (sourceByte addr data a) (readByte s.nvm a)) ∧
      (∀ g, g ∈ s.nvmFlags → g ∈ f) ∧
      (c.Reliable → (∀ x ∈ cells, ∀ k, k < 4 → laneUndefined c s.nvm (x + k) (sourceByte addr data (x + k)) = false) →
        f = s.nvmFlags) := by
  induction cells generalizing s with
  | nil => exact ⟨s.nvm, s.nvmFlags, rfl, fun _ _ => rfl, by simp, fun _ h => h, fun _ _ => rfl⟩
  | cons x cells ih =>
    rw [List.pairwise_cons] at hp
    have hx : (BitVec.ofNat 32 x).toNat = x := by
      rw [BitVec.toNat_ofNat]
      exact Nat.mod_eq_of_lt (ht x (by simp))
    obtain ⟨m, f, he, h1, h2, h3, h4⟩ := ih (nvmProgramWord c (BitVec.ofNat 32 x) (assembleWord x addr data) s) hl
      (fun y hy => ht y (by simp [hy])) hp.2
    have hn : ∀ a, readByte (nvmProgramWord c (BitVec.ofNat 32 x) (assembleWord x addr data) s).nvm a =
        if x ≤ a ∧ a < x + 4 then laneResult c s.draws a (sourceByte addr data a) (readByte s.nvm a)
        else readByte s.nvm a := by
      intro a
      simp only [nvmProgramWord, hl, Bool.false_eq_true, if_false, hx]
      rw [readByte_programmedNvm]
      by_cases h : x ≤ a ∧ a < x + 4
      · rw [if_pos h, if_pos h, laneOf_assemble_eq_sourceByte x addr data h.1 h.2]
      · rw [if_neg h, if_neg h]
    refine ⟨m, f, ?_, fun a ha => ?_, fun a y hy hya hay => ?_, fun g hg => h3 g ?_, fun hr hk => (h4 hr ?_).trans ?_⟩
    · rw [List.map_cons, performAll_cons]
      refine he.trans ?_
      simp only [nvmProgramWord, List.length_cons]
      congr 1
      omega
    · rw [h1 a (fun y hy => ha y (by simp [hy])), hn, if_neg (ha x (by simp))]
    · rcases List.mem_cons.1 hy with rfl | hy
      · refine ⟨s.draws, ?_⟩
        rw [h1 a (fun z hz => by have := hp.1 z hz; omega), hn, if_pos ⟨hya, hay⟩]
      · obtain ⟨n, h⟩ := h2 a y hy hya hay
        refine ⟨n, ?_⟩
        rw [h, hn, if_neg (by have := hp.1 y hy; omega)]
    · simp only [nvmProgramWord]
      split
      · exact mem_unionFlags.2 (.inl hg)
      · exact hg
    · intro y hy k hk4
      have hd := hk y (by simp [hy]) k hk4
      have hne : ¬ (x ≤ y + k ∧ y + k < x + 4) := by
        have := hp.1 y hy
        omega
      rw [laneUndefined] at hd ⊢
      rw [hn, if_neg hne]
      exact hd
    · have hl := fun k hk4 => hk x (by simp) k hk4
      have hlane : ∀ k, k < 4 → laneOf (assembleWord x addr data) k = sourceByte addr data (x + k) := by
        intro k hk4
        have := laneOf_assemble_eq_sourceByte x addr data (x := x + k) (by omega) (by omega)
        rwa [Nat.add_sub_cancel_left] at this
      have hflag : programMayFlag c s.draws x (assembleWord x addr data) s.nvm = false := by
        by_contra hc
        obtain ⟨k, hk4, hm⟩ := programMayFlag_iff.1 (by simpa using hc)
        rw [laneMayFlag_of_not_fail (hr s.draws), hlane k hk4, hl k hk4] at hm
        cases hm
      simp only [nvmProgramWord, hx, hflag, Bool.and_false, Bool.false_eq_true, if_false]

/-- Programming cells where there is no memory only counts the draws (42 R193; D15). -/
theorem performAll_program_outside (c : Config.Env) (addr : Nat) (data : List Byte) (cells : List Nat) (s : State)
    (ht : ∀ x ∈ cells, x < 2 ^ 32) (hn : ∀ x ∈ cells, ∀ k, k < 4 → c.params.inNvm (x + k) = false) :
    performAll c (cells.map (programAction addr data)) s = { s with draws := s.draws + cells.length } := by
  induction cells generalizing s with
  | nil => rfl
  | cons x cells ih =>
    have hx : (BitVec.ofNat 32 x).toNat = x := by
      rw [BitVec.toNat_ofNat]
      exact Nat.mod_eq_of_lt (ht x (by simp))
    rw [List.map_cons, performAll_cons]
    simp only [programAction, perform_nvmProgramWord]
    rw [nvmProgramWord_outside _ _ (by rw [hx]; exact hn x (by simp)),
      ih _ (fun y hy => ht y (by simp [hy])) (fun y hy => hn y (by simp [hy]))]
    simp only [List.length_cons, Nat.add_assoc, Nat.add_comm 1]

end Sys2Proof.Machine
end

