-- ==== Sys2Proof/Laws/Commands.lean ====
section
/-! SUPPORT. What each command's action list does when it is performed (spec 41 R152 to R155), and what a launch does
under a quiet schedule (43 R211 to R218). -/

namespace Sys2Proof.Machine

open Sys2Proof.Safety

/-! CONNECT. -/

theorem plain_connectActions (p : Config.Params) : ∀ a ∈ connectActions p, plain a = true := by
  intro a ha
  simp only [connectActions, eraseActions, List.cons_append, List.mem_cons, List.mem_append, List.mem_map,
    List.not_mem_nil, or_false] at ha
  rcases ha with rfl | rfl | (⟨_, _, rfl⟩ | rfl) | rfl | rfl | rfl <;> rfl

/-- Everything the actions of CONNECT can change (41 R152; 42 R187). -/
theorem performAll_connect (c : Config.Env) (s : State) :
    ∃ m f, performAll c (connectActions c.params) s =
        { s with nvm := m, nvmFlags := f, draws := s.draws + c.params.eraseSet.length, nvmLock := true,
                 cursor := c.params.appBase, tx := s.tx ++ [Config.ack], dstate := .connected } ∧
      (∀ a, (∀ r ∈ c.params.eraseSet, r.contains a = false) → readByte m a = readByte s.nvm a) ∧
      (∀ i r a, c.params.eraseSet[i]? = some r → r.contains a = true →
        (∀ q ∈ c.params.eraseSet.drop (i + 1), q.contains a = false) →
        readByte m a = if c.nvmFail (s.draws + i) then c.anyByte (s.draws + i) a else Config.erased) ∧
      (c.Reliable → f = [] ∧
        ∀ a, readByte m a = if c.params.eraseSet.any (·.contains a) then Config.erased else readByte s.nvm a) := by
  obtain ⟨m, f, he, h1, h2, h3⟩ := performAll_erase c c.params.eraseSet (nvmClearFlags (nvmUnlock s)) rfl
  refine ⟨m, f, ?_, h1, h2, h3⟩
  simp only [connectActions, eraseActions, performAll_cons, performAll_append, List.cons_append, performAll_nil,
    List.append_assoc]
  simp only [perform, he]
  rfl

/-! DATA. -/

theorem plain_dataActions (cur : Word) (data : List Byte) : ∀ a ∈ dataActions cur data, plain a = true := by
  intro a ha
  simp only [dataActions, writeActions, List.cons_append, List.mem_cons, List.mem_append, List.mem_map,
    List.not_mem_nil, or_false] at ha
  rcases ha with rfl | (⟨_, _, rfl⟩ | rfl) | rfl | rfl <;> rfl

/-- Everything the actions of DATA can change (41 R153; 42 R188, R189). -/
theorem performAll_data (c : Config.Env) (s : State) (p : List Byte) (hle : s.cursor.toNat + p.length ≤ 2 ^ 32) :
    ∃ m f, performAll c (dataActions s.cursor p) s =
        { s with nvm := m, nvmFlags := f, draws := s.draws + (cellsOf s.cursor.toNat p.length).length,
                 nvmLock := true, cursor := s.cursor + BitVec.ofNat 32 p.length, tx := s.tx ++ [Config.ack] } ∧
      (∀ a, (∀ x ∈ cellsOf s.cursor.toNat p.length, ¬ (x ≤ a ∧ a < x + 4)) → readByte m a = readByte s.nvm a) ∧
      (∀ a, ∀ x ∈ cellsOf s.cursor.toNat p.length, x ≤ a → a < x + 4 →
        ∃ n, readByte m a = laneResult c n a (sourceByte s.cursor.toNat p a) (readByte s.nvm a)) ∧
      (∀ g, g ∈ s.nvmFlags → g ∈ f) ∧
      (c.Reliable → (∀ x ∈ cellsOf s.cursor.toNat p.length, ∀ k, k < 4 →
        laneUndefined c s.nvm (x + k) (sourceByte s.cursor.toNat p (x + k)) = false) → f = s.nvmFlags) := by
  obtain ⟨m, f, he, h1, h2, h3, h4⟩ := performAll_program c s.cursor.toNat p (cellsOf s.cursor.toNat p.length) (nvmUnlock s) rfl
    (fun x hx => (cellsOf_top hle hx).1) (cellsOf_pairwise _ _)
  refine ⟨m, f, ?_, h1, h2, h3, h4⟩
  simp only [dataActions, writeActions, performAll_cons, performAll_append, List.cons_append, performAll_nil,
    List.append_assoc]
  simp only [perform, he]
  rfl

/-- DATA is not refused when its range stays below the top (42 R197). -/
theorem execDataIn_eq (c : Config.Env) {s : State} {p : List Byte} (hle : s.cursor.toNat + p.length ≤ 2 ^ 32) :
    execDataIn c p s = .next (runPass c (dataActions s.cursor p ++ [.discard]) s) := by
  have : writePastTop s.cursor p = false := by
    by_contra h
    have := (writePastTop_iff s.cursor p).1 (by simpa using h)
    omega
  simp [execDataIn, this]

/-! UNKNOWN. -/

theorem plain_unknownActions : ∀ a ∈ unknownActions, plain a = true := by simp [unknownActions]

/-! The launch. -/

/-- One action of ENG that is neither the clear of RXLEN nor the end of a direct boot, the turns before it included. -/
theorem drive_act (c : Config.Env) {a : Action} {k : List Action} {s : State} (he : s.eph = .busy (a :: k))
    (hb : a ≠ .bootReturn) (hd : a ≠ .discard) (hq : quiet s = true) :
    ∃ t, drive c s = drive c t ∧ EngineSame (act c a k s) t ∧ RxSide s t ∧ s.rxlen ≤ t.rxlen ∧ t.sched <:+ s.sched ∧
      (s.tmrEn = false ∨ noTick s = true → t.tmrCnt = (perform c a s).tmrCnt) := by
  obtain ⟨u, hu, hdr⟩ := drive_quiet c he hb hq
  have hrx : (act c a k u).rxbuf = u.rxbuf ∧ (act c a k u).rxlen = u.rxlen ∧ (act c a k u).wire = u.wire := by
    cases a <;> first | exact ⟨rfl, rfl, rfl⟩ | exact absurd rfl hd
  refine ⟨act c a k u, hdr, act_congr c a k hu.engine, ⟨?_, fun i hi => ?_⟩, ?_, ?_, fun hc => ?_⟩
  · rw [hrx.2.2]
    exact hu.rx.wire
  · rw [hrx.1]
    exact hu.rx.sampled i hi
  · rw [hrx.2.1]
    exact hu.rxlen
  · rw [sched_act]
    exact hu.sched
  · have := hu.count hc
    cases a <;> first | exact this | rfl

/-- The engine's fields after a successful launch from `s` (43 R214 to R218). -/
def launched (p : Config.Params) (s : State) : State :=
  { s with lstate := .valid, cpuImask := true, tmrEn := false, cpuVtbase := p.appBase, cpuMsp := imageSp p s.nvm,
           cpuPc := imageEntry p s.nvm, dstate := .launched, eph := .gone }

/-- The fields of a launched machine, as 43 R221 lists them. -/
theorem hasLaunched_of_launched {p : Config.Params} {s t : State} (e : EngineSame (launched p s) t)
    (h : t.tmrCnt = 0) : HasLaunched p (imageSp p s.nvm) (imageEntry p s.nvm) t :=
  ⟨e.eph, e.dstate, e.lstate, e.cpuImask, e.tmrEn, h, e.cpuVtbase, e.cpuMsp, e.cpuPc⟩

/-- `Launch()` under a quiet schedule (43 R211 to R218): on an image whose first word is in the RAM range control
leaves; otherwise LSTATE is REJECTED and the run goes on behind it. -/
theorem drive_launch (c : Config.Env) (k : List Action) {s : State} (he : s.eph = .busy (launchActions ++ k))
    (hq : quiet s = true) :
    (c.params.inRam (imageSp c.params s.nvm) = true ∧
      EngineSame (launched c.params s) (drive c s) ∧ (drive c s).tmrCnt = 0 ∧ RxSide s (drive c s)) ∨
    (c.params.inRam (imageSp c.params s.nvm) = false ∧
      ∃ t, drive c s = drive c t ∧ EngineSame (setPhase (phaseOf k) (setLstate .rejected s)) t ∧ RxSide s t ∧
        s.rxlen ≤ t.rxlen ∧ t.sched <:+ s.sched ∧ (s.tmrEn = false ∨ noTick s = true → t.tmrCnt = s.tmrCnt)) := by
  obtain ⟨t1, d1, e1, r1, l1, q1, c1⟩ := drive_act c (k := .readSp :: k) he (by decide) (by decide) hq
  have hq1 := quiet_of_suffix q1 hq
  obtain ⟨t2, d2, e2, r2, l2, q2, c2⟩ := drive_act c (s := t1) (a := .readSp) (k := k) e1.eph (by decide) (by decide) hq1
  have hq2 := quiet_of_suffix q2 hq1
  have hn1 : t1.nvm = s.nvm := e1.nvm
  have hn2 : t2.nvm = s.nvm := e2.nvm.trans hn1
  have hp2 : t2.eph = phaseOf (afterSp c.params (imageSp c.params s.nvm) ++ k) := by
    rw [e2.eph, act_eph, hn1]
    rfl
  have trans3 : ∀ {a b d e : State}, RxSide a b → a.rxlen ≤ b.rxlen → RxSide b d → b.rxlen ≤ d.rxlen → RxSide d e →
      RxSide a e := fun hab lab hbd lbd hde =>
    ⟨hde.wire.trans (hbd.wire.trans hab.wire), fun i hi => by
      rw [hde.sampled i (by omega), hbd.sampled i (by omega), hab.sampled i hi]⟩
  by_cases hin : c.params.inRam (imageSp c.params s.nvm) = true
  · left
    refine ⟨hin, ?_⟩
    have hp2 : t2.eph = .busy (.setLstate .valid :: .readEntry (imageSp c.params s.nvm) :: k) := by
      rw [hp2, afterSp, if_pos hin]
      rfl
    generalize hsp : imageSp c.params s.nvm = sp at *
    obtain ⟨t3, d3, e3, r3, l3, q3, c3⟩ := drive_act c hp2 (by decide) (by decide) hq2
    have hq3 := quiet_of_suffix q3 hq2
    obtain ⟨t4, d4, e4, r4, l4, q4, c4⟩ := drive_act c (s := t3) (a := .readEntry sp) (k := k) e3.eph (by simp) (by simp) hq3
    have hq4 := quiet_of_suffix q4 hq3
    have hn3 : t3.nvm = s.nvm := e3.nvm.trans hn2
    have hp4 : t4.eph = phaseOf (afterEntry c.params sp (imageEntry c.params s.nvm) ++ k) := by
      rw [e4.eph, act_eph, hn3]
      rfl
    generalize hen : imageEntry c.params s.nvm = en at *
    obtain ⟨t5, d5, e5, r5, l5, q5, c5⟩ := drive_act c (s := t4) (a := .maskInterrupts) hp4 (by decide) (by decide) hq4
    have hq5 := quiet_of_suffix q5 hq4
    obtain ⟨t6, d6, e6, r6, l6, q6, c6⟩ := drive_act c (s := t5) (a := .timerDisable) e5.eph (by decide) (by decide) hq5
    have hq6 := quiet_of_suffix q6 hq5
    have hoff6 : t6.tmrEn = false := e6.tmrEn
    obtain ⟨t7, d7, e7, r7, l7, q7, c7⟩ := drive_act c (s := t6) (a := .timerZero) e6.eph (by decide) (by decide) hq6
    have hq7 := quiet_of_suffix q7 hq6
    have hz7 : t7.tmrCnt = 0 := c7 (.inl hoff6)
    obtain ⟨t8, h8, d8⟩ := drive_plain c [.setVtbase c.params.appBase, .setMsp sp, .setPc en] (.leave :: k) (s := t7) e7.eph
      (by simp) hq7
    have hoff7 : t7.tmrEn = false := e7.tmrEn.trans hoff6
    obtain ⟨t9, d9, e9, r9, l9, q9, c9⟩ := drive_act c (s := t8) (a := .leave) (k := k) h8.engine.eph (by decide) (by decide)
      (quiet_of_suffix h8.sched hq7)
    have hgone : t9.eph = .gone := e9.eph
    have hoff8 : t8.tmrEn = false := h8.engine.tmrEn.trans hoff7
    have hend : drive c s = t9 := by
      rw [d1, d2, d3, d4, d5, d6, d7, d8, d9, drive_gone c hgone]
    rw [hend]
    have eall : EngineSame (launched c.params s) t9 := by
      rw [launched, hsp, hen, engineSame_eq e9, engineSame_eq h8.engine, engineSame_eq e7, engineSame_eq e6, engineSame_eq e5,
        engineSame_eq e4, engineSame_eq e3, engineSame_eq e2, engineSame_eq e1]
      constructor <;> rfl
    refine ⟨eall, ?_, ?_⟩
    · exact (c9 (.inl hoff8)).trans ((h8.count (.inl hoff7)).trans hz7)
    · have ha := trans3 r1 l1 r2 l2 r3
      have hb := trans3 r4 l4 r5 l5 r6
      have hc := trans3 r7 l7 h8.rx h8.rxlen r9
      exact trans3 ha (by omega) hb (by omega) hc
  · right
    have hout : c.params.inRam (imageSp c.params s.nvm) = false := by simpa using hin
    refine ⟨hout, ?_⟩
    have hp2 : t2.eph = .busy (.setLstate .rejected :: k) := by
      rw [hp2, afterSp, hout]
      rfl
    obtain ⟨t3, d3, e3, r3, l3, q3, c3⟩ := drive_act c hp2 (by decide) (by decide) hq2
    refine ⟨t3, by rw [d1, d2, d3], ?_, trans3 r1 l1 r2 l2 r3, by omega, q3.trans (q2.trans q1), fun hc => ?_⟩
    · rw [engineSame_eq e3, engineSame_eq e2, engineSame_eq e1]
      constructor <;> rfl
    · have hc1 : t1.tmrEn = false ∨ noTick t1 = true := hc.imp (fun h => e1.tmrEn.trans h) (noTick_of_suffix q1)
      have hc2 : t2.tmrEn = false ∨ noTick t2 = true := hc1.imp (fun h => e2.tmrEn.trans h) (noTick_of_suffix q2)
      exact (c3 hc2).trans ((c2 hc1).trans (c1 hc))

end Sys2Proof.Machine
end

