-- ==== Sys2Proof/Laws/Decode.lean ====
section
/-! SUPPORT. Small laws of the frame format (spec 30 R90 to R94), for the proofs about decoding and encoding. -/

namespace Sys2Proof

/-- The sum of R94 over a concatenation. -/
theorem byteSum_append (a b : List Byte) : byteSum (a ++ b) = byteSum a + byteSum b := by
  induction a with
  | nil => simp [byteSum]
  | cons x a ih => simp [byteSum, ih, BitVec.add_assoc]

/-- The modular sum as an exact sum reduced modulo 256 (R94). -/
theorem toNat_byteSum (bs : List Byte) : (byteSum bs).toNat = (bs.map BitVec.toNat).sum % 256 := by
  induction bs with
  | nil => rfl
  | cons b bs ih =>
    simp only [byteSum, BitVec.toNat_add, ih, List.map_cons, List.sum_cons]
    omega

/-- The two length bytes of an encoded frame give back the length (R92, R103). -/
theorem payloadLength_ofNat {n : Nat} (h : n < 65536) :
    payloadLength (BitVec.ofNat 8 n) (BitVec.ofNat 8 (n / 256)) = n := by
  simp only [payloadLength, BitVec.toNat_ofNat]
  omega

/-- The length field is 16 bits (R92). -/
theorem payloadLength_lt (lo hi : Byte) : payloadLength lo hi < 65536 := by
  have := lo.isLt
  have := hi.isLt
  simp only [payloadLength]
  omega

/-- The length bytes are determined by the length (R92). -/
theorem ofNat_payloadLength (lo hi : Byte) :
    BitVec.ofNat 8 (payloadLength lo hi) = lo ∧ BitVec.ofNat 8 (payloadLength lo hi / 256) = hi := by
  have h1 := lo.isLt
  have h2 := hi.isLt
  constructor <;> apply BitVec.eq_of_toNat_eq <;> simp only [payloadLength, BitVec.toNat_ofNat] <;> omega

@[simp] theorem code_selectCommand (cmd : Byte) (p : List Byte) : (selectCommand cmd p).code = cmd := by
  unfold selectCommand
  split_ifs with h1 h2 h3 <;> simp [Instr.code, *]

@[simp] theorem payload_selectCommand (cmd : Byte) (p : List Byte) : (selectCommand cmd p).payload = p := by
  unfold selectCommand
  split_ifs <;> rfl

/-- The length of a frame is 6 + N (R93). -/
theorem length_frameBytes (k : Config.Sync) (cmd : Byte) (p : List Byte) :
    (frameBytes k cmd p).length = 6 + p.length := by
  simp [frameBytes]
  omega

/-- Bytes behind a complete frame are surplus and change nothing of what it decodes to (R93; 40 R125, R128). -/
theorem decodeWith_append {k : Config.Sync} {buf more surplus : List Byte} {i : Instr}
    (h : decodeWith k buf = .frame i surplus) : decodeWith k (buf ++ more) = .frame i (surplus ++ more) := by
  unfold decodeWith at h
  split at h
  · rename_i b0 b1 cmd lo hi b5 rest
    split at h
    · rename_i hs
      simp only [List.cons_append, decodeWith]
      rw [if_pos hs, ← List.cons_append]
      unfold decodeBody at h ⊢
      split at h
      · cases h
      · rename_i sum rest' hd
        have hn : payloadLength lo hi ≤ (b5 :: rest).length := by
          have := congrArg List.length hd
          simp only [List.length_drop, List.length_cons] at this ⊢
          omega
        rw [List.drop_append_of_le_length hn, hd, List.take_append_of_le_length hn]
        simp only [List.cons_append]
        split at h
        · rename_i hc
          cases h
          rw [if_pos hc]
        · cases h
    · cases h
  · cases h

end Sys2Proof
end

