-- ==== Sys2Proof/Laws/Pause.lean ====
section
/-! SUPPORT. The run of a pass turn by turn, and what a pause in its schedule does to it: the paused state goes on to
what the run without the pause gives, or the run ends before the pause (spec 10 R27, R28; 20 R70). -/

namespace Sys2Proof.Machine

open Sys2Proof.Safety

@[simp] theorem setSched_setSched (us vs : List Turn) (s : State) : setSched us (setSched vs s) = setSched us s := rfl

theorem setSched_self {us : List Turn} {s : State} (h : s.sched = us) : setSched us s = s := by
  subst h
  rfl

theorem setSched_act (c : Config.Env) (a : Action) (k : List Action) (us : List Turn) (s : State) :
    setSched us (act c a k s) = act c a k (setSched us s) := by
  cases a <;> rfl

theorem setSched_setPhase (us : List Turn) (v : Phase) (s : State) :
    setSched us (setPhase v s) = setPhase v (setSched us s) := rfl

/-- Outside a pass there is nothing to go on with. -/
theorem drive_of_not_midPass (c : Config.Env) {s : State} (h : ¬ MidPass s) : drive c s = s := by
  rcases he : s.eph with _ | k | _
  · exact drive_poll c he
  · cases k with
    | nil => exact drive_busy_nil c he
    | cons a k =>
      by_cases hb : a = .bootReturn
      · subst hb
        exact drive_bootReturn c he
      · exact absurd ⟨a, k, he, hb⟩ h
  · exact drive_gone c he

theorem drive_nil (c : Config.Env) {a : Action} {k : List Action} {s : State} (he : s.eph = .busy (a :: k))
    (hb : a ≠ .bootReturn) (hs : s.sched = []) : drive c s = drive c (act c a k s) := by
  rw [drive_busy c he hb, interleave, hs]

theorem drive_eng (c : Config.Env) {a : Action} {k : List Action} {s : State} {ts : List Turn}
    (he : s.eph = .busy (a :: k)) (hb : a ≠ .bootReturn) (hs : s.sched = .eng :: ts) :
    drive c s = drive c (act c a k (setSched ts s)) := by
  rw [drive_busy c he hb, interleave, hs]

theorem drive_rx (c : Config.Env) {s : State} {ts : List Turn} (hm : MidPass s) (hs : s.sched = .rx :: ts) :
    drive c s = drive c (rxAppend c (setSched ts s)) := by
  obtain ⟨a, k, he, hb⟩ := hm
  rw [drive_busy c he hb, interleave, hs]

theorem drive_tick (c : Config.Env) {s : State} {ts : List Turn} (hm : MidPass s) (hs : s.sched = .tick :: ts) :
    drive c s = drive c (timerTick c (setSched ts s)) := by
  obtain ⟨a, k, he, hb⟩ := hm
  rw [drive_busy c he hb, interleave, hs]

theorem drive_pause (c : Config.Env) {s : State} {ts : List Turn} (hm : MidPass s) (hs : s.sched = .pause :: ts) :
    drive c s = setSched ts s := by
  obtain ⟨a, k, he, hb⟩ := hm
  rw [drive_busy c he hb, interleave, hs]

/-- How a run whose schedule holds a pause, behind turns that go on, is related to the run without the pause. -/
structure PausedAt (c : Config.Env) (us : List Turn) (t u : State) : Prop where
  mid : MidPass t
  sched : t.sched = us
  resume : u = drive c t

/-- The run ended before its pause, which is still in the schedule, behind the turns that were not needed. -/
structure EndedBefore (pre us : List Turn) (t u : State) : Prop where
  ended : ¬ MidPass t
  rest : ∃ post, post <:+ pre ∧ t.sched = post ++ .pause :: us ∧ u = setSched (post ++ us) t

/-- A pause behind turns that go on: the run is paused there and goes on to what the run without the pause gives, or it
has ended before. -/
theorem drive_paused (c : Config.Env) (pre us : List Turn) {s : State} (hs : s.sched = pre ++ .pause :: us)
    (hp : pre.all goesOn = true) :
    PausedAt c us (drive c s) (drive c (setSched (pre ++ us) s)) ∨
      EndedBefore pre us (drive c s) (drive c (setSched (pre ++ us) s)) := by
  induction pre generalizing s with
  | nil =>
    by_cases hm : MidPass s
    · left
      have hd := drive_pause c hm hs
      rw [hd]
      exact ⟨hm, rfl, rfl⟩
    · right
      rw [drive_of_not_midPass c hm]
      exact ⟨hm, [], List.suffix_refl _, hs, drive_of_not_midPass c hm⟩
  | cons x pre ih =>
    simp only [List.all_cons, Bool.and_eq_true] at hp
    have later : ∀ s1 : State, s1.sched = pre ++ .pause :: us → drive c s = drive c s1 →
        drive c (setSched (x :: pre ++ us) s) = drive c (setSched (pre ++ us) s1) →
        PausedAt c us (drive c s) (drive c (setSched (x :: pre ++ us) s)) ∨
          EndedBefore (x :: pre) us (drive c s) (drive c (setSched (x :: pre ++ us) s)) := by
      intro s1 h1 h2 h3
      rw [h2, h3]
      rcases ih h1 hp.2 with h | ⟨h, post, hpost, hr⟩
      · exact .inl h
      · exact .inr ⟨h, post, hpost.trans (List.suffix_cons _ _), hr⟩
    by_cases hm : MidPass s
    · obtain ⟨a, k, he, hb⟩ := hm
      cases x with
      | eng =>
        refine later (act c a k (setSched (pre ++ .pause :: us) s)) (by rw [sched_act]; rfl) (drive_eng c he hb hs) ?_
        rw [setSched_act]
        exact drive_eng c (s := setSched (.eng :: pre ++ us) s) he hb rfl
      | rx =>
        exact later _ rfl (drive_rx c ⟨a, k, he, hb⟩ hs) (drive_rx c (s := setSched (.rx :: pre ++ us) s) ⟨a, k, he, hb⟩ rfl)
      | tick =>
        exact later _ rfl (drive_tick c ⟨a, k, he, hb⟩ hs)
          (drive_tick c (s := setSched (.tick :: pre ++ us) s) ⟨a, k, he, hb⟩ rfl)
      | pause => cases hp.1
      | reset e => cases hp.1
    · right
      rw [drive_of_not_midPass c hm]
      exact ⟨hm, x :: pre, List.suffix_refl _, hs, drive_of_not_midPass c hm⟩

end Sys2Proof.Machine
end

