-- ==== Sys2Proof/Laws/PerInstr.lean ====
section
/-! SUPPORT. Statements about every instruction, one lemma per constructor. -/

namespace Sys2Proof.Laws.FrameShape

/-- The frame of a well-formed instruction (spec 30 R90, R93): 6 + N bytes, between 6 and 65541, its command byte at
offset 2, and its payload from offset 5 on. -/
def Statement (i : Instr) : Prop :=
  i.wellFormed = true →
    (encode i).length = 6 + i.payload.length ∧ 6 ≤ (encode i).length ∧ (encode i).length ≤ 65541 ∧
      (encode i)[2]? = some i.code ∧ ((encode i).drop 5).take i.payload.length = i.payload

theorem of_fits (i : Instr) (h : payloadFits i.payload = true) :
    (encode i).length = 6 + i.payload.length ∧ 6 ≤ (encode i).length ∧ (encode i).length ≤ 65541 ∧
      (encode i)[2]? = some i.code ∧ ((encode i).drop 5).take i.payload.length = i.payload := by
  have hl : (encode i).length = 6 + i.payload.length := length_frameBytes _ _ _
  have hp : i.payload.length < 65536 := by simpa [payloadFits] using h
  refine ⟨hl, by omega, by omega, rfl, ?_⟩
  simp [encode, encodeWith, frameBytes]

theorem connect (payload : List Byte) : Statement (.connect payload) := fun h => of_fits (.connect payload) h

theorem data (payload : List Byte) : Statement (.data payload) := fun h => of_fits (.data payload) h

theorem finish (payload : List Byte) : Statement (.finish payload) := fun h => of_fits (.finish payload) h

theorem unknown (cmd : Byte) (payload : List Byte) : Statement (.unknown cmd payload) := fun h =>
  of_fits (.unknown cmd payload) ((Bool.and_eq_true _ _).mp h).2

end Sys2Proof.Laws.FrameShape
end

