-- ==== Sys2Proof/Laws/Safety.lean ====
section
/-! SUPPORT. The traces of the invariants, action by action, each true by rfl (spec 10 R31, R49; 43 R214 to R218). -/

namespace Sys2Proof.Safety

open Sys2Proof.Machine

/-! `lockTrace` -/

@[simp] theorem lockTrace_nil (l : Bool) : lockTrace [] l = l := rfl
@[simp] theorem lockTrace_tx (b : Byte) (k : List Action) (l : Bool) :
    lockTrace (.tx b :: k) l = lockTrace k l := rfl
@[simp] theorem lockTrace_nvmUnlock (k : List Action) (l : Bool) :
    lockTrace (.nvmUnlock :: k) l = lockTrace k false := rfl
@[simp] theorem lockTrace_nvmLock (k : List Action) (l : Bool) :
    lockTrace (.nvmLock :: k) l = lockTrace k true := rfl
@[simp] theorem lockTrace_nvmClearFlags (k : List Action) (l : Bool) :
    lockTrace (.nvmClearFlags :: k) l = lockTrace k l := rfl
@[simp] theorem lockTrace_nvmEraseSector (r : Config.Region) (k : List Action) (l : Bool) :
    lockTrace (.nvmEraseSector r :: k) l = (!l && lockTrace k l) := rfl
@[simp] theorem lockTrace_nvmProgramWord (a w : Word) (k : List Action) (l : Bool) :
    lockTrace (.nvmProgramWord a w :: k) l = (!l && lockTrace k l) := rfl
@[simp] theorem lockTrace_setCursor (v : Word) (k : List Action) (l : Bool) :
    lockTrace (.setCursor v :: k) l = lockTrace k l := rfl
@[simp] theorem lockTrace_setDstate (v : DState) (k : List Action) (l : Bool) :
    lockTrace (.setDstate v :: k) l = lockTrace k l := rfl
@[simp] theorem lockTrace_setLstate (v : LState) (k : List Action) (l : Bool) :
    lockTrace (.setLstate v :: k) l = lockTrace k l := rfl
@[simp] theorem lockTrace_delay (n : Nat) (k : List Action) (l : Bool) :
    lockTrace (.delay n :: k) l = lockTrace k l := rfl
@[simp] theorem lockTrace_readSp (k : List Action) (l : Bool) :
    lockTrace (.readSp :: k) l = (l && lockTrace k l) := rfl
@[simp] theorem lockTrace_readEntry (v : Word) (k : List Action) (l : Bool) :
    lockTrace (.readEntry v :: k) l = (l && lockTrace k l) := rfl
@[simp] theorem lockTrace_maskInterrupts (k : List Action) (l : Bool) :
    lockTrace (.maskInterrupts :: k) l = lockTrace k l := rfl
@[simp] theorem lockTrace_timerDisable (k : List Action) (l : Bool) :
    lockTrace (.timerDisable :: k) l = lockTrace k l := rfl
@[simp] theorem lockTrace_timerZero (k : List Action) (l : Bool) :
    lockTrace (.timerZero :: k) l = lockTrace k l := rfl
@[simp] theorem lockTrace_setVtbase (v : Word) (k : List Action) (l : Bool) :
    lockTrace (.setVtbase v :: k) l = lockTrace k l := rfl
@[simp] theorem lockTrace_setMsp (v : Word) (k : List Action) (l : Bool) :
    lockTrace (.setMsp v :: k) l = lockTrace k l := rfl
@[simp] theorem lockTrace_setPc (v : Word) (k : List Action) (l : Bool) :
    lockTrace (.setPc v :: k) l = lockTrace k l := rfl
@[simp] theorem lockTrace_leave (k : List Action) (l : Bool) :
    lockTrace (.leave :: k) l = l := rfl
@[simp] theorem lockTrace_discard (k : List Action) (l : Bool) :
    lockTrace (.discard :: k) l = lockTrace k l := rfl
@[simp] theorem lockTrace_bootReturn (k : List Action) (l : Bool) :
    lockTrace (.bootReturn :: k) l = lockTrace k l := rfl

/-! `launchTrace` -/

@[simp] theorem launchTrace_nil (p : Config.Params) (im te z : Bool) (vt sp : Word) :
    launchTrace p [] im te z vt sp = true := rfl
@[simp] theorem launchTrace_tx (p : Config.Params) (b : Byte) (k : List Action) (im te z : Bool) (vt sp : Word) :
    launchTrace p (.tx b :: k) im te z vt sp = launchTrace p k im te z vt sp := rfl
@[simp] theorem launchTrace_nvmUnlock (p : Config.Params) (k : List Action) (im te z : Bool) (vt sp : Word) :
    launchTrace p (.nvmUnlock :: k) im te z vt sp = launchTrace p k im te z vt sp := rfl
@[simp] theorem launchTrace_nvmLock (p : Config.Params) (k : List Action) (im te z : Bool) (vt sp : Word) :
    launchTrace p (.nvmLock :: k) im te z vt sp = launchTrace p k im te z vt sp := rfl
@[simp] theorem launchTrace_nvmClearFlags (p : Config.Params) (k : List Action) (im te z : Bool) (vt sp : Word) :
    launchTrace p (.nvmClearFlags :: k) im te z vt sp = launchTrace p k im te z vt sp := rfl
@[simp] theorem launchTrace_nvmEraseSector (p : Config.Params) (r : Config.Region) (k : List Action) (im te z : Bool) (vt sp : Word) :
    launchTrace p (.nvmEraseSector r :: k) im te z vt sp = launchTrace p k im te z vt sp := rfl
@[simp] theorem launchTrace_nvmProgramWord (p : Config.Params) (a w : Word) (k : List Action) (im te z : Bool) (vt sp : Word) :
    launchTrace p (.nvmProgramWord a w :: k) im te z vt sp = launchTrace p k im te z vt sp := rfl
@[simp] theorem launchTrace_setCursor (p : Config.Params) (v : Word) (k : List Action) (im te z : Bool) (vt sp : Word) :
    launchTrace p (.setCursor v :: k) im te z vt sp = launchTrace p k im te z vt sp := rfl
@[simp] theorem launchTrace_setDstate_launched (p : Config.Params) (k : List Action) (im te z : Bool) (vt sp : Word) :
    launchTrace p (.setDstate .launched :: k) im te z vt sp = false := rfl
@[simp] theorem launchTrace_setDstate_idle (p : Config.Params) (k : List Action) (im te z : Bool) (vt sp : Word) :
    launchTrace p (.setDstate .idle :: k) im te z vt sp = launchTrace p k im te z vt sp := rfl
@[simp] theorem launchTrace_setDstate_connected (p : Config.Params) (k : List Action) (im te z : Bool) (vt sp : Word) :
    launchTrace p (.setDstate .connected :: k) im te z vt sp = launchTrace p k im te z vt sp := rfl
@[simp] theorem launchTrace_setLstate (p : Config.Params) (v : LState) (k : List Action) (im te z : Bool) (vt sp : Word) :
    launchTrace p (.setLstate v :: k) im te z vt sp = launchTrace p k im te z vt sp := rfl
@[simp] theorem launchTrace_delay (p : Config.Params) (n : Nat) (k : List Action) (im te z : Bool) (vt sp : Word) :
    launchTrace p (.delay n :: k) im te z vt sp = launchTrace p k im te z vt sp := rfl
@[simp] theorem launchTrace_readSp (p : Config.Params) (k : List Action) (im te z : Bool) (vt sp : Word) :
    launchTrace p (.readSp :: k) im te z vt sp = launchTrace p k im te z vt sp := rfl
@[simp] theorem launchTrace_readEntry (p : Config.Params) (v : Word) (k : List Action) (im te z : Bool) (vt sp : Word) :
    launchTrace p (.readEntry v :: k) im te z vt sp = (p.inRam v && launchTrace p k im te z vt sp) := rfl
@[simp] theorem launchTrace_maskInterrupts (p : Config.Params) (k : List Action) (im te z : Bool) (vt sp : Word) :
    launchTrace p (.maskInterrupts :: k) im te z vt sp = launchTrace p k true te z vt sp := rfl
@[simp] theorem launchTrace_timerDisable (p : Config.Params) (k : List Action) (im te z : Bool) (vt sp : Word) :
    launchTrace p (.timerDisable :: k) im te z vt sp = launchTrace p k im false z vt sp := rfl
@[simp] theorem launchTrace_timerZero (p : Config.Params) (k : List Action) (im te z : Bool) (vt sp : Word) :
    launchTrace p (.timerZero :: k) im te z vt sp = launchTrace p k im te (!te) vt sp := rfl
@[simp] theorem launchTrace_setVtbase (p : Config.Params) (v : Word) (k : List Action) (im te z : Bool) (vt sp : Word) :
    launchTrace p (.setVtbase v :: k) im te z vt sp = launchTrace p k im te z v sp := rfl
@[simp] theorem launchTrace_setMsp (p : Config.Params) (v : Word) (k : List Action) (im te z : Bool) (vt sp : Word) :
    launchTrace p (.setMsp v :: k) im te z vt sp = launchTrace p k im te z vt v := rfl
@[simp] theorem launchTrace_setPc (p : Config.Params) (v : Word) (k : List Action) (im te z : Bool) (vt sp : Word) :
    launchTrace p (.setPc v :: k) im te z vt sp = launchTrace p k im te z vt sp := rfl
@[simp] theorem launchTrace_leave (p : Config.Params) (k : List Action) (im te z : Bool) (vt sp : Word) :
    launchTrace p (.leave :: k) im te z vt sp = (im && !te && z && decide (vt = p.appBase) && p.inRam sp) := rfl
@[simp] theorem launchTrace_discard (p : Config.Params) (k : List Action) (im te z : Bool) (vt sp : Word) :
    launchTrace p (.discard :: k) im te z vt sp = launchTrace p k im te z vt sp := rfl
@[simp] theorem launchTrace_bootReturn (p : Config.Params) (k : List Action) (im te z : Bool) (vt sp : Word) :
    launchTrace p (.bootReturn :: k) im te z vt sp = launchTrace p k im te z vt sp := rfl

/-- A timer that stands still at zero is no obstacle to a launch that would succeed without it. -/
theorem launchTrace_mono (p : Config.Params) (k : List Action) (im te : Bool) (vt sp : Word)
    (h : launchTrace p k im te false vt sp = true) (z : Bool) : launchTrace p k im te z vt sp = true := by
  cases z with
  | false => exact h
  | true =>
    induction k generalizing im te vt sp with
    | nil => rfl
    | cons a k ih =>
      cases a with
      | setDstate v => cases v <;> first | exact ih _ _ _ _ h | cases h
      | timerZero => exact h
      | leave => simp at h
      | readEntry v =>
        simp only [launchTrace_readEntry, Bool.and_eq_true] at h ⊢
        exact ⟨h.1, ih _ _ _ _ h.2⟩
      | _ => exact ih _ _ _ _ h

/-- The trace of a list behind a list of controller operations. -/
theorem launchTrace_map_erase (p : Config.Params) (rs : List Config.Region) (k : List Action) (im te z : Bool)
    (vt sp : Word) :
    launchTrace p (rs.map Action.nvmEraseSector ++ k) im te z vt sp = launchTrace p k im te z vt sp := by
  induction rs with
  | nil => rfl
  | cons r rs ih => simpa using ih

theorem launchTrace_map_program (p : Config.Params) (addr : Nat) (data : List Byte) (cells : List Nat)
    (k : List Action) (im te z : Bool) (vt sp : Word) :
    launchTrace p (cells.map (programAction addr data) ++ k) im te z vt sp = launchTrace p k im te z vt sp := by
  induction cells with
  | nil => rfl
  | cons r rs ih => simpa [programAction] using ih

theorem lockTrace_map_erase (rs : List Config.Region) (k : List Action) :
    lockTrace (rs.map Action.nvmEraseSector ++ k) false = lockTrace k false := by
  induction rs with
  | nil => rfl
  | cons r rs ih => simpa using ih

theorem lockTrace_map_program (addr : Nat) (data : List Byte) (cells : List Nat) (k : List Action) :
    lockTrace (cells.map (programAction addr data) ++ k) false = lockTrace k false := by
  induction cells with
  | nil => rfl
  | cons r rs ih => simpa [programAction] using ih

/-! `cursorWrites` and `cursorTrace` -/

@[simp] theorem cursorWrites_nil : cursorWrites [] = [] := rfl
@[simp] theorem cursorTrace_nil : cursorTrace [] = true := rfl
@[simp] theorem cursorWrites_tx (b : Byte) (k : List Action) :
    cursorWrites (.tx b :: k) = cursorWrites k := rfl
@[simp] theorem cursorTrace_tx (b : Byte) (k : List Action) :
    cursorTrace (.tx b :: k) = cursorTrace k := rfl
@[simp] theorem cursorWrites_nvmUnlock (k : List Action) :
    cursorWrites (.nvmUnlock :: k) = cursorWrites k := rfl
@[simp] theorem cursorTrace_nvmUnlock (k : List Action) :
    cursorTrace (.nvmUnlock :: k) = cursorTrace k := rfl
@[simp] theorem cursorWrites_nvmLock (k : List Action) :
    cursorWrites (.nvmLock :: k) = cursorWrites k := rfl
@[simp] theorem cursorTrace_nvmLock (k : List Action) :
    cursorTrace (.nvmLock :: k) = cursorTrace k := rfl
@[simp] theorem cursorWrites_nvmClearFlags (k : List Action) :
    cursorWrites (.nvmClearFlags :: k) = cursorWrites k := rfl
@[simp] theorem cursorTrace_nvmClearFlags (k : List Action) :
    cursorTrace (.nvmClearFlags :: k) = cursorTrace k := rfl
@[simp] theorem cursorWrites_nvmEraseSector (r : Config.Region) (k : List Action) :
    cursorWrites (.nvmEraseSector r :: k) = cursorWrites k := rfl
@[simp] theorem cursorTrace_nvmEraseSector (r : Config.Region) (k : List Action) :
    cursorTrace (.nvmEraseSector r :: k) = cursorTrace k := rfl
@[simp] theorem cursorWrites_nvmProgramWord (a w : Word) (k : List Action) :
    cursorWrites (.nvmProgramWord a w :: k) = cursorWrites k := rfl
@[simp] theorem cursorTrace_nvmProgramWord (a w : Word) (k : List Action) :
    cursorTrace (.nvmProgramWord a w :: k) = cursorTrace k := rfl
@[simp] theorem cursorWrites_setCursor (v : Word) (k : List Action) :
    cursorWrites (.setCursor v :: k) = v :: cursorWrites k := rfl
@[simp] theorem cursorTrace_setCursor (v : Word) (k : List Action) :
    cursorTrace (.setCursor v :: k) = (cursorWrites k).isEmpty := rfl
@[simp] theorem cursorWrites_setDstate (v : DState) (k : List Action) :
    cursorWrites (.setDstate v :: k) = cursorWrites k := rfl
@[simp] theorem cursorTrace_setDstate (v : DState) (k : List Action) :
    cursorTrace (.setDstate v :: k) = cursorTrace k := rfl
@[simp] theorem cursorWrites_setLstate (v : LState) (k : List Action) :
    cursorWrites (.setLstate v :: k) = cursorWrites k := rfl
@[simp] theorem cursorTrace_setLstate (v : LState) (k : List Action) :
    cursorTrace (.setLstate v :: k) = cursorTrace k := rfl
@[simp] theorem cursorWrites_delay (n : Nat) (k : List Action) :
    cursorWrites (.delay n :: k) = cursorWrites k := rfl
@[simp] theorem cursorTrace_delay (n : Nat) (k : List Action) :
    cursorTrace (.delay n :: k) = cursorTrace k := rfl
@[simp] theorem cursorWrites_readSp (k : List Action) :
    cursorWrites (.readSp :: k) = cursorWrites k := rfl
@[simp] theorem cursorTrace_readSp (k : List Action) :
    cursorTrace (.readSp :: k) = cursorTrace k := rfl
@[simp] theorem cursorWrites_readEntry (v : Word) (k : List Action) :
    cursorWrites (.readEntry v :: k) = cursorWrites k := rfl
@[simp] theorem cursorTrace_readEntry (v : Word) (k : List Action) :
    cursorTrace (.readEntry v :: k) = cursorTrace k := rfl
@[simp] theorem cursorWrites_maskInterrupts (k : List Action) :
    cursorWrites (.maskInterrupts :: k) = cursorWrites k := rfl
@[simp] theorem cursorTrace_maskInterrupts (k : List Action) :
    cursorTrace (.maskInterrupts :: k) = cursorTrace k := rfl
@[simp] theorem cursorWrites_timerDisable (k : List Action) :
    cursorWrites (.timerDisable :: k) = cursorWrites k := rfl
@[simp] theorem cursorTrace_timerDisable (k : List Action) :
    cursorTrace (.timerDisable :: k) = cursorTrace k := rfl
@[simp] theorem cursorWrites_timerZero (k : List Action) :
    cursorWrites (.timerZero :: k) = cursorWrites k := rfl
@[simp] theorem cursorTrace_timerZero (k : List Action) :
    cursorTrace (.timerZero :: k) = cursorTrace k := rfl
@[simp] theorem cursorWrites_setVtbase (v : Word) (k : List Action) :
    cursorWrites (.setVtbase v :: k) = cursorWrites k := rfl
@[simp] theorem cursorTrace_setVtbase (v : Word) (k : List Action) :
    cursorTrace (.setVtbase v :: k) = cursorTrace k := rfl
@[simp] theorem cursorWrites_setMsp (v : Word) (k : List Action) :
    cursorWrites (.setMsp v :: k) = cursorWrites k := rfl
@[simp] theorem cursorTrace_setMsp (v : Word) (k : List Action) :
    cursorTrace (.setMsp v :: k) = cursorTrace k := rfl
@[simp] theorem cursorWrites_setPc (v : Word) (k : List Action) :
    cursorWrites (.setPc v :: k) = cursorWrites k := rfl
@[simp] theorem cursorTrace_setPc (v : Word) (k : List Action) :
    cursorTrace (.setPc v :: k) = cursorTrace k := rfl
@[simp] theorem cursorWrites_leave (k : List Action) :
    cursorWrites (.leave :: k) = cursorWrites k := rfl
@[simp] theorem cursorTrace_leave (k : List Action) :
    cursorTrace (.leave :: k) = cursorTrace k := rfl
@[simp] theorem cursorWrites_discard (k : List Action) :
    cursorWrites (.discard :: k) = cursorWrites k := rfl
@[simp] theorem cursorTrace_discard (k : List Action) :
    cursorTrace (.discard :: k) = (cursorWrites k).isEmpty := rfl
@[simp] theorem cursorWrites_bootReturn (k : List Action) :
    cursorWrites (.bootReturn :: k) = cursorWrites k := rfl
@[simp] theorem cursorTrace_bootReturn (k : List Action) :
    cursorTrace (.bootReturn :: k) = cursorTrace k := rfl

theorem cursorWrites_append (k l : List Action) : cursorWrites (k ++ l) = cursorWrites k ++ cursorWrites l := by
  induction k with
  | nil => rfl
  | cons a k ih => cases a <;> simp [ih]

/-- A list that writes CURSOR nowhere keeps to the trace. -/
theorem cursorTrace_of_no_write {k : List Action} (h : cursorWrites k = []) : cursorTrace k = true := by
  induction k with
  | nil => rfl
  | cons a k ih => cases a <;> simp_all

theorem cursorWrites_map_erase (rs : List Config.Region) : cursorWrites (rs.map Action.nvmEraseSector) = [] := by
  induction rs with
  | nil => rfl
  | cons r rs ih => exact ih

theorem cursorWrites_map_program (addr : Nat) (data : List Byte) (cells : List Nat) :
    cursorWrites (cells.map (programAction addr data)) = [] := by
  induction cells with
  | nil => rfl
  | cons r rs ih => exact ih

theorem cursorTrace_map_erase (rs : List Config.Region) (k : List Action) :
    cursorTrace (rs.map Action.nvmEraseSector ++ k) = cursorTrace k := by
  induction rs with
  | nil => rfl
  | cons r rs ih => exact ih

theorem cursorTrace_map_program (addr : Nat) (data : List Byte) (cells : List Nat) (k : List Action) :
    cursorTrace (cells.map (programAction addr data) ++ k) = cursorTrace k := by
  induction cells with
  | nil => rfl
  | cons r rs ih => exact ih

/-- What an action that reads NVM adds writes CURSOR nowhere and clears nothing (43 R212 to R218). -/
theorem cursorTrace_afterSp (p : Config.Params) (sp : Word) (k : List Action) :
    cursorTrace (afterSp p sp ++ k) = cursorTrace k ∧ cursorWrites (afterSp p sp ++ k) = cursorWrites k := by
  unfold afterSp
  split <;> exact ⟨rfl, rfl⟩

end Sys2Proof.Safety
end

