-- ==== Sys2Proof/Laws/Step.lean ====
section
/-! SUPPORT. What one step of the machine can do, said once (`step_cases`), and the packaged induction over it
(`step_induction`): a predicate that holds when a pass starts, and that every atomic action, every turn and every reset
keeps, is kept by every step. -/

namespace Sys2Proof.Machine

open Sys2Proof.Safety

/-- The actions a pass can start with: the recovery of an error, or a command (spec 40 R121; 41 R152 to R155). -/
inductive PassStart (s : State) : List Action → Prop where
  | badSync : PassStart s [.discard]
  | badSum : PassStart s [.tx Config.nack, .discard]
  | connect : PassStart s (connectActions Config.env.params ++ [.discard])
  | data (p : List Byte) (h : writePastTop s.cursor p = false) : PassStart s (dataActions s.cursor p ++ [.discard])
  | finish : PassStart s (finishActions Config.env.params ++ [.discard])
  | unknown : PassStart s (unknownActions ++ [.discard])

/-- A meaning that answers a next state has run one of the passes. -/
theorem exec_next {i : Instr} {s t : State} (h : exec i s = .next t) :
    ∃ k, PassStart s k ∧ t = runPass Config.env k s := by
  cases i with
  | connect p =>
    cases h
    exact ⟨_, .connect, rfl⟩
  | data p =>
    simp only [exec, execData, execDataIn] at h
    split at h
    · cases h
    · rename_i hw
      cases h
      exact ⟨_, .data p (by simpa using hw), rfl⟩
  | finish p =>
    cases h
    exact ⟨_, .finish, rfl⟩
  | unknown cmd p =>
    cases h
    exact ⟨_, .unknown, rfl⟩

/-- A pass that answers a next state waits, or runs a pass's actions. -/
theorem pass_next {s t : State} (h : passIn Config.env exec s = .next t) :
    t = s ∨ ∃ k, PassStart s k ∧ t = runPass Config.env k s := by
  unfold passIn at h
  split at h
  · exact .inr (exec_next h)
  · rename_i why _
    cases why with
    | incomplete => cases h; exact .inl rfl
    | badSync => cases h; exact .inr ⟨_, .badSync, rfl⟩
    | badSum => cases h; exact .inr ⟨_, .badSum, rfl⟩

/-- ENG's move that answers a next state: a pass from POLL, or the rest of one from BUSY. -/
theorem engMove_next {s t : State} (h : engMoveIn Config.env exec s = .next t) :
    (s.eph = .poll ∧ (t = s ∨ ∃ k, PassStart s k ∧ t = runPass Config.env k s)) ∨
      ((∃ k, s.eph = .busy k) ∧ t = drive Config.env s) := by
  unfold engMoveIn at h
  split at h
  · rename_i he
    exact .inl ⟨he, pass_next h⟩
  · cases h
  · rename_i k _ he
    cases h
    exact .inr ⟨⟨k, he⟩, rfl⟩
  · cases h

/-- Everything a step can do when it answers a next state. -/
theorem step_cases {s t : State} (h : step s = .next t) :
    (∃ ts, s.sched = .rx :: ts ∧ t = rxAppend Config.env (setSched ts s)) ∨
    (∃ ts, s.sched = .tick :: ts ∧ t = timerTick Config.env (setSched ts s)) ∨
    (∃ ts, s.sched = .pause :: ts ∧ t = setSched ts s) ∨
    (∃ e ts, s.sched = .reset e :: ts ∧ t = hardReset Config.env e (setSched ts s)) ∨
    (∃ u, (u = s ∨ ∃ ts, s.sched = .eng :: ts ∧ u = setSched ts s) ∧
      ((u.eph = .poll ∧ (t = u ∨ ∃ k, PassStart u k ∧ t = runPass Config.env k u)) ∨
        ((∃ k, u.eph = .busy k) ∧ t = drive Config.env u))) := by
  unfold step turn turnIn at h
  split at h
  · exact .inr (.inr (.inr (.inr ⟨s, .inl rfl, engMove_next h⟩)))
  · rename_i ts hs
    split at h
    · exact .inr (.inr (.inr (.inr ⟨s, .inl rfl, engMove_next h⟩)))
    · exact .inr (.inr (.inr (.inr ⟨_, .inr ⟨ts, hs, rfl⟩, engMove_next h⟩)))
  · rename_i ts hs
    cases h
    exact .inl ⟨ts, hs, rfl⟩
  · rename_i ts hs
    cases h
    exact .inr (.inl ⟨ts, hs, rfl⟩)
  · rename_i ts hs
    cases h
    exact .inr (.inr (.inl ⟨ts, hs, rfl⟩))
  · rename_i e ts hs
    cases h
    exact .inr (.inr (.inr (.inl ⟨e, ts, hs, rfl⟩)))

/-- A predicate kept by every atomic action, every turn, every reset and every start of a pass is kept by every step. -/
theorem step_induction (P : State → Prop)
    (hact : ∀ s a k, s.eph = .busy (a :: k) → a ≠ .bootReturn → P s → P (act Config.env a k s))
    (hrx : ∀ s, P s → P (rxAppend Config.env s)) (htick : ∀ s, P s → P (timerTick Config.env s))
    (hsched : ∀ s ts, P s → P (setSched ts s)) (hreset : ∀ s e, P s → P (hardReset Config.env e s))
    (hstart : ∀ s k, s.eph = .poll → PassStart s k → P s → P (setPhase (phaseOf k) s))
    {s t : State} (h : step s = .next t) (hs : P s) : P t := by
  rcases step_cases h with ⟨ts, -, rfl⟩ | ⟨ts, -, rfl⟩ | ⟨ts, -, rfl⟩ | ⟨e, ts, -, rfl⟩ | ⟨u, hu, hc⟩
  · exact hrx _ (hsched _ _ hs)
  · exact htick _ (hsched _ _ hs)
  · exact hsched _ _ hs
  · exact hreset _ _ (hsched _ _ hs)
  · have hu : P u := by
      rcases hu with rfl | ⟨ts, -, rfl⟩
      · exact hs
      · exact hsched _ _ hs
    rcases hc with ⟨he, rfl | ⟨k, hk, rfl⟩⟩ | ⟨-, rfl⟩
    · exact hu
    · exact drive_induction _ P hact hrx htick hsched (hstart u k he hk hu)
    · exact drive_induction _ P hact hrx htick hsched hu

/-! The buffer. -/

/-- RX only adds bytes behind those buffered (spec 20 R71, R72). -/
theorem buffered_rxAppend (c : Config.Env) (s : State) : ∃ more, buffered (rxAppend c s) = buffered s ++ more := by
  by_cases h : rxStores c s = true
  · refine ⟨[s.wire.headD 0#8], ?_⟩
    simp only [buffered, rxAppend_rxlen, rxAppend_rxbuf, h, if_true, readBytes, List.range_succ, List.map_append,
      List.map_cons, List.map_nil, Nat.zero_add, readByte_writeByte_same]
    congr 1
    apply List.map_congr_left
    intro i hi
    exact readByte_writeByte_ne _ _ _ (Nat.ne_of_lt (List.mem_range.1 hi))
  · refine ⟨[], ?_⟩
    simp only [buffered, rxAppend_rxlen, rxAppend_rxbuf, h, List.append_nil]
    rfl

/-- A frame that is complete in the buffer stays the frame there while RX adds bytes. -/
theorem decode_rxAppend (c : Config.Env) {s : State} {i : Instr} {surplus : List Byte}
    (h : decode (buffered s) = .frame i surplus) :
    ∃ more, decode (buffered (rxAppend c s)) = .frame i (surplus ++ more) := by
  obtain ⟨more, hm⟩ := buffered_rxAppend c s
  exact ⟨more, by rw [hm]; exact decodeWith_append h⟩

/-- RX changes nothing of what the command in the buffer makes of CURSOR (spec 10 R49; 20 R72). -/
theorem cursorTarget_rxAppend (c : Config.Env) {p : Config.Params} {s : State} {v : Word} (h : CursorTarget p s v) :
    CursorTarget p (rxAppend c s) v := by
  rcases h with ⟨q, surplus, hd, hv⟩ | ⟨q, surplus, hd, hv⟩ <;> obtain ⟨more, hm⟩ := decode_rxAppend c hd
  · exact .inl ⟨q, _, hm, hv⟩
  · exact .inr ⟨q, _, hm, hv⟩

/-- It depends on the buffer and the cursor alone. -/
theorem cursorTarget_congr {p : Config.Params} {s t : State} {v : Word} (hb : t.rxbuf = s.rxbuf)
    (hl : t.rxlen = s.rxlen) (hc : t.cursor = s.cursor) (h : CursorTarget p s v) : CursorTarget p t v := by
  unfold CursorTarget buffered at *
  rw [hb, hl, hc]
  exact h

end Sys2Proof.Machine
end

