-- ==== Sys2Proof/Tests/Slice0.lean ====
section
/-! SUPPORT. The model's own tests: ill-formed instructions, frames written out from spec 30 and 95, single operations
with the results of spec 95's vectors, and for every statement with hypotheses a named witness that meets them. The
expected values are those of spec 95 (V numbers), worked in its example configuration CFG_EX. -/

namespace Sys2Proof.Tests

open Sys2Proof.Machine Sys2Proof.Safety

/-- CFG_EX, with no failing operation (95 section 0: NVM_RELIABLE) and arbitrary free values. -/
def exampleEnv : Config.Env where
  params := Config.exampleParams
  sync := Config.sync
  nvmFail := fun _ => false
  anyByte := fun _ _ => 0x99#8
  anyFlags := fun _ => [7]
  timerCount := fun n => n
  resetCursor := fun _ => 0x12345678#32
  resetMsp := fun _ => 0#32
  resetPc := fun _ => 0#32
  resetVtbase := fun _ => 0#32
  resetTimer := fun _ => 0
  resetFlags := fun _ => []

/-- CFG_EX with every operation failing. -/
def failingEnv : Config.Env := { exampleEnv with nvmFail := fun _ => true }

/-- The start state of a vector: reset, connected, with a cursor and NVM contents. -/
def start (cursor : Word) (nvm : Memory) : State :=
  { State.reset with dstate := .connected, cursor := cursor, nvm := nvm }

/-- A field of the state an outcome gives, if it gives one. -/
def got {α : Type} (o : Host.Outcome State Fault Refusal) (f : State → α) : Option α :=
  match o with
  | .next t => some (f t)
  | _ => none

/-- The reset state with bytes received. -/
def received (bs : List Byte) : State := { State.reset with rxbuf := writeBytes [] 0 bs, rxlen := bs.length }

/-! ## Well-formedness: each check refuses an ill-formed term (30 R92, R96) -/

theorem test_payload_too_long (c : Byte) :
    (Instr.data (List.replicate 65536 c)).wellFormed = false := by
  show decide ((List.replicate 65536 c).length < 65536) = false
  rw [List.length_replicate]
  rfl

theorem test_longest_payload (c : Byte) : (Instr.data (List.replicate 65535 c)).wellFormed = true := by
  show decide ((List.replicate 65535 c).length < 65536) = true
  rw [List.length_replicate]
  rfl

theorem test_unknown_is_not_connect : (Instr.unknown 0x01#8 []).wellFormed = false := by decide

theorem test_unknown_is_not_data : (Instr.unknown 0x02#8 []).wellFormed = false := by decide

theorem test_unknown_is_not_finish : (Instr.unknown 0x03#8 []).wellFormed = false := by decide

/-! ## Decoding: frames of 95 section 2.1, byte by byte -/

/-- V1. -/
theorem test_decode_connect :
    decode [0x5A#8, 0xA5#8, 0x01#8, 0x00#8, 0x00#8, 0x01#8] = .frame (.connect []) [] := by decide

/-- V20. -/
theorem test_decode_connect_payload :
    decode [0x5A#8, 0xA5#8, 0x01#8, 0x02#8, 0x00#8, 0x01#8, 0x02#8, 0x06#8] =
      .frame (.connect [0x01#8, 0x02#8]) [] := by decide

/-- V7: the sum is 0x205, truncated. -/
theorem test_decode_data :
    decode [0x5A#8, 0xA5#8, 0x02#8, 0x05#8, 0x00#8, 0x44#8, 0x55#8, 0x66#8, 0x77#8, 0x88#8, 0x05#8] =
      .frame (.data [0x44#8, 0x55#8, 0x66#8, 0x77#8, 0x88#8]) [] := by decide

/-- V11: sync bytes inside a payload are plain data. -/
theorem test_decode_data_sync_bytes :
    decode [0x5A#8, 0xA5#8, 0x02#8, 0x04#8, 0x00#8, 0x5A#8, 0xA5#8, 0x5A#8, 0xA5#8, 0x04#8] =
      .frame (.data [0x5A#8, 0xA5#8, 0x5A#8, 0xA5#8]) [] := by decide

/-- V21: the sum is 0x103, truncated. -/
theorem test_decode_finish_payload :
    decode [0x5A#8, 0xA5#8, 0x03#8, 0x01#8, 0x00#8, 0xFF#8, 0x03#8] = .frame (.finish [0xFF#8]) [] := by decide

/-- V19: check byte 00. -/
theorem test_decode_unknown :
    decode [0x5A#8, 0xA5#8, 0xFE#8, 0x01#8, 0x00#8, 0x01#8, 0x00#8] = .frame (.unknown 0xFE#8 [0x01#8]) [] := by decide

/-- V58: three surplus bytes behind a CONNECT. -/
theorem test_decode_surplus :
    decode [0x5A#8, 0xA5#8, 0x01#8, 0x00#8, 0x00#8, 0x01#8, 0x5A#8, 0xA5#8, 0x02#8] =
      .frame (.connect []) [0x5A#8, 0xA5#8, 0x02#8] := by decide

/-- V46: sync bytes swapped. -/
theorem test_decode_swapped_sync :
    decode [0xA5#8, 0x5A#8, 0x01#8, 0x00#8, 0x00#8, 0x01#8] = .rejected .badSync := by decide

/-- V43: five bytes are too few, whatever they are. -/
theorem test_decode_five_bytes : decode [0x5A#8, 0xA5#8, 0x01#8, 0x00#8, 0x00#8] = .rejected .incomplete := by decide

/-- V57: a length that is one too small. -/
theorem test_decode_short_length :
    decode [0x5A#8, 0xA5#8, 0x02#8, 0x03#8, 0x00#8, 0xDE#8, 0xAD#8, 0xBE#8, 0xEF#8, 0x3E#8] = .rejected .badSum := by
  decide

/-- V6 from the encoder. -/
theorem test_encode_data :
    encode (.data [0x11#8, 0x22#8, 0x33#8]) =
      [0x5A#8, 0xA5#8, 0x02#8, 0x03#8, 0x00#8, 0x11#8, 0x22#8, 0x33#8, 0x6B#8] := by decide

/-! ## Operations -/

/-- V31: the last index takes the byte. -/
theorem test_rx_last_byte :
    (let t := rxAppend exampleEnv { State.reset with rxlen := 2047, wire := [0x77#8] }
     (t.rxlen, readByte t.rxbuf 2047, t.wire)) = (2048, 0x77#8, []) := by decide

/-- V32: a full buffer drops the byte. -/
theorem test_rx_full :
    (let t := rxAppend exampleEnv { State.reset with rxlen := 2048, wire := [0x88#8, 0x99#8] }
     (t.rxlen, readByte t.rxbuf 2047, t.wire)) = (2048, 0xFF#8, [0x99#8]) := by decide

/-- V34: masked, the byte stays on WIRE. -/
theorem test_rx_masked :
    (let t := rxAppend exampleEnv { State.reset with cpuImask := true, wire := [0x88#8] }
     (t.rxlen, t.wire)) = (0, [0x88#8]) := by decide

/-- V99: three cells, the first and the last in part. -/
theorem test_write_three_cells :
    writeActions 0x08008001#32 [0x01#8, 0x02#8, 0x03#8, 0x04#8, 0x05#8, 0x06#8, 0x07#8, 0x08#8] =
      [.nvmUnlock, .nvmProgramWord 0x08008000#32 0x030201FF#32, .nvmProgramWord 0x08008004#32 0x07060504#32,
        .nvmProgramWord 0x08008008#32 0xFFFFFF08#32, .nvmLock] := by decide

/-- V101: an empty write only unlocks and locks. -/
theorem test_write_empty : writeActions 0x08008002#32 [] = [.nvmUnlock, .nvmLock] := by decide

/-- V105: lanes of data FF leave what is there. -/
theorem test_program_lanes :
    readBytes (nvmProgramWord exampleEnv 0x08008000#32 0x44FFFFFF#32
      { start 0#32 [(0x08008000, 0x11#8), (0x08008001, 0x22#8), (0x08008002, 0x33#8)] with nvmLock := false }).nvm
      0x08008000 4 = [0x11#8, 0x22#8, 0x33#8, 0x44#8] := by decide

/-- 95 section 2.5, `c = 0x20000000`: no change whatever `w` and `fail` are, the flags included. -/
theorem test_program_outside :
    (let t := nvmProgramWord failingEnv 0x20000000#32 0x44332211#32 { start 0#32 [] with nvmLock := false, nvmFlags := [3] }
     (t.nvm, t.nvmFlags)) = ([], [3]) := by decide

/-- The same operation on memory may add flags. -/
theorem test_program_failing :
    (nvmProgramWord failingEnv 0x08008000#32 0xFFFFFFFF#32
      { start 0#32 [] with nvmLock := false, nvmFlags := [3] }).nvmFlags = [3, 7] := by decide

/-- V119: the stack pointer's bytes in big-endian order are another word. -/
theorem test_memRead_little_endian :
    memRead [(0x08008000, 0x20#8), (0x08008001, 0x02#8), (0x08008002, 0x00#8), (0x08008003, 0x00#8)] 0x08008000 =
      0x00000220#32 := by decide

/-! ## The commands -/

/-- V72: the cursor is the base again, and the region is erased, one byte outside it not. -/
theorem test_connect :
    got (execConnectIn exampleEnv [] (start 0x08009234#32 [(0x08007FFF, 0xA0#8), (0x08008000, 0xA0#8),
        (0x0801FFFF, 0xA0#8), (0x08020000, 0xA0#8)])) (fun t => (t.cursor, t.dstate, t.tx, t.nvm)) =
      some (0x08008000#32, .connected, [0x06#8], [(0x08007FFF, 0xA0#8), (0x08020000, 0xA0#8)]) := by decide

/-- V79's counterpart in a failing environment: CONNECT acknowledges all the same (60 R246). -/
theorem test_connect_failing :
    got (execConnectIn { failingEnv with params := { Config.exampleParams with eraseSet := [⟨0x08008000, 8⟩] } } []
      (start 0#32 [])) (fun t => (t.cursor, t.tx, t.nvmFlags, t.nvmLock)) =
      some (0x08008000#32, [0x06#8], [7], true) := by decide

/-- V76: two cells, the earlier bytes of the first kept. -/
theorem test_data :
    got (execDataIn exampleEnv [0x44#8, 0x55#8, 0x66#8, 0x77#8, 0x88#8]
      (start 0x08008003#32 [(0x08008000, 0x11#8), (0x08008001, 0x22#8), (0x08008002, 0x33#8)]))
      (fun t => (t.cursor, t.dstate, t.tx, readBytes t.nvm 0x08008000 9)) =
      some (0x08008008#32, .connected, [0x06#8],
        [0x11#8, 0x22#8, 0x33#8, 0x44#8, 0x55#8, 0x66#8, 0x77#8, 0x88#8, 0xFF#8]) := by decide

/-- V85: the last cell of the address space; nothing there, the cursor wraps to 0. -/
theorem test_data_top :
    got (execDataIn exampleEnv [0x01#8, 0x02#8, 0x03#8, 0x04#8] (start 0xFFFFFFFC#32 []))
      (fun t => (t.cursor, t.tx, t.nvm)) = some (0#32, [0x06#8], []) := by decide

/-- V110: a launch at RAM_HI; RXLEN stays (V81). -/
theorem test_finish_launches :
    (let o := execFinishIn exampleEnv [] { start 0x0800800C#32 (writeBytes [] 0x08008000
        [0x00#8, 0x00#8, 0x02#8, 0x20#8, 0x99#8, 0x80#8, 0x00#8, 0x08#8]) with rxlen := 6 }
     got o (fun t => (t.dstate, t.lstate, t.tx, t.rxlen)) = some (.launched, .valid, [0x06#8], 6) ∧
       got o (fun t => (t.cpuImask, t.tmrEn, t.tmrCnt)) = some (true, false, 0) ∧
       got o (fun t => (t.cpuVtbase, t.cpuMsp, t.cpuPc)) = some (0x08008000#32, 0x20020000#32, 0x08008099#32) ∧
       got o (fun t => t.eph) = some .gone) := by decide

/-- V113: one above RAM_HI. -/
theorem test_finish_rejects :
    got (execFinishIn exampleEnv [] { start 0x08008004#32 (writeBytes [] 0x08008000
        [0x01#8, 0x00#8, 0x02#8, 0x20#8]) with rxlen := 6 })
      (fun t => (decide (t.eph = .poll ∧ t.dstate = .connected ∧ t.lstate = .rejected), t.cpuImask, t.tmrEn, t.tx,
        t.rxlen)) =
      some (true, false, true, [0x06#8], 0) := by decide

/-- A byte that arrives while UNKNOWN is dispatched is lost with the buffer (40 R134). -/
theorem test_unknown_loses_byte :
    got (execUnknownIn exampleEnv 0x04#8 [] { received [0x5A#8] with
        wire := [0x11#8, 0x22#8], sched := [.eng, .rx, .eng] })
      (fun t => (t.rxlen, readByte t.rxbuf 1, t.wire, t.tx)) = some (0, 0x11#8, [0x22#8], [0x15#8]) := by decide

/-! ## Steps -/

/-- The table's word for UNKNOWN 0x04 runs as the first instruction after reset (V79). -/
theorem test_step_unknown :
    got (step (State.reset.withFetchWord 24 0x5AA504)) (fun t => (t.dstate, t.tx, t.rxlen)) =
      some (.idle, [0x15#8], 0) := by rfl

/-- V48: a garbage byte before a valid frame discards it all, with no reply. -/
theorem test_step_garbage :
    got (step (received [0xFF#8, 0x5A#8, 0xA5#8, 0x01#8, 0x00#8, 0x00#8, 0x01#8])) (fun t => (t.tx, t.rxlen)) =
      some ([], 0) := by rfl

/-- A reset keeps NVM and takes what the host sends afterwards (70 R271, R272). -/
theorem test_step_reset :
    got (step { start 0#32 [(0x08008000, 0x11#8)] with
        tx := [0x06#8], sched := [.reset ⟨false, .update, [0x5A#8]⟩] })
      (fun t => (t.nvm, t.tx, t.dstate, t.wire)) = some ([(0x08008000, 0x11#8)], [], .idle, [0x5A#8]) := by rfl

/-! ## Witnesses: hypotheses of the statements that can be met -/

theorem witness_wellFormed :
    (Instr.connect [0x01#8]).wellFormed = true ∧ (Instr.data []).wellFormed = true ∧
      (Instr.finish [0xFF#8]).wellFormed = true ∧ (Instr.unknown 0x00#8 []).wellFormed = true ∧
      (Instr.unknown 0xFF#8 []).wellFormed = true := by decide

theorem witness_decodedBuffer :
    decodeWith Config.sync [0x5A#8, 0xA5#8, 0x02#8, 0x01#8, 0x00#8, 0xFD#8, 0x00#8, 0x77#8] =
      .frame (.data [0xFD#8]) [0x77#8] := by decide

/-- V53: AD to AC, the second payload byte; and the last index. -/
theorem witness_singleCorruptedByte :
    (Instr.data [0xDE#8, 0xAD#8]).wellFormed = true ∧ 1 < (Instr.data [0xDE#8, 0xAD#8]).payload.length ∧
      0xAC#8 ≠ (Instr.data [0xDE#8, 0xAD#8]).payload.getD 1 0#8 := by decide

/-- Either level of the gate, between actions and during an operation. -/
theorem witness_reset (during : Bool) (gate : BootMode) :
    (let e : ResetEvent := ⟨during, gate, [0x5A#8]⟩
     (received [0x5A#8]).rxlen = 1 ∧ ({ received [0x5A#8] with sched := [.reset e, .rx] } : State).sched =
      .reset e :: [.rx]) := ⟨rfl, rfl⟩

/-- Interrupted during an erase: the bytes just outside the sector keep. -/
theorem witness_interruptedErase :
    ∃ s : State, s.sched = [.reset ⟨true, .update, []⟩] ∧ s.eph = .busy [.nvmEraseSector ⟨0x100, 0x10⟩] ∧
      (⟨0x100, 0x10⟩ : Config.Region).contains 0xFF = false ∧ (⟨0x100, 0x10⟩ : Config.Region).contains 0x110 = false :=
  ⟨{ State.reset with sched := [.reset ⟨true, .update, []⟩], eph := .busy [.nvmEraseSector ⟨0x100, 0x10⟩] },
    rfl, rfl, by decide, by decide⟩

/-- Interrupted during a program operation: the bytes just outside the cell keep. -/
theorem witness_interruptedProgram :
    ∃ s : State, s.sched = [.reset ⟨true, .update, []⟩] ∧ s.eph = .busy [.nvmProgramWord 0x100#32 0#32] ∧
      ¬ ((0x100#32).toNat ≤ 0xFF ∧ 0xFF < (0x100#32).toNat + 4) ∧
      ¬ ((0x100#32).toNat ≤ 0x104 ∧ 0x104 < (0x100#32).toNat + 4) :=
  ⟨{ State.reset with sched := [.reset ⟨true, .update, []⟩], eph := .busy [.nvmProgramWord 0x100#32 0#32] },
    rfl, rfl, by decide, by decide⟩

theorem witness_interruptedPoll :
    ∃ s : State, s.sched = [.reset ⟨true, .update, []⟩] ∧ s.eph = .poll :=
  ⟨{ State.reset with sched := [.reset ⟨true, .update, []⟩] }, rfl, rfl⟩

theorem witness_rxNothing : ∃ s : State, s.sched = [.rx] ∧ s.wire = [] :=
  ⟨{ State.reset with sched := [.rx] }, rfl, rfl⟩

theorem witness_rxMasked : ∃ s : State, s.sched = [.rx] ∧ s.wire = [0x11#8] ∧ s.cpuImask = true :=
  ⟨{ State.reset with sched := [.rx], wire := [0x11#8], cpuImask := true }, rfl, rfl, rfl⟩

/-- Room for the first byte, and for the last one of the buffer. -/
theorem witness_rxRoom (n : Nat) (h : n = 0 ∨ n + 1 = Config.env.params.rxBufSize) :
    ∃ s : State, s.sched = [.rx] ∧ s.wire = [0x11#8] ∧ s.cpuImask = false ∧ s.rxlen = n ∧
      s.rxlen < Config.env.params.rxBufSize := by
  have := Config.params_valid.room
  have h6 : 6 ≤ Config.env.params.rxBufSize := this
  exact ⟨{ State.reset with sched := [.rx], wire := [0x11#8], rxlen := n }, rfl, rfl, rfl, rfl, by
    show n < Config.env.params.rxBufSize
    omega⟩

theorem witness_rxFull :
    ∃ s : State, s.sched = [.rx] ∧ s.wire = [0x11#8] ∧ s.cpuImask = false ∧
      ¬ s.rxlen < Config.env.params.rxBufSize :=
  ⟨{ State.reset with sched := [.rx], wire := [0x11#8], rxlen := Config.env.params.rxBufSize }, rfl, rfl, rfl,
    Nat.lt_irrefl _⟩

theorem witness_tick : ∃ s : State, s.sched = [.tick] ∧ s.tmrEn = false :=
  ⟨{ State.reset with sched := [.tick], tmrEn := false }, rfl, rfl⟩

/-- A poll with an exhausted schedule, and one with ENG's turn next: V1 is buffered. -/
theorem witness_stepRuns :
    (received [0x5A#8, 0xA5#8, 0x01#8, 0x00#8, 0x00#8, 0x01#8]).eph = .poll ∧
      EngNext (received [0x5A#8, 0xA5#8, 0x01#8, 0x00#8, 0x00#8, 0x01#8]) [] ∧
      EngNext { received [] with sched := [.eng, .rx] } [.rx] ∧
      decode (buffered (received [0x5A#8, 0xA5#8, 0x01#8, 0x00#8, 0x00#8, 0x01#8])) = .frame (.connect []) [] :=
  ⟨rfl, .inr ⟨rfl, rfl⟩, .inl rfl, by decide⟩

/-- V42: five bytes. V50: nine of ten. -/
theorem witness_incomplete :
    (let s := received [0xFF#8, 0xFF#8, 0xFF#8, 0xFF#8, 0xFF#8]
     s.eph = .poll ∧ EngNext s [] ∧ s.rxlen < 6) ∧
      (let s := received [0x5A#8, 0xA5#8, 0x02#8, 0x04#8, 0x00#8, 0xDE#8, 0xAD#8, 0xBE#8, 0xEF#8]
       s.eph = .poll ∧ EngNext s [] ∧ readByte s.rxbuf 0 = Config.sync.a ∧ readByte s.rxbuf 1 = Config.sync.b ∧
         s.rxlen < 6 + payloadLength (readByte s.rxbuf 3) (readByte s.rxbuf 4)) :=
  ⟨⟨rfl, .inr ⟨rfl, rfl⟩, by decide⟩, rfl, .inr ⟨rfl, rfl⟩, by decide, by decide, by decide⟩

/-- V45: six bytes, the second sync byte wrong. V47: the first. -/
theorem witness_badSync :
    (let s := received [0x5A#8, 0x00#8, 0x01#8, 0x00#8, 0x00#8, 0x01#8]
     s.eph = .poll ∧ EngNext s [] ∧ quiet s = true ∧ s.rxlen = 6 ∧ readByte s.rxbuf 1 ≠ Config.sync.b) ∧
      (let s := received [0x00#8, 0xA5#8, 0x01#8, 0x00#8, 0x00#8, 0x01#8]
       s.eph = .poll ∧ EngNext s [] ∧ quiet s = true ∧ s.rxlen = 6 ∧ readByte s.rxbuf 0 ≠ Config.sync.a) :=
  ⟨⟨rfl, .inr ⟨rfl, rfl⟩, rfl, rfl, by decide⟩, rfl, .inr ⟨rfl, rfl⟩, rfl, rfl, by decide⟩

/-- V22, exactly complete. -/
theorem witness_badSum :
    (let s := received [0x5A#8, 0xA5#8, 0x02#8, 0x04#8, 0x00#8, 0xDE#8, 0xAD#8, 0xBE#8, 0xEF#8, 0x3F#8]
     s.eph = .poll ∧ EngNext s [] ∧ quiet s = true ∧ 6 ≤ s.rxlen ∧ readByte s.rxbuf 0 = Config.sync.a ∧
       readByte s.rxbuf 1 = Config.sync.b ∧
       6 + payloadLength (readByte s.rxbuf 3) (readByte s.rxbuf 4) = s.rxlen ∧
       byteSum (readBytes s.rxbuf 2 (3 + payloadLength (readByte s.rxbuf 3) (readByte s.rxbuf 4))) ≠
         readByte s.rxbuf (5 + payloadLength (readByte s.rxbuf 3) (readByte s.rxbuf 4))) :=
  ⟨rfl, .inr ⟨rfl, rfl⟩, rfl, by decide, by decide, by decide, by decide, by decide⟩

/-- Each of the three rejections, from a poll in which ENG's step answers a next state. -/
theorem witness_invalidBuffer :
    (∃ s t : State, s.eph = .poll ∧ EngNext s [] ∧ decode (buffered s) = .rejected .incomplete ∧ step s = .next t) ∧
      (∃ s t : State, s.eph = .poll ∧ EngNext s [] ∧ decode (buffered s) = .rejected .badSync ∧ step s = .next t) ∧
      ∃ s t : State, s.eph = .poll ∧ EngNext s [] ∧ decode (buffered s) = .rejected .badSum ∧ step s = .next t :=
  ⟨⟨received [], _, rfl, .inr ⟨rfl, rfl⟩, by decide, rfl⟩,
    ⟨received [0xFF#8, 0xFF#8, 0xFF#8, 0xFF#8, 0xFF#8, 0xFF#8], _, rfl, .inr ⟨rfl, rfl⟩, by decide, rfl⟩,
    received [0x5A#8, 0xA5#8, 0x01#8, 0x00#8, 0x00#8, 0x02#8], _, rfl, .inr ⟨rfl, rfl⟩, by decide, rfl⟩

/-- A pause before the first action, one between two actions, and one behind the end of the pass. -/
theorem witness_paused :
    (∃ s t : State, s.sched = [] ++ .pause :: [] ∧ exec (.connect []) s = .next t) ∧
      (∃ s t : State, s.sched = [.rx, .eng, .tick] ++ .pause :: [.eng] ∧ [Turn.rx, .eng, .tick].all goesOn = true ∧
        exec (.unknown 0x7F#8 []) s = .next t ∧ t.eph = .busy [.discard] ∧ t.sched = [.eng]) ∧
      ∃ s t : State, s.sched = [.eng, .eng, .rx] ++ .pause :: [] ∧ [Turn.eng, .eng, .rx].all goesOn = true ∧
        exec (.unknown 0x7F#8 []) s = .next t ∧ t.eph = .poll ∧ t.sched = [.rx] ++ .pause :: [] :=
  ⟨⟨{ State.reset with sched := [.pause] }, _, rfl, rfl⟩,
    ⟨{ State.reset with sched := [.rx, .eng, .tick, .pause, .eng] }, _, rfl, rfl, rfl, rfl, rfl⟩,
    { State.reset with sched := [.eng, .eng, .rx, .pause] }, _, rfl, rfl, rfl, rfl, rfl⟩

/-- The rest of an UNKNOWN, with `ts` scheduled. -/
def midUnknown (ts : List Turn) : State := { State.reset with eph := .busy [.tx Config.nack, .discard], sched := ts }

/-- Every head of the schedule that goes on or pauses, and a state outside a pass. -/
theorem witness_midPass :
    (∀ ts, (midUnknown ts).eph = .busy [.tx Config.nack, .discard] ∧ (midUnknown ts).sched = ts) ∧
      Action.tx Config.nack ≠ .bootReturn ∧ EngNext (midUnknown []) [] ∧ EngNext (midUnknown [.eng, .rx]) [.rx] ∧
      MidPass (midUnknown []) ∧ ¬ MidPass State.reset :=
  ⟨fun _ => ⟨rfl, rfl⟩, by decide, .inr ⟨rfl, rfl⟩, .inl rfl, ⟨_, _, rfl, by decide⟩, by
    rintro ⟨a, k, h, -⟩
    cases h⟩

/-- V48, a dispatched UNKNOWN, and V22, the recovery of a wrong sum, each paused between its two actions; the rest of
a paused pass and a direct boot paused before its next action; and a pass that ends before the pause. -/
theorem witness_pausedStep :
    (∃ t, step { received [0x5A#8, 0xA5#8, 0x7F#8, 0x01#8, 0x00#8, 0xAA#8, 0x2A#8] with
        sched := .eng :: ([.rx, .eng] ++ .pause :: [.eng]) } = .next t ∧ t.eph = .busy [.discard]) ∧
      (∃ t, step { received [0x5A#8, 0xA5#8, 0x02#8, 0x04#8, 0x00#8, 0xDE#8, 0xAD#8, 0xBE#8, 0xEF#8, 0x3F#8] with
        sched := .eng :: ([.eng] ++ .pause :: []) } = .next t ∧ t.eph = .busy [.discard]) ∧
      (∃ t, step (midUnknown (.eng :: ([.rx] ++ .pause :: []))) = .next t ∧ t.eph = .busy [.discard]) ∧
      (∃ t, step { State.reset with eph := .busy directBootActions, sched := .eng :: ([] ++ .pause :: [.eng]) } =
        .next t ∧ t.eph = .busy [.readSp, .bootReturn]) ∧
      ∃ t, step (midUnknown (.eng :: ([.eng, .tick] ++ .pause :: []))) = .next t ∧ t.eph = .poll ∧
        t.sched = [.tick] ++ .pause :: [] :=
  ⟨⟨_, rfl, rfl⟩, ⟨_, rfl, rfl⟩, ⟨_, rfl, rfl⟩, ⟨_, rfl, rfl⟩, _, rfl, rfl, rfl⟩

/-- A paused DATA and a paused CONNECT, each with its write of the cursor still to do. -/
theorem witness_cursorOk :
    (let s : State := { received [0x5A#8, 0xA5#8, 0x02#8, 0x01#8, 0x00#8, 0xFD#8, 0x00#8] with
        cursor := 0xFFFFFFFF#32, eph := .busy [.setCursor 0#32, .tx Config.ack, .discard] }
     CursorOk Config.env.params s ∧ resetNext s = false ∧ ∃ t, step s = .next t ∧ t.cursor = 0#32) ∧
    (let s : State := { received [0x5A#8, 0xA5#8, 0x01#8, 0x00#8, 0x00#8, 0x01#8] with
        eph := .busy [.setCursor Config.env.params.appBase, .tx Config.ack, .discard], sched := [.eng, .pause] }
     CursorOk Config.env.params s ∧ resetNext s = false ∧
       ∃ t, step s = .next t ∧ t.cursor = Config.env.params.appBase ∧ t.eph = .busy [.tx Config.ack, .discard]) := by
  refine ⟨⟨⟨rfl, ?_⟩, rfl, _, rfl, rfl⟩, ⟨rfl, ?_⟩, rfl, _, rfl, rfl, rfl⟩
  · simp only [pending, cursorWrites, List.mem_singleton, forall_eq]
    exact .inr ⟨[0xFD#8], [], by decide, by decide⟩
  · simp only [pending, cursorWrites, List.mem_singleton, forall_eq]
    exact .inl ⟨[], [], by decide, rfl⟩

theorem witness_launched : ∃ s : State, s.eph = .gone ∧ EngNext s [] :=
  ⟨{ State.reset with eph := .gone }, rfl, .inr ⟨rfl, rfl⟩⟩

/-- A schedule in which every other agent moves is quiet. -/
theorem witness_quiet :
    quiet State.reset = true ∧ quiet { State.reset with sched := [.rx, .tick, .eng, .rx, .eng, .tick] } = true := by decide

/-- A sector of ERASE_SET and an address in it exist whatever the parameters are: the image base. -/
theorem witness_sector :
    ∃ (i : Nat) (r : Config.Region), Config.env.params.eraseSet[i]? = some r ∧
      r.contains Config.env.params.appBase.toNat = true ∧ quiet State.reset = true := by
  have hv := Config.params_valid
  have := hv.covered 0 (by have := hv.header; omega)
  rw [Nat.add_zero] at this
  obtain ⟨r, hr, hc⟩ := (Config.Params.inEraseSet_iff _ _).1 this
  obtain ⟨i, hi, rfl⟩ := List.getElem_of_mem hr
  exact ⟨i, _, List.getElem?_eq_getElem hi, hc, rfl⟩

theorem witness_reliable : exampleEnv.Reliable ∧ quiet State.reset = true := ⟨fun _ => rfl, by decide⟩

/-- A range that ends exactly at the top, one that passes it, and an empty one at the last address. -/
theorem witness_data :
    (start 0xFFFFFFFC#32 []).cursor.toNat + [0x01#8, 0x02#8, 0x03#8, 0x04#8].length = 2 ^ 32 ∧
      2 ^ 32 < (start 0xFFFFFFFD#32 []).cursor.toNat + [0x01#8, 0x02#8, 0x03#8, 0x04#8].length ∧
      (start 0xFFFFFFFF#32 []).cursor.toNat + ([] : List Byte).length ≤ 2 ^ 32 ∧
      quiet (start 0xFFFFFFFC#32 []) = true := by decide

/-- The branches of a programmed byte: data FF at the first index, an erased byte at the last, and no memory. -/
theorem witness_dataBytes :
    exampleEnv.Reliable ∧ quiet (start 0x08008000#32 []) = true ∧
      (start 0x08008000#32 []).cursor.toNat + [0xFF#8, 0x11#8].length ≤ 2 ^ 32 ∧ 1 < [0xFF#8, 0x11#8].length ∧
      [0xFF#8, 0x11#8].getD 0 0#8 = 0xFF#8 ∧ exampleEnv.params.inNvm 0x08008001 = true ∧
      [0xFF#8, 0x11#8].getD 1 0#8 ≠ 0xFF#8 ∧ readByte (start 0x08008000#32 []).nvm 0x08008001 = 0xFF#8 ∧
      exampleEnv.params.inNvm (start 0x20000000#32 []).cursor.toNat = false :=
  ⟨fun _ => rfl, rfl, by decide, by decide, by decide, by decide, by decide, by decide, by decide⟩

/-- Two frames onto erased memory at the image base, and no frame at all. -/
theorem witness_session :
    exampleEnv.Reliable ∧ quiet (start 0x08008000#32 []) = true ∧
      (start 0x08008000#32 []).cursor.toNat + [[0x11#8, 0x22#8, 0x33#8], [0x44#8]].flatten.length ≤ 2 ^ 32 ∧
      (∀ j, j < [[0x11#8, 0x22#8, 0x33#8], [0x44#8]].flatten.length →
        exampleEnv.params.inNvm ((start 0x08008000#32 []).cursor.toNat + j) = true ∧
          readByte (start 0x08008000#32 []).nvm ((start 0x08008000#32 []).cursor.toNat + j) = 0xFF#8) ∧
      ([] : List (List Byte)).flatten.length = 0 :=
  ⟨fun _ => rfl, rfl, by decide, by decide, rfl⟩

/-- An image whose first word is `w`. -/
def image (base : Nat) (w : Word) : Memory := writeBytes [] base [laneOf w 0, laneOf w 1, laneOf w 2, laneOf w 3]

theorem memRead_image (base : Nat) (w : Word) : memRead (image base w) base = w := by
  apply word_ext_lanes
  intro k hk
  obtain rfl | rfl | rfl | rfl : k = 0 ∨ k = 1 ∨ k = 2 ∨ k = 3 := by omega
  all_goals simp [memRead, image, readByte_writeBytes]

/-- The launch succeeds at both ends of the RAM range, whatever the parameters are. -/
theorem witness_launch :
    (∃ s : State, quiet s = true ∧
      memRead s.nvm Config.env.params.appBase.toNat = Config.env.params.ramLo ∧
        Config.env.params.ramLo ≤ memRead s.nvm Config.env.params.appBase.toNat ∧
        memRead s.nvm Config.env.params.appBase.toNat ≤ Config.env.params.ramHi) ∧
    ∃ s : State, quiet s = true ∧
      memRead s.nvm Config.env.params.appBase.toNat = Config.env.params.ramHi ∧
        Config.env.params.ramLo ≤ memRead s.nvm Config.env.params.appBase.toNat ∧
        memRead s.nvm Config.env.params.appBase.toNat ≤ Config.env.params.ramHi := by
  refine ⟨⟨start 0#32 (image Config.env.params.appBase.toNat Config.env.params.ramLo), rfl, memRead_image _ _, ?_⟩,
    start 0#32 (image Config.env.params.appBase.toNat Config.env.params.ramHi), rfl, memRead_image _ _, ?_⟩
  · show _ ≤ memRead (image _ _) _ ∧ memRead (image _ _) _ ≤ _
    rw [memRead_image]
    exact ⟨BitVec.le_refl _, Config.params_valid.ram⟩
  · show _ ≤ memRead (image _ _) _ ∧ memRead (image _ _) _ ≤ _
    rw [memRead_image]
    exact ⟨Config.params_valid.ram, BitVec.le_refl _⟩

/-- Images one below RAM_LO and one above RAM_HI (V112, V113), and an erased one (V115). -/
theorem witness_rejected :
    ¬ (exampleEnv.params.ramLo ≤ memRead (image 0x08008000 0x1FFFFFFF#32) exampleEnv.params.appBase.toNat ∧
        memRead (image 0x08008000 0x1FFFFFFF#32) exampleEnv.params.appBase.toNat ≤ exampleEnv.params.ramHi) ∧
      ¬ (exampleEnv.params.ramLo ≤ memRead (image 0x08008000 0x20020001#32) exampleEnv.params.appBase.toNat ∧
        memRead (image 0x08008000 0x20020001#32) exampleEnv.params.appBase.toNat ≤ exampleEnv.params.ramHi) ∧
      quiet (start 0#32 []) = true ∧
      ¬ (exampleEnv.params.ramLo ≤ memRead (start 0#32 []).nvm exampleEnv.params.appBase.toNat ∧
        memRead (start 0#32 []).nvm exampleEnv.params.appBase.toNat ≤ exampleEnv.params.ramHi) := by decide

theorem witness_alignedBase : (0x08008000 : Nat) % 4 = 0 := by decide

/-- Each branch of a programmed lane, failing and not failing. -/
theorem witness_programWord :
    (let s : State := { start 0#32 [(0x08008000, 0xA0#8)] with nvmLock := false }
     s.nvmLock = false ∧ exampleEnv.nvmFail s.draws = false ∧ failingEnv.nvmFail s.draws = true ∧
       exampleEnv.params.inNvm 0x08008000 = true ∧ exampleEnv.params.inNvm 0x20000000 = false ∧
       readByte s.nvm 0x08008000 ≠ 0xFF#8 ∧ readByte s.nvm 0x08008001 = 0xFF#8 ∧ laneOf 0x0000FF00#32 1 = 0xFF#8) := by
  decide

/-- A cell whose four lanes are erased memory. -/
theorem witness_readsBack :
    (let s : State := { start 0#32 [] with nvmLock := false }
     s.nvmLock = false ∧ exampleEnv.nvmFail s.draws = false ∧
       ∀ k, k < 4 → exampleEnv.params.inNvm ((0x08008000#32).toNat + k) = true ∧
         readByte s.nvm ((0x08008000#32).toNat + k) = 0xFF#8) := by decide

/-- Data 0xFF at the one lane that is not erased. -/
theorem witness_noFlag :
    (let s : State := { start 0#32 [(0x08008003, 0xA0#8)] with nvmLock := false }
     ∀ k, k < 4 → exampleEnv.params.inNvm ((0x08008000#32).toNat + k) = false ∨ (exampleEnv.nvmFail s.draws = false ∧
       (laneOf 0xFF000000#32 k = 0xFF#8 ∨ readByte s.nvm ((0x08008000#32).toNat + k) = 0xFF#8))) ∧
      ∀ k, k < 4 → failingEnv.params.inNvm ((0x20000000#32).toNat + k) = false := by decide

/-- A cell outside the memory, and the last one before it begins; a range that ends there, unaligned, in an environment
where every operation fails. -/
theorem witness_outside :
    (∀ k, k < 4 → failingEnv.params.inNvm ((0x20000000#32).toNat + k) = false) ∧
      (∀ k, k < 4 → exampleEnv.params.inNvm ((0x07FFFFFC#32).toNat + k) = false) ∧
      failingEnv.params.ok = true ∧
      (let s := start 0x07FFFFFD#32 []
       quiet s = true ∧ s.cursor.toNat + [0x11#8, 0x22#8, 0x33#8].length ≤ 2 ^ 32 ∧
         ∀ j, j < [0x11#8, 0x22#8, 0x33#8].length → failingEnv.params.inNvm (s.cursor.toNat + j) = false) :=
  ⟨by decide, by decide, (Config.Params.ok_iff _).2 Config.exampleParams_valid, by decide⟩

/-- Two states that differ in what a reset forgets: between operations, and during an erase. -/
theorem witness_forgets (during : Bool) :
    (let e : ResetEvent := ⟨during, .update, []⟩
     let s : State := { start 0x100#32 [] with sched := [.reset e], eph := .busy [.nvmEraseSector ⟨0, 4⟩] }
     let u : State := { s with cursor := 0#32, rxlen := 3, tx := [0x06#8], cpuImask := true, nvmFlags := [1] }
     s.sched = .reset e :: [] ∧ u.sched = .reset e :: [] ∧ u.nvm = s.nvm ∧ u.draws = s.draws ∧ u.ticks = s.ticks ∧
       u.eph = s.eph ∧ u.cursor ≠ s.cursor) := ⟨rfl, rfl, rfl, rfl, rfl, rfl, by
  show (0#32 : Word) ≠ 0x100#32
  decide⟩

/-- An UNKNOWN at a poll and behind a pause does nothing to the flags; an erase may add, and does not clear. -/
theorem witness_flagSteps :
    (let s := received [0x5A#8, 0xA5#8, 0x7F#8, 0x01#8, 0x00#8, 0xAA#8, 0x2A#8]
     ¬ MayClearFlags s ∧ ¬ MayAddFlags s ∧ resetNext s = false ∧ ∃ t, step s = .next t) ∧
    (let s := midUnknown []
     ¬ MayClearFlags s ∧ ¬ MayAddFlags s ∧ resetNext s = false ∧ ∃ t, step s = .next t) ∧
    (let s : State := { start 0#32 [] with eph := .busy [.nvmEraseSector ⟨0, 4⟩, .nvmLock], sched := [.eng] }
     ¬ MayClearFlags s ∧ MayAddFlags s ∧ resetNext s = false ∧ ∃ t, step s = .next t) ∧
    (let s : State := { start 0#32 [] with eph := .busy [.nvmClearFlags, .nvmLock], nvmFlags := [3] }
     MayClearFlags s ∧ ¬ MayAddFlags s ∧ resetNext s = false ∧ ∃ t, step s = .next t ∧ t.nvmFlags = []) := by
  have hd : decode (buffered (received [0x5A#8, 0xA5#8, 0x7F#8, 0x01#8, 0x00#8, 0xAA#8, 0x2A#8])) =
      .frame (.unknown 0x7F#8 [0xAA#8]) [] := by decide
  refine ⟨⟨?_, ?_, rfl, _, rfl⟩, ⟨?_, ?_, rfl, _, rfl⟩, ⟨?_, ⟨_, .head _, rfl⟩, rfl, _, rfl⟩, .head _, ?_, rfl, _, rfl, rfl⟩
  · rintro ⟨q, r, h⟩
    rw [hd] at h
    cases h
  · rintro ⟨q, r, h | h⟩ <;> rw [hd] at h <;> cases h
  all_goals simp [MayClearFlags, MayAddFlags, midUnknown, mutates]

theorem witness_locked : State.reset.nvmLock = true := rfl

/-- All five invariants hold in one state that steps. -/
theorem witness_invariants :
    MemoriesOk Config.env.params State.reset ∧ LockOk State.reset ∧ RepliesOk State.reset ∧
      LaunchOk Config.env.params State.reset ∧ CursorOk Config.env.params State.reset ∧
      resetNext State.reset = false ∧ ∃ t, step State.reset = .next t := by
  refine ⟨⟨rfl, ?_, rfl, ?_, Nat.zero_le _, flagsWf_unionFlags _ rfl, ?_⟩, rfl, ⟨?_, ?_⟩, ⟨?_, ?_, rfl⟩, ⟨rfl, ?_⟩, rfl, _,
    rfl⟩ <;> simp [State.reset, pending]

/-- A launched state meets the launch invariant's second half. -/
theorem witness_launchOk_gone :
    LaunchOk exampleEnv.params
      { State.reset with eph := .gone, dstate := .launched, cpuImask := true, tmrEn := false, tmrCnt := 0,
                         cpuVtbase := 0x08008000#32, cpuMsp := 0x20020000#32 } :=
  ⟨by simp, fun _ => ⟨rfl, rfl, rfl, rfl, by decide⟩, rfl⟩

/-- The discipline's clauses: polling locked, and both mutating primitives unlocked. -/
theorem witness_lockOk :
    LockOk State.reset ∧
      LockOk { State.reset with nvmLock := false, eph := .busy [.nvmEraseSector ⟨0, 4⟩, .nvmLock] } ∧
      LockOk { State.reset with nvmLock := false, eph := .busy [.nvmProgramWord 0#32 0#32, .nvmLock] } :=
  ⟨rfl, rfl, rfl⟩

/-- V63: a frame of RX_BUF_SIZE + 1 bytes, six of them buffered. -/
theorem witness_hung :
    Hung exampleEnv (received [0x5A#8, 0xA5#8, 0x02#8, 0xFB#8, 0x07#8, 0x00#8]) ∧
      resetNext (received [0x5A#8, 0xA5#8, 0x02#8, 0xFB#8, 0x07#8, 0x00#8]) = false :=
  ⟨⟨rfl, by decide, by decide, by decide, by decide⟩, rfl⟩

/-- A reset into direct mode; a turn of RX and of the timer behind it; the launch. -/
theorem witness_directBoot :
    (∃ t, step { State.reset with sched := [.reset ⟨false, .direct, []⟩, .rx, .tick] } = .next t ∧
        t.eph = .busy directBootActions ∧ t.sched = [.rx, .tick]) ∧
      ∀ ts, (let s : State := { State.reset with eph := .busy directBootActions, sched := ts }
        s.eph = .busy directBootActions ∧ s.sched = ts ∧ (ts = [] → quiet s = true ∧ EngNext s [])) :=
  ⟨⟨_, rfl, rfl, rfl⟩, fun _ => ⟨rfl, rfl, fun h => by subst h; exact ⟨rfl, .inr ⟨rfl, rfl⟩⟩⟩⟩

end Sys2Proof.Tests
end

section
/-! PROOF. UNKNOWN under a quiet schedule (spec 41 R155, 20 R73): its one action sends NACK, and the pass then clears
RXLEN as after any dispatch. -/

namespace Sys2Proof.CommandDispatcher

open Sys2Proof.Machine Sys2Proof.Safety

theorem exec_unknown (cmd : Byte) (p : List Byte) (s : State) :
    exec (.unknown cmd p) s = .next (runPass Config.env (unknownActions ++ [.discard]) s) := rfl

theorem performAll_unknownActions (c : Config.Env) (s : State) :
    performAll c unknownActions s = txByte Config.nack s := rfl

/-- The engine's fields after the pass of UNKNOWN, in any environment, are those of the state before with one NACK sent
and ENG back in POLL. -/
theorem engineSame_of_unknown_passDone {c : Config.Env} {s t : State} (h : PassDone c unknownActions s t) :
    EngineSame (setPhase .poll (txByte Config.nack s)) t := by
  have he := h.engine
  rwa [performAll_unknownActions] at he

/-- Settles O31: the pass of UNKNOWN runs to its end, and sending NACK touches none of the registers named. -/
theorem unknownIsNackedAndNothingElse : Obligations.UnknownIsNackedAndNothingElse := by
  intro cmd p s hq
  have hdone := runPass_plain Config.env plain_unknownActions hq
  have he := engineSame_of_unknown_passDone hdone
  have hsession : SessionSame s _ := ⟨he.dstate, he.cursor, he.lstate⟩
  have hnvm : NvmSame s _ := ⟨fun a => by rw [he.nvm]; rfl, he.nvmLock, he.nvmFlags⟩
  have hcpu : CpuSame s _ := ⟨he.cpuMsp, he.cpuPc, he.cpuImask, he.cpuVtbase⟩
  exact ⟨_, exec_unknown cmd p s, he.tx, hdone.ended, hsession, hnvm, hcpu, hdone.timer, hdone.rx⟩

end Sys2Proof.CommandDispatcher
end

section
/-! PROOF. The exceptional outcomes of the decode pass (spec 60 R242, R243, R248): which rejection the buffered bytes
give, said of RXBUF and RXLEN, and what ENG's step makes of a rejection. -/

namespace Sys2Proof.PassErrors

open Sys2Proof.Machine Sys2Proof.Safety

/-! Ranges of bytes read from a memory. -/

theorem readBytes_succ (m : Memory) (a n : Nat) : readBytes m a (n + 1) = readByte m a :: readBytes m (a + 1) n := by
  simp [readBytes, List.range_succ_eq_map, Function.comp_def, Nat.add_assoc, Nat.add_comm 1]

theorem readBytes_add (m : Memory) (a n k : Nat) :
    readBytes m a (n + k) = readBytes m a n ++ readBytes m (a + n) k := by
  simp [readBytes, List.range_add, Function.comp_def, Nat.add_assoc]

/-! What the buffer decodes to. -/

/-- A buffer of 6 or more bytes, laid out as the header of a frame and what stands from offset 5 on (30 R90). -/
theorem buffered_header {s : State} (h : 6 ≤ s.rxlen) :
    ∃ rest, readBytes s.rxbuf 5 (s.rxlen - 5) = readByte s.rxbuf 5 :: rest ∧
      buffered s = readByte s.rxbuf 0 :: readByte s.rxbuf 1 :: readByte s.rxbuf 2 :: readByte s.rxbuf 3 ::
        readByte s.rxbuf 4 :: readByte s.rxbuf 5 :: rest := by
  obtain ⟨m, hm⟩ := Nat.exists_eq_add_of_le' h
  refine ⟨readBytes s.rxbuf 6 m, ?_, ?_⟩
  · rw [hm, show m + 6 - 5 = m + 1 by omega, readBytes_succ]
  · simp only [buffered, hm, readBytes_succ]

/-- Fewer than 6 bytes: the first test of the pass (40 R122). -/
theorem decode_buffered_of_short {s : State} (h : s.rxlen < 6) :
    decode (buffered s) = .rejected .incomplete := by
  have hlen : (buffered s).length < 6 := by rwa [buffered, length_readBytes]
  unfold decode decodeWith
  split
  · rename_i hb
    simp only [hb, List.length_cons] at hlen
    omega
  · rfl

/-- The second test of the pass (40 R123). -/
theorem decode_buffered_of_badSync {s : State} (h6 : 6 ≤ s.rxlen)
    (hsync : readByte s.rxbuf 0 ≠ Config.sync.a ∨ readByte s.rxbuf 1 ≠ Config.sync.b) :
    decode (buffered s) = .rejected .badSync := by
  obtain ⟨rest, -, hb⟩ := buffered_header h6
  rw [hb, decode, decodeWith, if_neg (not_and_or.mpr hsync)]

/-- Behind matching sync bytes the length field and the bytes from offset 5 on decide (40 R124). -/
theorem decode_buffered_of_sync {s : State} (h6 : 6 ≤ s.rxlen) (ha : readByte s.rxbuf 0 = Config.sync.a)
    (hb : readByte s.rxbuf 1 = Config.sync.b) :
    decode (buffered s) = decodeBody (readByte s.rxbuf 2) (readByte s.rxbuf 3) (readByte s.rxbuf 4)
      (payloadLength (readByte s.rxbuf 3) (readByte s.rxbuf 4)) (readBytes s.rxbuf 5 (s.rxlen - 5)) := by
  obtain ⟨rest, hbody, hbuf⟩ := buffered_header h6
  rw [hbuf, hbody, decode, decodeWith, if_pos ⟨ha, hb⟩]

/-- No byte at the place of the check byte (40 R125). -/
theorem decodeBody_of_length_le {cmd lo hi : Byte} {n : Nat} {body : List Byte} (h : body.length ≤ n) :
    decodeBody cmd lo hi n body = .rejected .incomplete := by
  rw [decodeBody, List.drop_of_length_le h]

/-- The third test of the pass (40 R125). -/
theorem decode_buffered_of_incomplete {s : State} (ha : readByte s.rxbuf 0 = Config.sync.a)
    (hb : readByte s.rxbuf 1 = Config.sync.b)
    (hlt : s.rxlen < 6 + payloadLength (readByte s.rxbuf 3) (readByte s.rxbuf 4)) :
    decode (buffered s) = .rejected .incomplete := by
  rcases Nat.lt_or_ge s.rxlen 6 with h6 | h6
  · exact decode_buffered_of_short h6
  · rw [decode_buffered_of_sync h6 ha hb]
    exact decodeBody_of_length_le (by rw [length_readBytes]; omega)

/-- A payload and, behind it, a byte that is not their check byte (40 R126). -/
theorem decodeBody_of_badSum {cmd lo hi sum : Byte} {payload surplus : List Byte}
    (h : checkByte cmd lo hi payload ≠ sum) :
    decodeBody cmd lo hi payload.length (payload ++ sum :: surplus) = .rejected .badSum := by
  rw [decodeBody, List.drop_left, List.take_left]
  exact if_neg h

/-- The sum over command, length and payload is the sum over 3 + N bytes of RXBUF from index 2 on (30 R94). -/
theorem checkByte_readBytes (m : Memory) (n : Nat) :
    checkByte (readByte m 2) (readByte m 3) (readByte m 4) (readBytes m 5 n) = byteSum (readBytes m 2 (3 + n)) := by
  rw [Nat.add_comm 3 n]
  simp only [checkByte, readBytes_succ]

/-- The last test of the pass (40 R126). -/
theorem decode_buffered_of_badSum {s : State} (h6 : 6 ≤ s.rxlen) (ha : readByte s.rxbuf 0 = Config.sync.a)
    (hb : readByte s.rxbuf 1 = Config.sync.b) {n : Nat}
    (hn : payloadLength (readByte s.rxbuf 3) (readByte s.rxbuf 4) = n) (hle : 6 + n ≤ s.rxlen)
    (hsum : byteSum (readBytes s.rxbuf 2 (3 + n)) ≠ readByte s.rxbuf (5 + n)) :
    decode (buffered s) = .rejected .badSum := by
  have hbody : readBytes s.rxbuf 5 (s.rxlen - 5) =
      readBytes s.rxbuf 5 n ++ readByte s.rxbuf (5 + n) :: readBytes s.rxbuf (5 + n + 1) (s.rxlen - 6 - n) := by
    rw [← readBytes_succ, ← readBytes_add]
    congr 1
    omega
  rw [← checkByte_readBytes] at hsum
  have hreject := decodeBody_of_badSum (surplus := readBytes s.rxbuf (5 + n + 1) (s.rxlen - 6 - n)) hsum
  rw [length_readBytes] at hreject
  rwa [decode_buffered_of_sync h6 ha hb, hn, hbody]

/-! ENG's step on a rejected buffer. -/

/-- At a poll ENG's step is a pass, behind the turn taken off the schedule (40 R130). -/
theorem step_poll {s : State} {ts : List Turn} (he : s.eph = .poll) (hn : EngNext s ts) :
    step s = passIn Config.env exec (setSched ts s) := by
  rcases hn with hs | ⟨hs, rfl⟩
  · simp only [step, turn, turnIn, hs, he, engMoveIn, setSched_eph]
  · simp only [step, turn, turnIn, hs, he, engMoveIn, setSched_self hs]

/-- A rejection without a recovery makes the pass wait (60 R248). -/
theorem step_waits {s : State} {ts : List Turn} {why : Reject} (he : s.eph = .poll) (hn : EngNext s ts)
    (hd : decode (buffered s) = .rejected why) (hr : recovery why = none) : step s = .next (setSched ts s) := by
  have hd' : decodeWith Config.env.sync (buffered (setSched ts s)) = .rejected why := hd
  simp only [step_poll he hn, passIn, hd', hr]

/-- A rejection with a recovery makes the pass perform its actions (60 R241). -/
theorem step_recovers {s : State} {ts : List Turn} {why : Reject} {k : List Action} (he : s.eph = .poll)
    (hn : EngNext s ts) (hd : decode (buffered s) = .rejected why) (hr : recovery why = some k) :
    step s = .next (runPass Config.env k (setSched ts s)) := by
  have hd' : decodeWith Config.env.sync (buffered (setSched ts s)) = .rejected why := hd
  simp only [step_poll he hn, passIn, hd', hr]

theorem sched_suffix_of_engNext {s : State} {ts : List Turn} (hn : EngNext s ts) : ts <:+ s.sched := by
  rcases hn with hs | ⟨hs, rfl⟩
  · rw [hs]
    exact List.suffix_cons _ _
  · exact List.nil_suffix

/-- Taking ENG's turn off the schedule keeps what the timer may do. -/
theorem timerSame_of_setSched {s t : State} {ts : List Turn} (hts : ts <:+ s.sched)
    (h : TimerSame (setSched ts s) t) : TimerSame s t where
  enable := h.enable
  count := fun hc => h.count (hc.imp id (noTick_of_suffix hts))

theorem plain_map_tx (bs : List Byte) : ∀ a ∈ bs.map Action.tx, plain a = true := by simp

/-- A list of transmits only lengthens TX (10 R41). -/
theorem performAll_map_tx (c : Config.Env) (bs : List Byte) (s : State) :
    performAll c (bs.map .tx) s = { s with tx := s.tx ++ bs } := by
  induction bs generalizing s with
  | nil => simp
  | cons b bs ih => simp [ih, perform, txByte]

/-- A recovery that sends the replies `bs` and discards the buffer: the pass ends, and of the engine, storage and
processor only TX has changed (60 R241, R253). -/
theorem step_repliesAndDiscards {s : State} {ts : List Turn} {why : Reject} (bs : List Byte) (he : s.eph = .poll)
    (hn : EngNext s ts) (hq : quiet s = true) (hd : decode (buffered s) = .rejected why)
    (hr : recovery why = some (bs.map .tx ++ [.discard])) :
    ∃ t, step s = .next t ∧ PassEnded t ∧ t.tx = s.tx ++ bs ∧ SessionSame s t ∧ NvmSame s t ∧ CpuSame s t ∧
      TimerSame s t ∧ RxSide s t := by
  have hsuffix := sched_suffix_of_engNext hn
  have hq' : quiet (setSched ts s) = true := quiet_of_suffix hsuffix hq
  obtain ⟨hengine, hended, hrx, htimer, -⟩ := runPass_plain Config.env (plain_map_tx bs) hq'
  rw [performAll_map_tx] at hengine
  have hsession : SessionSame s _ := ⟨hengine.dstate, hengine.cursor, hengine.lstate⟩
  have hnvm : NvmSame s _ := ⟨fun a => by rw [hengine.nvm]; rfl, hengine.nvmLock, hengine.nvmFlags⟩
  have hcpu : CpuSame s _ := ⟨hengine.cpuMsp, hengine.cpuPc, hengine.cpuImask, hengine.cpuVtbase⟩
  exact ⟨_, step_recovers he hn hd hr, hended, hengine.tx, hsession, hnvm, hcpu,
    timerSame_of_setSched hsuffix htimer, ⟨hrx.wire, hrx.sampled⟩⟩

/-! The obligations. -/

/-- Settles O14: either length test rejects the buffer as incomplete, for which there is no recovery. -/
theorem incompleteFrameWaits : Obligations.IncompleteFrameWaits := by
  intro s ts he hn hcase
  have hd : decode (buffered s) = .rejected .incomplete := by
    rcases hcase with hshort | ⟨ha, hb, hlt⟩
    · exact decode_buffered_of_short hshort
    · exact decode_buffered_of_incomplete ha hb hlt
  exact step_waits he hn hd rfl

/-- Settles O15: the recovery of a wrong sync byte is the discard with no reply before it. -/
theorem badSyncDiscardsSilently : Obligations.BadSyncDiscardsSilently := by
  intro s ts he hn hq h6 hsync
  have hd := decode_buffered_of_badSync h6 hsync
  simpa using step_repliesAndDiscards [] he hn hq hd rfl

/-- Settles O16: the recovery of a wrong check byte is one NACK and then the discard. -/
theorem badSumIsNackedAndDiscarded : Obligations.BadSumIsNackedAndDiscarded := by
  intro s ts he hn hq h6 ha hb hle hsum
  have hd := decode_buffered_of_badSum h6 ha hb rfl hle hsum
  exact step_repliesAndDiscards [Config.nack] he hn hq hd rfl

end Sys2Proof.PassErrors
end

section
/-! PROOF. The frame format as a round trip, and the decode pass's tests as a chain (spec 30 R90 to R103; 40 R121 to
R128; 60 R252): what stands behind the header decides, said once of `decodeBody`. -/

namespace Sys2Proof.FrameDecoder

open Sys2Proof.Machine Sys2Proof.PassErrors

/-! Instructions a frame can carry. -/

theorem payload_length_lt {i : Instr} (h : i.wellFormed = true) : i.payload.length < 65536 := by
  cases i <;> simp_all [Instr.wellFormed, Instr.payload, payloadFits]

/-- The command byte and the payload are all there is of a well-formed instruction (30 R95). -/
theorem selectCommand_code_payload {i : Instr} (h : i.wellFormed = true) : selectCommand i.code i.payload = i := by
  cases i with
  | connect p => rfl
  | data p => rfl
  | finish p => rfl
  | unknown cmd p =>
    obtain ⟨⟨hc, hd⟩, hf⟩ : (cmd ≠ Config.cmdConnect ∧ cmd ≠ Config.cmdData) ∧ cmd ≠ Config.cmdFinish := by
      simpa [codeUnknown] using ((Bool.and_eq_true _ _).mp h).1
    simp [selectCommand, Instr.code, Instr.payload, hc, hd, hf]

theorem wellFormed_selectCommand (cmd : Byte) {p : List Byte} (h : p.length < 65536) :
    (selectCommand cmd p).wellFormed = true := by
  unfold selectCommand
  split_ifs with hc hd hf <;> simp [Instr.wellFormed, payloadFits, codeUnknown, *]

/-! What stands behind the header. -/

/-- A payload and, behind it, their check byte (40 R126, R127). -/
theorem decodeBody_of_checkByte (cmd lo hi : Byte) (payload surplus : List Byte) :
    decodeBody cmd lo hi payload.length (payload ++ checkByte cmd lo hi payload :: surplus) =
      .frame (selectCommand cmd payload) surplus := by
  rw [decodeBody, List.drop_left, List.take_left]
  exact if_pos rfl

/-- The tests behind the header as a chain (40 R125 to R128). -/
theorem decodeBody_eq_ite (cmd lo hi : Byte) (n : Nat) (body : List Byte) :
    decodeBody cmd lo hi n body =
      if body.length ≤ n then .rejected .incomplete
      else if checkByte cmd lo hi (body.take n) = body.getD n 0#8 then
        .frame (selectCommand cmd (body.take n)) (body.drop (n + 1))
      else .rejected .badSum := by
  rcases Nat.lt_or_ge n body.length with hlt | hge
  · rw [if_neg (by omega), decodeBody, List.drop_eq_getElem_cons hlt, List.getD_eq_getElem _ _ hlt]
  · rw [if_pos hge, decodeBody_of_length_le hge]

/-- Which bodies give a frame: the payload of the announced length, the check byte, the surplus. -/
theorem decodeBody_eq_frame {cmd lo hi : Byte} {n : Nat} {body surplus : List Byte} {i : Instr}
    (h : decodeBody cmd lo hi n body = .frame i surplus) :
    ∃ payload, payload.length = n ∧ i = selectCommand cmd payload ∧
      body = payload ++ checkByte cmd lo hi payload :: surplus := by
  rw [decodeBody_eq_ite] at h
  split_ifs at h with hlen hsum
  obtain ⟨hi, hs⟩ := Decoded.frame.inj h
  have hlt : n < body.length := by omega
  refine ⟨body.take n, by simp; omega, hi.symm, ?_⟩
  rw [hsum, ← hs, List.getD_eq_getElem _ _ hlt, ← List.drop_eq_getElem_cons hlt, List.take_append_drop]

/-- Behind the two sync bytes, and with a sixth byte there, the body decides (40 R122, R123). -/
theorem decodeWith_sync (k : Config.Sync) (cmd lo hi : Byte) {body : List Byte} (h : body ≠ []) :
    decodeWith k (k.a :: k.b :: cmd :: lo :: hi :: body) = decodeBody cmd lo hi (payloadLength lo hi) body := by
  obtain ⟨b, rest, rfl⟩ := List.exists_cons_of_ne_nil h
  exact if_pos ⟨rfl, rfl⟩

/-- A buffer that gives a frame begins with the two sync bytes. -/
theorem decodeWith_eq_frame {k : Config.Sync} {buf surplus : List Byte} {i : Instr}
    (h : decodeWith k buf = .frame i surplus) :
    ∃ cmd lo hi body, buf = k.a :: k.b :: cmd :: lo :: hi :: body ∧
      decodeBody cmd lo hi (payloadLength lo hi) body = .frame i surplus := by
  unfold decodeWith at h
  split at h
  · rename_i b0 b1 cmd lo hi b5 rest
    split_ifs at h with hsync
    obtain ⟨rfl, rfl⟩ := hsync
    exact ⟨cmd, lo, hi, b5 :: rest, rfl, h⟩
  · cases h

/-- A frame with the payload replaced by `q` of the same length, its check byte kept, is decoded as that payload with
that check byte. -/
theorem decodeWith_encode_payload (k : Config.Sync) {i : Instr} (h : i.wellFormed = true) {q : List Byte}
    (hq : q.length = i.payload.length) (sum : Byte) (surplus : List Byte) :
    decodeWith k (k.a :: k.b :: i.code :: BitVec.ofNat 8 i.payload.length ::
        BitVec.ofNat 8 (i.payload.length / 256) :: (q ++ sum :: surplus)) =
      decodeBody i.code (BitVec.ofNat 8 i.payload.length) (BitVec.ofNat 8 (i.payload.length / 256)) q.length
        (q ++ sum :: surplus) := by
  rw [decodeWith_sync k _ _ _ (by simp), payloadLength_ofNat (payload_length_lt h), hq]

/-- The encoding written out byte by byte, with surplus bytes behind it (30 R90, R103). -/
theorem encodeWith_append (k : Config.Sync) (i : Instr) (surplus : List Byte) :
    encodeWith k i ++ surplus = k.a :: k.b :: i.code :: BitVec.ofNat 8 i.payload.length ::
      BitVec.ofNat 8 (i.payload.length / 256) :: (i.payload ++ checkByte i.code (BitVec.ofNat 8 i.payload.length)
        (BitVec.ofNat 8 (i.payload.length / 256)) i.payload :: surplus) := by
  simp [encodeWith, frameBytes]

/-- Replacing one byte of a list by another changes its sum (40 R126). -/
theorem byteSum_set_ne {p : List Byte} {j : Nat} {b : Byte} (hj : j < p.length) (hb : b ≠ p.getD j 0#8) :
    byteSum (p.set j b) ≠ byteSum p := by
  induction p generalizing j with
  | nil => simp at hj
  | cons x p ih =>
    cases j with
    | zero =>
      intro h
      exact hb (by simpa [byteSum] using h)
    | succ j =>
      intro h
      exact ih (by simpa using hj) (by simpa using hb) (by simpa [byteSum] using h)

/-! The obligations. -/

/-- Settles O2: the length bytes give back the payload's length, and the sum of the bytes before it is the check byte. -/
theorem decodeOfEncodeIsTheInstruction : Obligations.DecodeOfEncodeIsTheInstruction := by
  intro k i surplus h
  rw [encodeWith_append, decodeWith_encode_payload k h rfl, decodeBody_of_checkByte, selectCommand_code_payload h]

/-- Settles O3: each test of the decoder that passes fixes bytes of the buffer, and together they fix all of them. -/
theorem decodedBufferIsTheEncoding : Obligations.DecodedBufferIsTheEncoding := by
  intro k buf i surplus h
  obtain ⟨cmd, lo, hi, body, rfl, hbody⟩ := decodeWith_eq_frame h
  obtain ⟨payload, hlen, rfl, rfl⟩ := decodeBody_eq_frame hbody
  obtain ⟨hlo, hhi⟩ := ofNat_payloadLength lo hi
  refine ⟨wellFormed_selectCommand cmd (hlen ▸ payloadLength_lt lo hi), ?_⟩
  rw [encodeWith_append, code_selectCommand, payload_selectCommand, hlen, hlo, hhi]

/-- Settles O4: the pattern of six bytes is the first test, and `decodeBody_eq_ite` gives those behind the sync bytes. -/
theorem decodeTestsInFixedOrder : Obligations.DecodeTestsInFixedOrder := by
  intro k buf n
  have hn : n = payloadLength (buf.getD 3 0#8) (buf.getD 4 0#8) := rfl
  clear_value n
  rcases Nat.lt_or_ge buf.length 6 with hshort | hlong
  · rw [if_pos hshort]
    unfold decodeWith
    split
    · simp only [List.length_cons] at hshort
      omega
    · rfl
  · rw [if_neg (Nat.not_lt.mpr hlong)]
    match buf, hlong, hn with
    | b0 :: b1 :: cmd :: lo :: hi :: b5 :: rest, _, hn =>
      change decodeWith k (b0 :: b1 :: cmd :: lo :: hi :: b5 :: rest) = if b0 ≠ k.a ∨ b1 ≠ k.b then _ else _
      by_cases hsync : b0 = k.a ∧ b1 = k.b
      · obtain ⟨rfl, rfl⟩ := hsync
        change n = payloadLength lo hi at hn
        rw [decodeWith_sync k cmd lo hi (List.cons_ne_nil b5 rest), decodeBody_eq_ite, ← hn]
        rw [Nat.add_comm 3 n, Nat.add_comm 5 n, Nat.add_comm 6 n]
        simp [checkByte, byteSum]
      · rw [decodeWith, if_neg hsync, if_pos (not_and_or.mp hsync)]

/-- Settles O5: no reduction but the last one matters. -/
theorem checkByteIsTheModularSum : Obligations.CheckByteIsTheModularSum := by
  intro cmd lo hi payload
  simp only [checkByte, toNat_byteSum, List.map_cons, List.sum_cons, Nat.add_assoc]

/-- Settles O6: the frame is decoded with the changed payload and the check byte of the old one, and their sums differ. -/
theorem singleCorruptedByteIsDetected : Obligations.SingleCorruptedByteIsDetected := by
  intro k i surplus j b h hj hb
  have hne := byteSum_set_ne hj hb
  rw [encodeWith_append, Nat.add_comm 5 j]
  simp only [List.set_cons_succ, List.set_append_left _ _ hj]
  rw [decodeWith_encode_payload k h (List.length_set ..)]
  apply decodeBody_of_badSum
  simpa [checkByte, byteSum] using hne

/-- Settles O1: each buffer is written out, so the decoder computes. -/
theorem workedFramesDecode : Obligations.WorkedFramesDecode := by
  unfold Obligations.WorkedFramesDecode
  decide

end Sys2Proof.FrameDecoder
end

section
/-! PROOF. The controller's operations and their operands (spec 42 R184 to R189; 20 R62, R63; 93 U7): what an erase and a
program operation leave in NVM, in the flags and behind a lock, for any environment. -/

namespace Sys2Proof.NvmController

open Sys2Proof.Machine Sys2Proof.Safety

/-! Operands. -/

/-- Settles O35: the cells are the multiples of 4 from the first cell on, and the last one holds the range's last byte. -/
theorem writeCoversTheOverlappingCells : Obligations.WriteCoversTheOverlappingCells := by
  intro addr len cell
  have hmod := firstCell_mod addr
  have hle := firstCell_le addr
  have hlt : addr < firstCell addr + 4 := by unfold firstCell; omega
  rw [mem_cellsOf]
  rcases Nat.eq_zero_or_pos len with rfl | hpos
  · simp [cellCount]
  · obtain ⟨hlast, hend, hcount⟩ := cellCount_pos (addr := addr) hpos
    constructor
    · rintro ⟨i, hi, rfl⟩
      omega
    · rintro ⟨hcell, hbefore, hbehind, -⟩
      exact ⟨(cell - firstCell addr) / 4, by omega, by omega⟩

/-- Inside the range the source byte is the data's (42 R189). -/
theorem sourceByte_inside {addr a : Nat} {data : List Byte} (h1 : addr ≤ a) (h2 : a < addr + data.length) :
    sourceByte addr data a = data.getD (a - addr) 0#8 := by
  have hlt : a - addr < data.length := by omega
  rw [sourceByte, if_pos ⟨h1, h2⟩, List.getD_eq_getElem _ _ hlt, List.getD_eq_getElem _ _ hlt]

theorem sourceByte_outside {addr a : Nat} {data : List Byte} (h : ¬ (addr ≤ a ∧ a < addr + data.length)) :
    sourceByte addr data a = Config.erased := if_neg h

theorem laneOf_assembleWord (cell addr : Nat) (data : List Byte) {k : Nat} (hk : k < 4) :
    laneOf (assembleWord cell addr data) k = sourceByte addr data (cell + k) := by
  have h := laneOf_assemble_eq_sourceByte cell addr data (x := cell + k) (by omega) (by omega)
  rwa [Nat.add_sub_cancel_left] at h

/-- The word of a cell depends on where the cell lies in the write only, not on where the write lies. -/
theorem assembleWord_add (base cell addr : Nat) (data : List Byte) :
    assembleWord (base + cell) (base + addr) data = assembleWord cell addr data := by
  have hbyte : ∀ a, sourceByte (base + addr) data (base + a) = sourceByte addr data a := by
    intro a
    simp only [sourceByte, Nat.add_assoc, Nat.add_le_add_iff_left, Nat.add_lt_add_iff_left, Nat.add_sub_add_left]
  simp only [assembleWord, Nat.add_assoc, hbyte]

/-- Settles O34: the lanes are the source bytes, and each worked case is that case at address 0. -/
theorem assembledWordFollowsTheLaneRule : Obligations.AssembledWordFollowsTheLaneRule := by
  refine ⟨fun cell addr data k hk => ?_, fun A _ => ⟨?_, ?_, ?_, ?_, ?_, ?_⟩⟩
  · rw [laneOf_assembleWord cell addr data hk]
    split_ifs with hin
    · exact sourceByte_inside hin.1 hin.2
    · exact sourceByte_outside hin
  · exact (assembleWord_add A 0 0 _).trans (by decide)
  · exact (assembleWord_add A 0 0 _).trans (by decide)
  · exact (assembleWord_add A 0 0 _).trans (by decide)
  · exact (assembleWord_add A 4 0 _).trans (by decide)
  · exact (assembleWord_add A 0 3 _).trans (by decide)
  · exact (assembleWord_add A 4 3 _).trans (by decide)

/-- Settles O39: the word read is the word of its four bytes, which never wraps. -/
theorem memReadIsLittleEndian : Obligations.MemReadIsLittleEndian := fun _ _ => toNat_wordOfLanes _ _ _ _

/-! Erase and program operations. -/

/-- Settles O38: an unlocked erase refills its sector with the draws or empties it. -/
theorem eraseSectorErasesItsSectorOnly : Obligations.EraseSectorErasesItsSectorOnly := by
  intro c r s a hl
  rw [nvmEraseSector_nvm, hl]
  exact readByte_erasedNvm c s.draws r s.nvm a

theorem readByte_nvmProgramWord {c : Config.Env} (cell w : Word) {s : State} (hl : s.nvmLock = false) (a : Nat) :
    readByte (nvmProgramWord c cell w s).nvm a =
      if cell.toNat ≤ a ∧ a < cell.toNat + 4 then
        laneResult c s.draws a (laneOf w (a - cell.toNat)) (readByte s.nvm a)
      else readByte s.nvm a := by
  rw [nvmProgramWord_nvm, hl]
  exact readByte_programmedNvm c s.draws cell.toNat w s.nvm a

/-- Settles O36: inside the cell the branches are those of the lane result. -/
theorem programWordFollowsTheLaneBranches : Obligations.ProgramWordFollowsTheLaneBranches :=
  fun _ cell w _ a hl => readByte_nvmProgramWord cell w hl a

/-- A word programmed without failure onto an erased byte of memory leaves its lane there (42 R185). -/
theorem laneResult_onto_erased {c : Config.Env} {n a : Nat} (d : Byte) (hin : c.params.inNvm a = true)
    (hf : c.nvmFail n = false) : laneResult c n a d Config.erased = d := by
  unfold laneResult
  by_cases hd : d = Config.erased <;> simp [hin, hf, hd]

/-- Settles O40: each of the four bytes read is the lane programmed there. -/
theorem programmedWordReadsBack : Obligations.ProgrammedWordReadsBack := by
  intro c cell w s hl hf hcell
  have hread : ∀ k, k < 4 → readByte (nvmProgramWord c cell w s).nvm (cell.toNat + k) = laneOf w k := by
    intro k hk
    obtain ⟨hin, hold⟩ := hcell k hk
    rw [readByte_nvmProgramWord cell w hl, if_pos (by omega), hold, Nat.add_sub_cancel_left]
    exact laneResult_onto_erased _ hin hf
  have hread0 := hread 0 (by omega)
  rw [Nat.add_zero] at hread0
  rw [memRead, hread0, hread 1 (by omega), hread 2 (by omega), hread 3 (by omega), wordOfLanes_laneOf]

theorem mem_nvmProgramWord_flags {c : Config.Env} {cell w : Word} {s : State} {f : Nat} (hf : f ∈ s.nvmFlags) :
    f ∈ (nvmProgramWord c cell w s).nvmFlags := by
  rw [nvmProgramWord_nvmFlags]
  split
  · exact mem_unionFlags.mpr (.inl hf)
  · exact hf

theorem mem_nvmEraseSector_flags {c : Config.Env} {r : Config.Region} {s : State} {f : Nat} (hf : f ∈ s.nvmFlags) :
    f ∈ (nvmEraseSector c r s).nvmFlags := by
  rw [nvmEraseSector_nvmFlags]
  split
  · exact mem_unionFlags.mpr (.inl hf)
  · exact hf

/-- A lane adds no flag where there is no memory, or where it does not fail and has nothing to program or an erased byte
to program onto (42 R185; D15). -/
theorem laneMayFlag_eq_false {c : Config.Env} {n a : Nat} {m : Memory} {d : Byte}
    (h : c.params.inNvm a = false ∨ (c.nvmFail n = false ∧ (d = Config.erased ∨ readByte m a = Config.erased))) :
    laneMayFlag c n m a d = false := by
  rcases h with hout | ⟨hf, hd | hold⟩
  · exact laneMayFlag_outside hout
  · simp [laneMayFlag_of_not_fail hf, laneUndefined, hd]
  · simp [laneMayFlag_of_not_fail hf, laneUndefined, hold]

/-- Settles O37: flags are only ever joined to those there are, by an erase that fails or a lane that may flag. -/
theorem eraseAndProgramFlagOnlyFailureOrOverprogramming :
    Obligations.EraseAndProgramFlagOnlyFailureOrOverprogramming := by
  refine fun c cell w r s => ⟨fun f hf => ⟨mem_nvmProgramWord_flags hf, mem_nvmEraseSector_flags hf⟩, fun hf => ?_,
    fun hlanes => ?_⟩
  · rw [nvmEraseSector_nvmFlags, hf, Bool.and_false]
    rfl
  · have hflag : programMayFlag c s.draws cell.toNat w s.nvm = false := by
      refine Bool.eq_false_iff.mpr fun hc => ?_
      obtain ⟨k, hk, hmay⟩ := programMayFlag_iff.mp hc
      rw [laneMayFlag_eq_false (hlanes k hk)] at hmay
      cases hmay
    rw [nvmProgramWord_nvmFlags, hflag, Bool.and_false]
    rfl

/-- Settles O41: both operations ask for the lock first. -/
theorem lockedControllerKeepsNvm : Obligations.LockedControllerKeepsNvm := by
  intro c cell w r s hl
  constructor
  · exact ⟨fun a => by rw [nvmProgramWord_nvm, hl]; rfl, rfl, by rw [nvmProgramWord_nvmFlags, hl]; rfl⟩
  · exact ⟨fun a => by rw [nvmEraseSector_nvm, hl]; rfl, rfl, by rw [nvmEraseSector_nvmFlags, hl]; rfl⟩

end Sys2Proof.NvmController
end

section
/-! PROOF. The invariants of the machine (spec 10 R31, R41, R49; 43 R221): each is kept by every atomic action, every
turn, every reset and every start of a pass, and so by every step (`step_induction`). -/

namespace Sys2Proof.Invariants

open Sys2Proof.Machine Sys2Proof.Safety

/-! What is left to perform behind an action. -/

/-- The actions of a launch behind its first read (43 R212 to R218): all that an action which reads NVM adds. -/
def launchStep : Action → Bool
  | .setLstate _ => true
  | .readEntry _ => true
  | .maskInterrupts => true
  | .timerDisable => true
  | .timerZero => true
  | .setVtbase _ => true
  | .setMsp _ => true
  | .setPc _ => true
  | .leave => true
  | _ => false

theorem launchStep_of_mem_expand {p : Config.Params} {a b : Action} {m : Memory} (h : b ∈ expand p a m) :
    launchStep b = true := by
  cases a with
  | readSp =>
    rw [expand, afterSp] at h
    split_ifs at h <;> simp only [List.mem_cons, List.not_mem_nil, or_false] at h
    · rcases h with rfl | rfl <;> rfl
    · subst h; rfl
  | readEntry sp =>
    simp only [expand, afterEntry, List.mem_cons, List.not_mem_nil, or_false] at h
    rcases h with rfl | rfl | rfl | rfl | rfl | rfl | rfl <;> rfl
  | _ => simp [expand] at h

theorem pending_act {c : Config.Env} {a : Action} (h : a ≠ .leave) (k : List Action) (s : State) :
    pending (act c a k s).eph = expand c.params a s.nvm ++ k := by
  rw [act_eph, nextPhase, pending_phaseOf]
  exact h

/-- What is left behind an action stood behind it, or is what it adds. -/
theorem mem_pending_act {c : Config.Env} {a b : Action} {k : List Action} {s : State}
    (h : b ∈ pending (act c a k s).eph) : b ∈ expand c.params a s.nvm ∨ b ∈ k := by
  by_cases ha : a = .leave
  · subst ha
    cases h
  · rw [pending_act ha] at h
    exact List.mem_append.mp h

/-- An action that is no step of a launch was there before. -/
theorem mem_pending_of_act {c : Config.Env} {a b : Action} {k : List Action} {s : State}
    (h : b ∈ pending (act c a k s).eph) (hb : launchStep b = false) : b ∈ k := by
  rcases mem_pending_act h with hx | hk
  · simp [launchStep_of_mem_expand hx] at hb
  · exact hk

theorem pending_bootPhase (g : BootMode) : pending (bootPhase g) = [] ∨ pending (bootPhase g) = directBootActions := by
  cases g
  · exact .inl rfl
  · exact .inr rfl

/-! The start of a pass: which erases and replies it holds. -/

/-- Only CONNECT's pass erases, and it erases the sectors of ERASE_SET (42 R187). -/
theorem eraseSector_mem_start {s : State} {k : List Action} {r : Config.Region} (h : PassStart s k)
    (hr : Action.nvmEraseSector r ∈ k) : r ∈ Config.env.params.eraseSet := by
  cases h with
  | badSync => simp at hr
  | badSum => simp at hr
  | connect => simpa [connectActions, eraseActions] using hr
  | data p _ => simp [dataActions, writeActions, programAction] at hr
  | finish => simp [finishActions, launchActions] at hr
  | unknown => simp [unknownActions] at hr

/-- Each command's pass sends one ACK or NACK, and the recovery of an error one NACK at most (41 R152 to R155). -/
theorem tx_mem_start {s : State} {k : List Action} {b : Byte} (h : PassStart s k) (hb : Action.tx b ∈ k) :
    b = Config.ack ∨ b = Config.nack := by
  cases h with
  | badSync => simp at hb
  | badSum => exact .inr (by simpa using hb)
  | connect => exact .inl (by simpa [connectActions, eraseActions] using hb)
  | data p _ => exact .inl (by simpa [dataActions, writeActions, programAction] using hb)
  | finish => exact .inl (by simpa [finishActions, launchActions] using hb)
  | unknown => exact .inr (by simpa [unknownActions] using hb)

/-! Memories. -/

/-- The bytes of a memory lie at addresses of NVM_DOM only (10 R30). -/
def NvmListed (p : Config.Params) (m : Memory) : Prop := ∀ x ∈ m, p.inNvm x.1 = true

theorem nvmListed_writeByte {p : Config.Params} {m : Memory} {a : Nat} {b : Byte} (h : NvmListed p m)
    (ha : p.inNvm a = true) : NvmListed p (writeByte m a b) := by
  intro x hx
  rcases mem_writeByte hx with rfl | hx
  · exact ha
  · exact h x hx

theorem nvmListed_fillBytes {p : Config.Params} (hp : p.Valid) {m : Memory} {r : Config.Region} (f : Nat → Byte)
    (h : NvmListed p m) (hr : r ∈ p.eraseSet) : NvmListed p (fillBytes m r.base r.size f) := by
  intro x hx
  rcases mem_fillBytes hx with hin | hx
  · exact hp.sector_inNvm hr ((Config.Region.mem_iff r x.1).mpr hin)
  · exact h x hx

/-- What a reset may damage (70 R273) keeps any property of NVM that a refill of the sector under erase keeps, and
writes to those addresses of the cell under programming that are memory. -/
theorem damagedNvm_keeps {P : Memory → Prop} {c : Config.Env} {n : Nat} {eph : Phase} {m : Memory} (hm : P m)
    (hsector : ∀ r k, eph = .busy (.nvmEraseSector r :: k) → P (fillBytes m r.base r.size (c.anyByte n)))
    (hcell : ∀ a w k x m', eph = .busy (.nvmProgramWord a w :: k) → a.toNat ≤ x → x < a.toNat + 4 →
      c.params.inNvm x = true → P m' → P (writeByte m' x (c.anyByte n x))) :
    P (damagedNvm c n eph m) := by
  unfold damagedNvm
  split
  · exact hsector _ _ rfl
  · rename_i a w k
    refine List.foldlRecOn _ _ hm fun m' hm' j hj => ?_
    obtain ⟨hlt, hin⟩ := List.mem_filter.mp hj
    have hlt := List.mem_range.mp hlt
    exact hcell a w k _ m' rfl (by omega) (by omega) hin hm'
  · exact hm

/-- Canonical form, and bytes at addresses of NVM_DOM only: what `MemoriesOk` asks of NVM. -/
def NvmOk (p : Config.Params) (m : Memory) : Prop := Memory.wf m = true ∧ NvmListed p m

theorem nvmOk_writeByte {p : Config.Params} {m : Memory} {a : Nat} {b : Byte} (h : NvmOk p m)
    (ha : p.inNvm a = true) : NvmOk p (writeByte m a b) :=
  ⟨memoryWf_writeByte h.1 a b, nvmListed_writeByte h.2 ha⟩

theorem nvmOk_fillBytes {p : Config.Params} (hp : p.Valid) {m : Memory} {r : Config.Region} (f : Nat → Byte)
    (h : NvmOk p m) (hr : r ∈ p.eraseSet) : NvmOk p (fillBytes m r.base r.size f) :=
  ⟨memoryWf_fillBytes h.1 _ _ f, nvmListed_fillBytes hp f h.2 hr⟩

theorem nvmOk_erasedNvm {c : Config.Env} (hp : c.params.Valid) {m : Memory} {r : Config.Region} (n : Nat)
    (h : NvmOk c.params m) (hr : r ∈ c.params.eraseSet) : NvmOk c.params (erasedNvm c n r m) := by
  refine ⟨memoryWf_erasedNvm h.1 c n r, fun x hx => ?_⟩
  rcases mem_erasedNvm hx with hin | hx
  · exact hp.sector_inNvm hr hin
  · exact h.2 x hx

theorem nvmOk_programmedNvm {c : Config.Env} {m : Memory} (n a : Nat) (w : Word) (h : NvmOk c.params m) :
    NvmOk c.params (programmedNvm c n a w m) :=
  ⟨memoryWf_programmedNvm h.1 c n a w, fun x hx => (mem_programmedNvm hx).elim id (h.2 x)⟩

theorem nvmOk_act {c : Config.Env} (hp : c.params.Valid) {a : Action} {k : List Action} {s : State}
    (h : NvmOk c.params s.nvm) (hr : ∀ r, a = .nvmEraseSector r → r ∈ c.params.eraseSet) :
    NvmOk c.params (act c a k s).nvm := by
  cases a with
  | nvmEraseSector r =>
    rw [act_nvm, perform_nvmEraseSector, nvmEraseSector_nvm]
    split
    · exact h
    · exact nvmOk_erasedNvm hp _ h (hr r rfl)
  | nvmProgramWord cell w =>
    rw [act_nvm, perform_nvmProgramWord, nvmProgramWord_nvm]
    split
    · exact h
    · exact nvmOk_programmedNvm _ _ w h
  | _ => exact h

/-- RXBUF canonical, filled below the capacity only, and RXLEN at most the capacity (10 R21, R22). -/
structure RxOk (p : Config.Params) (s : State) : Prop where
  wf : Memory.wf s.rxbuf = true
  listed : ∀ x ∈ s.rxbuf, x.1 < p.rxBufSize
  rxlen : s.rxlen ≤ p.rxBufSize

theorem rxOk_rxAppend {c : Config.Env} {s : State} (h : RxOk c.params s) : RxOk c.params (rxAppend c s) := by
  by_cases hs : rxStores c s = true
  · have hroom : s.rxlen < c.params.rxBufSize := by simpa using ((Bool.and_eq_true _ _).mp hs).2
    refine ⟨?_, fun x hx => ?_, ?_⟩
    · rw [rxAppend_rxbuf, if_pos hs]
      exact memoryWf_writeByte h.wf _ _
    · rw [rxAppend_rxbuf, if_pos hs] at hx
      rcases mem_writeByte hx with hx | hx
      · exact hx ▸ hroom
      · exact h.listed x hx
    · rw [rxAppend_rxlen, if_pos hs]
      exact hroom
  · refine ⟨?_, ?_, ?_⟩ <;> simp only [rxAppend_rxbuf, rxAppend_rxlen, if_neg hs]
    · exact h.wf
    · exact h.listed
    · exact h.rxlen

theorem rxOk_act {c : Config.Env} {a : Action} {k : List Action} {s : State} (h : RxOk c.params s) :
    RxOk c.params (act c a k s) := by
  cases a with
  | discard => exact ⟨h.wf, h.listed, Nat.zero_le _⟩
  | _ => exact ⟨h.wf, h.listed, h.rxlen⟩

theorem rxOk_hardReset (c : Config.Env) (e : ResetEvent) (s : State) : RxOk c.params (hardReset c e s) := by
  refine ⟨memoryWf_fillBytes memoryWf_nil _ _ _, fun x hx => ?_, Nat.zero_le _⟩
  rcases mem_fillBytes hx with ⟨-, hlt⟩ | hx
  · rwa [Nat.zero_add] at hlt
  · cases hx

theorem flagsWf_act {c : Config.Env} {a : Action} {k : List Action} {s : State} (h : flagsWf s.nvmFlags = true) :
    flagsWf (act c a k s).nvmFlags = true := by
  cases a with
  | nvmClearFlags => rfl
  | nvmEraseSector r =>
    rw [act_nvmFlags, perform_nvmEraseSector, nvmEraseSector_nvmFlags]
    split
    · exact flagsWf_unionFlags _ h
    · exact h
  | nvmProgramWord cell w =>
    rw [act_nvmFlags, perform_nvmProgramWord, nvmProgramWord_nvmFlags]
    split
    · exact flagsWf_unionFlags _ h
    · exact h
  | _ => exact h

/-- `MemoriesOk` in its parts: NVM, the receive side, the flags, the sectors still to be erased. -/
theorem memoriesOk_iff {p : Config.Params} {s : State} :
    MemoriesOk p s ↔ NvmOk p s.nvm ∧ RxOk p s ∧ flagsWf s.nvmFlags = true ∧
      ∀ r, Action.nvmEraseSector r ∈ pending s.eph → r ∈ p.eraseSet :=
  ⟨fun h => ⟨⟨h.nvmWf, h.nvmIn⟩, ⟨h.rxWf, h.rxIn, h.rxlen⟩, h.flags, h.sectors⟩,
    fun ⟨hn, hx, hf, hs⟩ => ⟨hn.1, hn.2, hx.wf, hx.listed, hx.rxlen, hf, hs⟩⟩

theorem memoriesOk_hardReset {c : Config.Env} (hp : c.params.Valid) {s : State} (e : ResetEvent)
    (h : MemoriesOk c.params s) : MemoriesOk c.params (hardReset c e s) := by
  obtain ⟨hnvm, -, -, hsectors⟩ := memoriesOk_iff.mp h
  have hdamaged : NvmOk c.params (damagedNvm c (s.draws + 1) s.eph s.nvm) := by
    refine damagedNvm_keeps hnvm (fun r k he => ?_) (fun a w k x m _ _ _ hin hm => nvmOk_writeByte hm hin)
    exact nvmOk_fillBytes hp _ hnvm (hsectors r (by rw [he]; exact List.mem_cons_self))
  refine memoriesOk_iff.mpr ⟨?_, rxOk_hardReset c e s, flagsWf_unionFlags _ rfl, fun r hr => ?_⟩
  · change NvmOk _ (if _ then _ else _)
    split
    · exact hdamaged
    · exact hnvm
  · change _ ∈ pending (bootPhase e.gate) at hr
    rcases pending_bootPhase e.gate with hb | hb <;> rw [hb] at hr <;> simp [directBootActions] at hr

/-- Settles O42: an erase under way is one of ERASE_SET, which lies in NVM_DOM; every other write checks NVM_DOM. -/
theorem memoriesStayOk : Obligations.MemoriesStayOk := by
  intro s t hs h
  have hp : Config.env.params.Valid := Config.params_valid
  refine step_induction (MemoriesOk Config.env.params) ?_ ?_ ?_ ?_ ?_ ?_ h hs
  · intro s a k he _ hs
    obtain ⟨hnvm, hrx, hflags, hsectors⟩ := memoriesOk_iff.mp hs
    have hk : ∀ b ∈ a :: k, b ∈ pending s.eph := by rw [he]; exact fun _ hb => hb
    refine memoriesOk_iff.mpr ⟨nvmOk_act hp hnvm ?_, rxOk_act hrx, flagsWf_act hflags, fun r hr => ?_⟩
    · rintro r rfl
      exact hsectors r (hk _ List.mem_cons_self)
    · exact hsectors r (hk _ (List.mem_cons_of_mem _ (mem_pending_of_act hr rfl)))
  · intro s hs
    obtain ⟨hnvm, hrx, hflags, hsectors⟩ := memoriesOk_iff.mp hs
    exact memoriesOk_iff.mpr ⟨hnvm, rxOk_rxAppend hrx, hflags, hsectors⟩
  · exact fun s hs => ⟨hs.nvmWf, hs.nvmIn, hs.rxWf, hs.rxIn, hs.rxlen, hs.flags, hs.sectors⟩
  · exact fun s ts hs => ⟨hs.nvmWf, hs.nvmIn, hs.rxWf, hs.rxIn, hs.rxlen, hs.flags, hs.sectors⟩
  · exact fun s e hs => memoriesOk_hardReset hp e hs
  · intro s k _ hk hs
    refine ⟨hs.nvmWf, hs.nvmIn, hs.rxWf, hs.rxIn, hs.rxlen, hs.flags, fun r hr => ?_⟩
    rw [setPhase_eph, pending_phaseOf] at hr
    exact eraseSector_mem_start hk hr

/-! The lock's discipline. -/

theorem lockTrace_start {s : State} {k : List Action} (h : PassStart s k) : lockTrace k true = true := by
  cases h <;> simp [connectActions, eraseActions, dataActions, writeActions, finishActions, launchActions,
    unknownActions, lockTrace_map_erase, lockTrace_map_program]

theorem lockTrace_afterSp (p : Config.Params) (sp : Word) (k : List Action) :
    lockTrace (afterSp p sp ++ k) true = lockTrace k true := by
  unfold afterSp
  split <;> simp

theorem lockOk_act {c : Config.Env} {a : Action} {k : List Action} {s : State} (he : s.eph = .busy (a :: k))
    (h : LockOk s) : LockOk (act c a k s) := by
  rw [LockOk, he, pending] at h
  rw [LockOk, act_eph, act_nvmLock]
  cases a with
  | readSp =>
    obtain ⟨hl, hk⟩ := (Bool.and_eq_true _ _).mp h
    rw [hl] at hk
    simpa [pending_phaseOf, hl, lockTrace_afterSp] using hk
  | readEntry sp =>
    obtain ⟨hl, hk⟩ := (Bool.and_eq_true _ _).mp h
    simpa [pending, afterEntry] using hl
  | nvmEraseSector r => simpa [pending_phaseOf] using ((Bool.and_eq_true _ _).mp h).2
  | nvmProgramWord cell w => simpa [pending_phaseOf] using ((Bool.and_eq_true _ _).mp h).2
  | leave => exact h
  | _ => simpa [pending_phaseOf] using h

/-- Settles O43: the discipline over the remaining actions is what every action leaves of it, and every pass keeps it. -/
theorem lockDisciplineStays : Obligations.LockDisciplineStays := by
  intro s t hs h
  refine step_induction LockOk (fun s a k he _ hs => lockOk_act he hs) (fun s hs => hs) (fun s hs => hs)
    (fun s ts hs => hs) (fun s e _ => ?_) (fun s k he hk hs => ?_) h hs
  · change lockTrace (pending (bootPhase e.gate)) true = true
    rcases pending_bootPhase e.gate with hb | hb <;> rw [hb] <;> rfl
  · have hl : s.nvmLock = true := by rwa [LockOk, he] at hs
    rw [LockOk, setPhase_eph, pending_phaseOf, setPhase_nvmLock, hl]
    exact lockTrace_start hk

/-- Settles O44: each clause is the discipline's first condition on the actions left. -/
theorem lockDisciplineMeansLockedAtPoll : Obligations.LockDisciplineMeansLockedAtPoll := by
  intro s h
  refine ⟨fun he => ?_, fun r k he => ?_, fun cell w k he => ?_⟩ <;> simp only [LockOk, he, pending] at h
  · exact h
  · simp only [lockTrace_nvmEraseSector, Bool.and_eq_true, Bool.not_eq_true'] at h
    exact h.1
  · simp only [lockTrace_nvmProgramWord, Bool.and_eq_true, Bool.not_eq_true'] at h
    exact h.1

/-! Replies. -/

theorem repliesOk_act {c : Config.Env} {a : Action} {k : List Action} {s : State} (he : s.eph = .busy (a :: k))
    (h : RepliesOk s) : RepliesOk (act c a k s) := by
  have hk : ∀ b ∈ a :: k, b ∈ pending s.eph := by rw [he]; exact fun _ hb => hb
  refine ⟨?_, fun b hb => h.due b (hk _ (List.mem_cons_of_mem _ (mem_pending_of_act hb rfl)))⟩
  cases a with
  | tx b =>
    intro x hx
    rcases List.mem_append.mp hx with hx | hx
    · exact h.sent x hx
    · rw [List.mem_singleton.mp hx]
      exact h.due b (hk _ List.mem_cons_self)
  | _ => exact h.sent

/-- Settles O45: a pass sends nothing but ACK and NACK, and a launch sends nothing. -/
theorem repliesStayAckOrNack : Obligations.RepliesStayAckOrNack := by
  intro s t hs h
  refine step_induction RepliesOk (fun s a k he _ hs => repliesOk_act he hs) (fun s hs => ⟨hs.sent, hs.due⟩)
    (fun s hs => ⟨hs.sent, hs.due⟩) (fun s ts hs => ⟨hs.sent, hs.due⟩) (fun s e _ => ⟨?_, fun b hb => ?_⟩)
    (fun s k he hk hs => ⟨hs.sent, fun b hb => ?_⟩) h hs
  · exact fun b hb => absurd hb List.not_mem_nil
  · change _ ∈ pending (bootPhase e.gate) at hb
    rcases pending_bootPhase e.gate with hp | hp <;> rw [hp] at hb <;> simp [directBootActions] at hb
  · rw [setPhase_eph, pending_phaseOf] at hb
    rcases tx_mem_start hk hb with rfl | rfl <;> rfl

/-! The launched state. -/

theorem launchTrace_start {s : State} {k : List Action} (h : PassStart s k) (im te z : Bool) (vt sp : Word) :
    launchTrace Config.env.params k im te z vt sp = true := by
  cases h <;> simp [connectActions, eraseActions, dataActions, writeActions, finishActions, launchActions,
    unknownActions, launchTrace_map_erase, launchTrace_map_program]

theorem launchTrace_afterSp (p : Config.Params) (sp0 : Word) (k : List Action) (im te z : Bool) (vt sp : Word) :
    launchTrace p (afterSp p sp0 ++ k) im te z vt sp = launchTrace p k im te z vt sp := by
  unfold afterSp
  split_ifs with hin <;> simp [hin]

/-- Steps 4 to 6 make any state one that a launch may leave (43 R214 to R216). -/
theorem launchTrace_afterEntry {p : Config.Params} {sp0 : Word} (h : p.inRam sp0 = true) (entry : Word)
    (k : List Action) (im te z : Bool) (vt sp : Word) :
    launchTrace p (afterEntry p sp0 entry ++ k) im te z vt sp = true := by
  simp [afterEntry, h]

/-- What an action leaves the launch to do, if any is to come. -/
theorem launchTrace_act {c : Config.Env} {a : Action} {k : List Action} {s : State}
    (h : launchTrace c.params (a :: k) s.cpuImask s.tmrEn (timerStill s) s.cpuVtbase s.cpuMsp = true) :
    launchTrace c.params (pending (act c a k s).eph) (act c a k s).cpuImask (act c a k s).tmrEn
      (timerStill (act c a k s)) (act c a k s).cpuVtbase (act c a k s).cpuMsp = true := by
  cases a with
  | leave => rfl
  | readSp =>
    rw [pending_act (by simp), expand, launchTrace_afterSp]
    exact h
  | readEntry sp =>
    rw [pending_act (by simp), expand]
    exact launchTrace_afterEntry ((Bool.and_eq_true _ _).mp h).1 _ _ _ _ _ _ _
  | timerDisable =>
    rw [pending_act (by simp)]
    change launchTrace c.params k s.cpuImask false (timerStill s) s.cpuVtbase s.cpuMsp = true at h
    change launchTrace c.params k s.cpuImask false (timerStill (timerDisable s)) s.cpuVtbase s.cpuMsp = true
    cases hte : s.tmrEn with
    | true =>
      have hz : timerStill s = false := by simp [timerStill, hte]
      rw [hz] at h
      exact launchTrace_mono _ _ _ _ _ _ h _
    | false =>
      have hz : timerStill (timerDisable s) = timerStill s := by rw [timerStill, timerStill, hte]; rfl
      rwa [hz]
  | timerZero =>
    have hz : timerStill (act c .timerZero k s) = !s.tmrEn := by simp [timerStill]
    rw [pending_act (by simp), hz]
    exact h
  | setDstate v =>
    rw [pending_act (by simp)]
    cases v with
    | launched => cases h
    | idle => exact h
    | connected => exact h
  | _ =>
    rw [pending_act (by simp)]
    exact h

/-- Only the last step of a launch makes DSTATE LAUNCHED, and it leaves EPH at GONE (43 R217, R218). -/
theorem eph_dstate_act {c : Config.Env} {a : Action} {k : List Action} {s : State}
    (htrace : launchTrace c.params (a :: k) s.cpuImask s.tmrEn (timerStill s) s.cpuVtbase s.cpuMsp = true)
    (hd : s.dstate ≠ .launched) :
    ((act c a k s).eph = .gone ↔ (act c a k s).dstate = .launched) ∧ ((act c a k s).eph = .gone → a = .leave) := by
  by_cases ha : a = .leave
  · subst ha
    exact ⟨⟨fun _ => rfl, fun _ => rfl⟩, fun _ => rfl⟩
  · have he : (act c a k s).eph ≠ .gone := by
      rw [act_eph, nextPhase]
      · cases expand c.params a s.nvm ++ k <;> simp
      · exact ha
    have hd' : (act c a k s).dstate ≠ .launched := by
      cases a with
      | leave => exact absurd rfl ha
      | setDstate v =>
        rintro rfl
        cases htrace
      | _ => exact hd
    exact ⟨⟨fun h => absurd h he, fun h => absurd h hd'⟩, fun h => absurd h he⟩

theorem launchOk_act {c : Config.Env} {a : Action} {k : List Action} {s : State} (he : s.eph = .busy (a :: k))
    (h : LaunchOk c.params s) : LaunchOk c.params (act c a k s) := by
  obtain ⟨hgone, -, hdue⟩ := h
  rw [he] at hdue
  have hd : s.dstate ≠ .launched := fun hc => by simpa [he] using hgone.mpr hc
  obtain ⟨hiff, hleave⟩ := eph_dstate_act hdue hd
  refine ⟨hiff, fun hg => ?_, launchTrace_act hdue⟩
  obtain rfl := hleave hg
  change (_ && _ && _ && _ && _) = true at hdue
  simp only [Bool.and_eq_true, Bool.not_eq_true', decide_eq_true_eq, timerStill, Config.Params.inRam_iff] at hdue
  obtain ⟨⟨⟨⟨him, hte⟩, -, hz⟩, hvt⟩, hram⟩ := hdue
  exact ⟨him, hte, hz, hvt, hram⟩

/-- Settles O46: the trace says of the actions left what step 4 to 6 of the launch have still to do. -/
theorem launchedStateStays : Obligations.LaunchedStateStays := by
  intro s t hs h
  refine step_induction (LaunchOk Config.env.params) (fun s a k he _ hs => launchOk_act he hs)
    (fun s hs => ⟨hs.goneIff, hs.regs, hs.due⟩) (fun s hs => ⟨hs.goneIff, fun hg => ?_, ?_⟩)
    (fun s ts hs => ⟨hs.goneIff, hs.regs, hs.due⟩) (fun s e _ => ⟨?_, fun hg => ?_, ?_⟩)
    (fun s k he hk hs => ⟨?_, fun hg => ?_, ?_⟩) h hs
  · obtain ⟨him, hte, hz, hvt, hram⟩ := hs.regs hg
    exact ⟨him, hte, by rw [timerTick_tmrCnt, hte]; exact hz, hvt, hram⟩
  · have hz : timerStill (timerTick Config.env s) = timerStill s := by
      cases hte : s.tmrEn <;> simp [timerStill, hte]
    rw [hz]
    exact hs.due
  · change bootPhase e.gate = .gone ↔ DState.idle = .launched
    cases e.gate <;> simp [bootPhase]
  · change bootPhase e.gate = .gone at hg
    cases hgate : e.gate <;> simp [hgate, bootPhase] at hg
  · change launchTrace _ (pending (bootPhase e.gate)) _ _ _ _ _ = true
    rcases pending_bootPhase e.gate with hb | hb <;> rw [hb] <;> rfl
  · have hd : s.dstate ≠ .launched := fun hc => by simpa [he] using hs.goneIff.mpr hc
    cases k <;> simp [hd]
  · cases k <;> cases hg
  · rw [setPhase_eph, pending_phaseOf]
    exact launchTrace_start hk _ _ _ _ _

end Sys2Proof.Invariants
end

section
/-! PROOF. What a step makes of the bytes in the buffer (spec 40 R121; 41 R151), and what every step, whatever its
schedule, leaves of TX, CURSOR, the flags and the storage (10 R41, R49; 41 R157, R159; 42 R183 to R185). -/

namespace Sys2Proof.BufferedStep

open Sys2Proof.Machine Sys2Proof.Safety Sys2Proof.PassErrors Sys2Proof.NvmController Sys2Proof.Invariants

/-! The pass of a command. -/

/-- The actions of a command, with the cursor its pass starts from (41 R152 to R155). -/
def commandActions (p : Config.Params) (cur : Word) : Instr → List Action
  | .connect _ => connectActions p
  | .data q => dataActions cur q
  | .finish _ => finishActions p
  | .unknown _ _ => unknownActions

/-- The command is a write past the top of the address space (42 R197). -/
def pastTop (cur : Word) : Instr → Bool
  | .data q => writePastTop cur q
  | _ => false

/-- Every instruction runs the pass of its command with the final clear of RXLEN behind it, or is refused (40 R127). -/
theorem exec_eq (i : Instr) (s : State) :
    exec i s = if pastTop s.cursor i then .refused .writePastTop
      else .next (runPass Config.env (commandActions Config.env.params s.cursor i ++ [.discard]) s) := by
  cases i <;> rfl

theorem exec_eq_next {i : Instr} {s t : State} (h : exec i s = .next t) :
    pastTop s.cursor i = false ∧
      t = runPass Config.env (commandActions Config.env.params s.cursor i ++ [.discard]) s := by
  rw [exec_eq] at h
  split_ifs at h with hp
  cases h
  exact ⟨by simpa using hp, rfl⟩

/-- The actions of the pass that a poll on the buffered bytes starts: the recovery of their rejection, or their
command's. -/
inductive BufferPass (s : State) : List Action → Prop where
  | recovers {why : Reject} {k : List Action} (hd : decode (buffered s) = .rejected why)
      (hr : recovery why = some k) : BufferPass s k
  | runs {i : Instr} {surplus : List Byte} (hd : decode (buffered s) = .frame i surplus) :
      BufferPass s (commandActions Config.env.params s.cursor i ++ [.discard])

/-- A pass that answers a next state waits, or runs what the buffer calls for. -/
theorem passIn_next {s t : State} (h : passIn Config.env exec s = .next t) :
    t = s ∨ ∃ k, BufferPass s k ∧ t = runPass Config.env k s := by
  unfold passIn at h
  split at h
  · rename_i i surplus hd
    exact .inr ⟨_, .runs hd, (exec_eq_next h).2⟩
  · rename_i why hd
    split at h
    · cases h
      exact .inl rfl
    · rename_i k hr
      cases h
      exact .inr ⟨k, .recovers hd hr, rfl⟩

/-- What ENG does at its turn, the turn taken off the schedule: it waits, starts what the buffer calls for, or goes on
with the pass under way. -/
theorem engMoveIn_next {s t : State} (h : engMoveIn Config.env exec s = .next t) :
    t = s ∨ (∃ k, s.eph = .poll ∧ BufferPass s k ∧ t = runPass Config.env k s) ∨
      (∃ k, s.eph = .busy k ∧ t = drive Config.env s) := by
  unfold engMoveIn at h
  split at h
  · rename_i he
    rcases passIn_next h with rfl | ⟨k, hk, rfl⟩
    · exact .inl rfl
    · exact .inr (.inl ⟨k, he, hk, rfl⟩)
  · cases h
  · rename_i k _ he
    cases h
    exact .inr (.inr ⟨k, he, rfl⟩)
  · cases h

/-- Every way a step answers a next state, with the pass it starts said of the state it starts from. -/
theorem step_next {s t : State} (h : step s = .next t) :
    (∃ ts, t = rxAppend Config.env (setSched ts s)) ∨ (∃ ts, t = timerTick Config.env (setSched ts s)) ∨
      (∃ e ts, s.sched = .reset e :: ts ∧ t = hardReset Config.env e (setSched ts s)) ∨
      (∃ ts, t = setSched ts s) ∨
      (∃ ts k, s.eph = .poll ∧ BufferPass s k ∧ t = runPass Config.env k (setSched ts s)) ∨
      (∃ ts k, s.eph = .busy k ∧ t = drive Config.env (setSched ts s)) := by
  have hmove : ∀ ts, engMoveIn Config.env exec (setSched ts s) = .next t →
      (∃ ts, t = setSched ts s) ∨
      (∃ ts k, s.eph = .poll ∧ BufferPass s k ∧ t = runPass Config.env k (setSched ts s)) ∨
      (∃ ts k, s.eph = .busy k ∧ t = drive Config.env (setSched ts s)) := by
    intro ts hm
    rcases engMoveIn_next hm with rfl | ⟨k, he, hk, rfl⟩ | ⟨k, he, rfl⟩
    · exact .inl ⟨ts, rfl⟩
    · refine .inr (.inl ⟨ts, k, he, ?_, rfl⟩)
      cases hk with
      | recovers hd hr => exact .recovers hd hr
      | runs hd => exact .runs hd
    · exact .inr (.inr ⟨ts, k, he, rfl⟩)
  unfold step turn turnIn at h
  split at h
  · exact .inr (.inr (.inr (hmove s.sched h)))
  · split at h
    · exact .inr (.inr (.inr (hmove s.sched h)))
    · exact .inr (.inr (.inr (hmove _ h)))
  · cases h
    exact .inl ⟨_, rfl⟩
  · cases h
    exact .inr (.inl ⟨_, rfl⟩)
  · cases h
    exact .inr (.inr (.inr (.inl ⟨_, rfl⟩)))
  · rename_i e ts hs
    cases h
    exact .inr (.inr (.inl ⟨e, ts, hs, rfl⟩))

/-- A relation to the state a step starts from, kept by every atomic action and turn, established where the step starts
a pass and where it resets, holds after the step. -/
theorem step_keeps {P : State → Prop}
    (hact : ∀ s a k, s.eph = .busy (a :: k) → a ≠ .bootReturn → P s → P (act Config.env a k s))
    (hrx : ∀ s, P s → P (rxAppend Config.env s)) (htick : ∀ s, P s → P (timerTick Config.env s))
    (hsched : ∀ s ts, P s → P (setSched ts s)) {s t : State} (h : step s = .next t) (hs : P s)
    (hreset : ∀ e ts, s.sched = .reset e :: ts → P (hardReset Config.env e s))
    (hstart : ∀ k, s.eph = .poll → BufferPass s k → P (setPhase (phaseOf k) s)) : P t := by
  rcases step_next h with ⟨ts, rfl⟩ | ⟨ts, rfl⟩ | ⟨e, ts, he, rfl⟩ | ⟨ts, rfl⟩ | ⟨ts, k, he, hk, rfl⟩ |
    ⟨ts, k, -, rfl⟩
  · exact hrx _ (hsched _ _ hs)
  · exact htick _ (hsched _ _ hs)
  · exact hsched _ ts (hreset e ts he)
  · exact hsched _ _ hs
  · exact drive_induction _ P hact hrx htick hsched (hsched _ ts (hstart k he hk))
  · exact drive_induction _ P hact hrx htick hsched (hsched _ _ hs)

theorem not_reset_of_resetNext {s : State} (h : resetNext s = false) (e : ResetEvent) (ts : List Turn) :
    s.sched ≠ .reset e :: ts := by
  intro hs
  rw [resetNext, hs] at h
  cases h

/-! TX. -/

theorem tx_refl (s : State) : s.tx <+: s.tx := ⟨[], List.append_nil _⟩

theorem tx_act (c : Config.Env) (a : Action) (k : List Action) (s : State) : s.tx <+: (act c a k s).tx := by
  cases a with
  | tx b => exact ⟨[b], rfl⟩
  | _ => exact tx_refl s

/-- Settles O48: an action appends to TX or leaves it, and only a reset empties it. -/
theorem txOnlyGrows : Obligations.TxOnlyGrows := by
  intro s t hr h
  exact step_keeps (P := fun u => s.tx <+: u.tx) (fun u a k _ _ hu => hu.trans (tx_act _ a k u)) (fun _ hu => hu)
    (fun _ hu => hu) (fun _ _ hu => hu) h (tx_refl s)
    (fun e ts hs => absurd hs (not_reset_of_resetNext hr e ts)) (fun _ _ _ => tx_refl s)

/-! CURSOR. -/

/-- A command writes CURSOR what it makes of it, once and before the clear of RXLEN (41 R152, R153). -/
theorem cursorWrites_commandActions (p : Config.Params) (cur : Word) (i : Instr) :
    cursorTrace (commandActions p cur i ++ [.discard]) = true ∧
      cursorWrites (commandActions p cur i ++ [.discard]) = match i with
        | .connect _ => [p.appBase]
        | .data q => [cur + BitVec.ofNat 32 q.length]
        | _ => [] := by
  cases i with
  | connect q =>
    simp [commandActions, connectActions, eraseActions, cursorTrace_map_erase, cursorWrites_append,
      cursorWrites_map_erase]
  | data q =>
    simp [commandActions, dataActions, writeActions, cursorTrace_map_program, cursorWrites_append,
      cursorWrites_map_program]
  | finish q => exact ⟨rfl, rfl⟩
  | unknown cmd q => exact ⟨rfl, rfl⟩

theorem cursor_start {s : State} {k : List Action} (h : BufferPass s k) :
    cursorTrace k = true ∧ ∀ v ∈ cursorWrites k, CursorTarget Config.env.params s v := by
  cases h with
  | @recovers why _ hd hr =>
    cases why with
    | incomplete => cases hr
    | badSync => cases hr; exact ⟨rfl, fun v hv => by cases hv⟩
    | badSum => cases hr; exact ⟨rfl, fun v hv => by cases hv⟩
  | @runs i surplus hd =>
    obtain ⟨htrace, hwrites⟩ := cursorWrites_commandActions Config.env.params s.cursor i
    refine ⟨htrace, fun v hv => ?_⟩
    rw [hwrites] at hv
    cases i with
    | connect q => exact .inl ⟨q, surplus, hd, List.mem_singleton.mp hv⟩
    | data q => exact .inr ⟨q, surplus, hd, List.mem_singleton.mp hv⟩
    | finish q => cases hv
    | unknown cmd q => cases hv

/-- What an action that reads NVM adds does not touch CURSOR or the buffer (43 R212 to R218). -/
theorem cursorTrace_expand (p : Config.Params) (a : Action) (m : Memory) (k : List Action) :
    cursorTrace (expand p a m ++ k) = cursorTrace k ∧ cursorWrites (expand p a m ++ k) = cursorWrites k := by
  cases a with
  | readSp => exact cursorTrace_afterSp p _ k
  | _ => exact ⟨rfl, rfl⟩

/-- What an action leaves to be written to CURSOR: the action that writes it is the last to do so, and any other leaves
CURSOR, and the writes behind it; none is left behind the clear of RXLEN. -/
theorem cursorWrites_act {c : Config.Env} {a : Action} {k : List Action} {s : State}
    (h : cursorTrace (a :: k) = true) :
    cursorTrace (pending (act c a k s).eph) = true ∧
      ((a = .setCursor (act c a k s).cursor ∧ cursorWrites (pending (act c a k s).eph) = []) ∨
        ((act c a k s).cursor = s.cursor ∧ cursorWrites (pending (act c a k s).eph) ⊆ cursorWrites (a :: k) ∧
          (cursorWrites (pending (act c a k s).eph) = [] ∨
            (act c a k s).rxbuf = s.rxbuf ∧ (act c a k s).rxlen = s.rxlen))) := by
  by_cases ha : a = .leave
  · subst ha
    exact ⟨rfl, .inr ⟨rfl, List.nil_subset _, .inl rfl⟩⟩
  · obtain ⟨htrace, hwrites⟩ := cursorTrace_expand c.params a s.nvm k
    rw [pending_act ha, htrace, hwrites]
    cases a with
    | leave => exact absurd rfl ha
    | setCursor v =>
      have hnone := List.isEmpty_iff.mp h
      exact ⟨cursorTrace_of_no_write hnone, .inl ⟨rfl, hnone⟩⟩
    | discard =>
      have hnone := List.isEmpty_iff.mp h
      exact ⟨cursorTrace_of_no_write hnone, .inr ⟨rfl, List.Subset.refl _, .inl hnone⟩⟩
    | _ => exact ⟨h, .inr ⟨rfl, List.Subset.refl _, .inr ⟨rfl, rfl⟩⟩⟩

theorem cursorOk_act {c : Config.Env} {p : Config.Params} {a : Action} {k : List Action} {s : State}
    (he : s.eph = .busy (a :: k)) (h : CursorOk p s) : CursorOk p (act c a k s) := by
  obtain ⟨honce, hdue⟩ := h
  rw [he] at honce hdue
  obtain ⟨htrace, ⟨-, hnone⟩ | ⟨hcursor, hsub, hnone | ⟨hbuf, hlen⟩⟩⟩ := cursorWrites_act (c := c) (s := s) honce
  · exact ⟨htrace, fun v hv => by rw [hnone] at hv; cases hv⟩
  · exact ⟨htrace, fun v hv => by rw [hnone] at hv; cases hv⟩
  · exact ⟨htrace, fun v hv => cursorTarget_congr hbuf hlen hcursor (hdue v (hsub hv))⟩

theorem cursorOk_step {s t : State} (hs : CursorOk Config.env.params s) (h : step s = .next t) :
    CursorOk Config.env.params t := by
  refine step_keeps (fun u a k he _ hu => cursorOk_act he hu) (fun u hu => ⟨hu.once, fun v hv => ?_⟩)
    (fun u hu => ⟨hu.once, hu.due⟩) (fun u ts hu => ⟨hu.once, hu.due⟩) h hs (fun e ts _ => ?_) (fun k he hk => ?_)
  · exact cursorTarget_rxAppend _ (hu.due v hv)
  · have hnone : cursorWrites (pending (bootPhase e.gate)) = [] := by
      rcases pending_bootPhase e.gate with hb | hb <;> rw [hb] <;> rfl
    refine ⟨cursorTrace_of_no_write hnone, fun v hv => ?_⟩
    change v ∈ cursorWrites (pending (bootPhase e.gate)) at hv
    rw [hnone] at hv
    cases hv
  · obtain ⟨htrace, htarget⟩ := cursor_start hk
    refine ⟨?_, fun v hv => ?_⟩
    · rwa [setPhase_eph, pending_phaseOf]
    · rw [setPhase_eph, pending_phaseOf] at hv
      exact htarget v hv

/-- How far a step from `s` has come with CURSOR: not yet written, and what is left to write is what the buffer of `s`
calls for; or written with that, and nothing left to write. -/
structure CursorMoves (p : Config.Params) (s u : State) : Prop where
  once : cursorTrace (pending u.eph) = true
  moved : (u.cursor = s.cursor ∧ ∀ v ∈ cursorWrites (pending u.eph), CursorTarget p s v) ∨
    (CursorTarget p s u.cursor ∧ cursorWrites (pending u.eph) = [])

theorem cursorMoves_act {c : Config.Env} {p : Config.Params} {a : Action} {k : List Action} {s u : State}
    (he : u.eph = .busy (a :: k)) (h : CursorMoves p s u) : CursorMoves p s (act c a k u) := by
  obtain ⟨honce, hmoved⟩ := h
  rw [he] at honce hmoved
  obtain ⟨htrace, ⟨ha, hnone⟩ | ⟨hcursor, hsub, -⟩⟩ := cursorWrites_act (c := c) (s := u) honce
  · refine ⟨htrace, .inr ⟨?_, hnone⟩⟩
    rcases hmoved with ⟨-, htarget⟩ | ⟨-, hwritten⟩
    · exact htarget _ (by rw [ha]; exact List.mem_cons_self)
    · rw [ha] at hwritten
      cases hwritten
  · refine ⟨htrace, hmoved.imp (fun h => ?_) (fun h => ?_)⟩
    · exact ⟨hcursor.trans h.1, fun v hv => h.2 v (hsub hv)⟩
    · exact ⟨hcursor.symm ▸ h.1, List.subset_nil.mp (h.2 ▸ hsub)⟩

/-- Settles O51: what is left to write is kept with the command in the buffer, and a step writes it at most once. -/
theorem cursorMovesByPayloadLengthsOnly : Obligations.CursorMovesByPayloadLengthsOnly := by
  intro s t hs h
  refine ⟨cursorOk_step hs h, fun hr => ?_⟩
  have hmoves : CursorMoves Config.env.params s t := by
    refine step_keeps (fun u a k he _ hu => cursorMoves_act he hu) (fun u hu => ⟨hu.once, hu.moved⟩)
      (fun u hu => ⟨hu.once, hu.moved⟩) (fun u ts hu => ⟨hu.once, hu.moved⟩) h ⟨hs.once, .inl ⟨rfl, hs.due⟩⟩
      (fun e ts he => absurd he (not_reset_of_resetNext hr e ts)) (fun k _ hk => ?_)
    obtain ⟨htrace, htarget⟩ := cursor_start hk
    constructor <;> rw [setPhase_eph, pending_phaseOf]
    · exact htrace
    · exact .inl ⟨rfl, htarget⟩
  exact hmoves.moved.imp And.left And.left

/-! Passes whose actions are all of one sort. -/

/-- A step whose pass, under way or called for by the buffer, holds only actions of a sort that adds only actions of its
own sort, keeps whatever actions of that sort keep. -/
theorem step_keeps_of_sort {Q : Action → Prop} {P : State → Prop}
    (hQ : ∀ a m b, Q a → b ∈ expand Config.env.params a m → Q b)
    (hact : ∀ u a k, Q a → P u → P (act Config.env a k u)) (hrx : ∀ u, P u → P (rxAppend Config.env u))
    (htick : ∀ u, P u → P (timerTick Config.env u)) (hsched : ∀ u ts, P u → P (setSched ts u))
    (hphase : ∀ u v, P u → P (setPhase v u)) {s t : State} (h : step s = .next t) (hr : resetNext s = false)
    (hs : P s) (hbusy : ∀ k, s.eph = .busy k → ∀ a ∈ k, Q a)
    (hstart : s.eph = .poll → ∀ k, BufferPass s k → ∀ a ∈ k, Q a) : P t := by
  have hpending : ∀ a ∈ pending s.eph, Q a := by
    intro a ha
    cases he : s.eph with
    | busy k =>
      rw [he] at ha
      exact hbusy k he a ha
    | poll => rw [he] at ha; cases ha
    | gone => rw [he] at ha; cases ha
  have hboth : P t ∧ ∀ a ∈ pending t.eph, Q a := by
    refine step_keeps (P := fun u => P u ∧ ∀ a ∈ pending u.eph, Q a) ?_ (fun u hu => ⟨hrx u hu.1, hu.2⟩)
      (fun u hu => ⟨htick u hu.1, hu.2⟩) (fun u ts hu => ⟨hsched u ts hu.1, hu.2⟩) h ⟨hs, hpending⟩
      (fun e ts he => absurd he (not_reset_of_resetNext hr e ts)) (fun k he hk => ⟨hphase s _ hs, ?_⟩)
    · intro u a k he _ hu
      rw [he] at hu
      have ha : Q a := hu.2 a List.mem_cons_self
      refine ⟨hact u a k ha hu.1, fun b hb => ?_⟩
      rcases mem_pending_act hb with hx | hk
      · exact hQ a _ b ha hx
      · exact hu.2 b (List.mem_cons_of_mem _ hk)
    · rw [setPhase_eph, pending_phaseOf]
      exact hstart he k hk
  exact hboth.1

/-! A rejected buffer. -/

/-- The two actions of the recoveries (60 R241). -/
def sendsOrDiscards : Action → Bool
  | .tx _ => true
  | .discard => true
  | _ => false

/-- The dispatcher's, the storage's and the processor's registers are as they were. -/
def StorageSame (s t : State) : Prop := SessionSame s t ∧ NvmSame s t ∧ CpuSame s t

theorem storageSame_of_eq {s t u : State} (h : StorageSame s t)
    (hu : u = { t with rxbuf := u.rxbuf, rxlen := u.rxlen, wire := u.wire, tx := u.tx, eph := u.eph, sched := u.sched,
                       tmrCnt := u.tmrCnt, ticks := u.ticks }) : StorageSame s u := by
  obtain ⟨⟨hd, hc, hl⟩, ⟨hb, hk, hf⟩, hm, hp, hi, hv⟩ := h
  rw [hu]
  exact ⟨⟨hd, hc, hl⟩, ⟨hb, hk, hf⟩, hm, hp, hi, hv⟩

theorem storageSame_act {s u : State} {a : Action} (c : Config.Env) (k : List Action) (ha : sendsOrDiscards a = true)
    (h : StorageSame s u) : StorageSame s (act c a k u) := by
  cases a with
  | tx b => exact storageSame_of_eq h rfl
  | discard => exact storageSame_of_eq h rfl
  | _ => cases ha

theorem sendsOrDiscards_recovery {why : Reject} {k : List Action} (h : recovery why = some k) {a : Action}
    (ha : a ∈ k) : sendsOrDiscards a = true := by
  cases why with
  | incomplete => cases h
  | badSync =>
    cases h
    simp only [List.mem_singleton] at ha
    rw [ha]
    rfl
  | badSum =>
    cases h
    simp only [List.mem_cons, List.not_mem_nil, or_false] at ha
    rcases ha with rfl | rfl <;> rfl

theorem resetNext_of_engNext {s : State} {ts : List Turn} (hn : EngNext s ts) : resetNext s = false := by
  rcases hn with hs | ⟨hs, -⟩ <;> rw [resetNext, hs]

/-- Settles O17: a rejected buffer calls for replies and the clear of RXLEN at most, and neither touches what is named. -/
theorem invalidBufferNeverMutatesStorage : Obligations.InvalidBufferNeverMutatesStorage := by
  intro s t ts why he hn hd h
  refine step_keeps_of_sort (Q := fun a => sendsOrDiscards a = true) (P := StorageSame s) ?_
    (fun u a k ha hu => storageSame_act _ k ha hu) (fun u hu => storageSame_of_eq hu rfl)
    (fun u hu => storageSame_of_eq hu rfl) (fun u _ hu => storageSame_of_eq hu rfl)
    (fun u _ hu => storageSame_of_eq hu rfl) h (resetNext_of_engNext hn)
    ⟨⟨rfl, rfl, rfl⟩, ⟨fun _ => rfl, rfl, rfl⟩, ⟨rfl, rfl, rfl, rfl⟩⟩ (fun k hk => ?_) (fun _ k hk a ha => ?_)
  · intro a m b ha hb
    cases a with
    | tx _ => cases hb
    | discard => cases hb
    | _ => cases ha
  · rw [he] at hk
    cases hk
  · cases hk with
    | recovers _ hr => exact sendsOrDiscards_recovery hr ha
    | runs hf =>
      rw [hd] at hf
      cases hf

/-! Flags. -/

theorem flags_act_of_not_controller {c : Config.Env} {a : Action} (k : List Action) (s : State)
    (hclear : a ≠ .nvmClearFlags) (hmut : mutates a = false) : (act c a k s).nvmFlags = s.nvmFlags := by
  cases a with
  | nvmClearFlags => exact absurd rfl hclear
  | nvmEraseSector r => cases hmut
  | nvmProgramWord cell w => cases hmut
  | _ => rfl

theorem mem_flags_act {c : Config.Env} {a : Action} (k : List Action) {s : State} (hclear : a ≠ .nvmClearFlags)
    {f : Nat} (hf : f ∈ s.nvmFlags) : f ∈ (act c a k s).nvmFlags := by
  cases a with
  | nvmClearFlags => exact absurd rfl hclear
  | nvmEraseSector r => exact mem_nvmEraseSector_flags (r := r) hf
  | nvmProgramWord cell w => exact mem_nvmProgramWord_flags (cell := cell) (w := w) hf
  | _ => exact hf

theorem mem_flags_of_act {c : Config.Env} {a : Action} {k : List Action} {s : State} (hmut : mutates a = false)
    {f : Nat} (hf : f ∈ (act c a k s).nvmFlags) : f ∈ s.nvmFlags := by
  by_cases hclear : a = .nvmClearFlags
  · subst hclear
    cases hf
  · rwa [flags_act_of_not_controller k s hclear hmut] at hf

/-- Which actions of a pass called for by the buffer clear or add flags, by its command (42 R187, R188). -/
theorem flagActions_start {s : State} {k : List Action} (h : BufferPass s k) :
    (Action.nvmClearFlags ∈ k → ∃ q surplus, decode (buffered s) = .frame (.connect q) surplus) ∧
      ∀ a ∈ k, mutates a = true → ∃ q surplus,
        decode (buffered s) = .frame (.connect q) surplus ∨ decode (buffered s) = .frame (.data q) surplus := by
  cases h with
  | @recovers why _ hd hr => cases why <;> cases hr <;> simp [mutates]
  | @runs i surplus hd =>
    cases i with
    | connect q => exact ⟨fun _ => ⟨q, surplus, hd⟩, fun a _ _ => ⟨q, surplus, .inl hd⟩⟩
    | data q =>
      refine ⟨fun hk => ?_, fun a _ _ => ⟨q, surplus, .inr hd⟩⟩
      simp [commandActions, dataActions, writeActions, programAction] at hk
    | finish q => simp [commandActions, finishActions, launchActions, mutates]
    | unknown cmd q => simp [commandActions, unknownActions, mutates]

theorem ne_clearFlags_of_mem_expand {p : Config.Params} {a b : Action} {m : Memory} (h : b ∈ expand p a m) :
    b ≠ .nvmClearFlags := by
  rintro rfl
  cases launchStep_of_mem_expand h

theorem mutates_of_mem_expand {p : Config.Params} {a b : Action} {m : Memory} (h : b ∈ expand p a m) :
    mutates b = false := by
  have hb := launchStep_of_mem_expand h
  cases b with
  | nvmEraseSector r => cases hb
  | nvmProgramWord cell w => cases hb
  | _ => rfl

/-- Where `MayClearFlags` fails, no action of the pass under way or called for clears the flags. -/
theorem ne_clearFlags_of_not_mayClear {s : State} (h : ¬ MayClearFlags s) :
    (∀ k, s.eph = .busy k → ∀ a ∈ k, a ≠ .nvmClearFlags) ∧
      (s.eph = .poll → ∀ k, BufferPass s k → ∀ a ∈ k, a ≠ .nvmClearFlags) := by
  refine ⟨fun k he a ha hc => h ?_, fun he k hk a ha hc => h ?_⟩ <;> simp only [MayClearFlags, he]
  · exact hc ▸ ha
  · exact (flagActions_start hk).1 (hc ▸ ha)

/-- Where `MayAddFlags` fails, no action of the pass under way or called for is an erase or a program operation. -/
theorem mutates_of_not_mayAdd {s : State} (h : ¬ MayAddFlags s) :
    (∀ k, s.eph = .busy k → ∀ a ∈ k, mutates a = false) ∧
      (s.eph = .poll → ∀ k, BufferPass s k → ∀ a ∈ k, mutates a = false) := by
  refine ⟨fun k he a ha => ?_, fun he k hk a ha => ?_⟩ <;> refine Bool.eq_false_iff.mpr fun hc => h ?_ <;>
    simp only [MayAddFlags, he]
  · exact ⟨a, ha, hc⟩
  · exact (flagActions_start hk).2 a ha hc

/-- Settles O55: each clause follows from what the actions of the pass, launch steps included, do to the flags. -/
theorem flagsChangeOnlyByTheController : Obligations.FlagsChangeOnlyByTheController := by
  refine ⟨fun c k s => rfl, fun c a k s => flags_act_of_not_controller k s, fun s t hr h => ⟨fun hc => ?_, fun hm => ?_,
    fun hc hm => ?_⟩⟩
  · obtain ⟨hbusy, hstart⟩ := ne_clearFlags_of_not_mayClear hc
    exact step_keeps_of_sort (P := fun u => ∀ f, f ∈ s.nvmFlags → f ∈ u.nvmFlags)
      (fun a m b _ => ne_clearFlags_of_mem_expand) (fun u a k ha hu f hf => mem_flags_act k ha (hu f hf))
      (fun _ hu => hu) (fun _ hu => hu) (fun _ _ hu => hu) (fun _ _ hu => hu) h hr (fun _ hf => hf) hbusy hstart
  · obtain ⟨hbusy, hstart⟩ := mutates_of_not_mayAdd hm
    exact step_keeps_of_sort (P := fun u => ∀ f, f ∈ u.nvmFlags → f ∈ s.nvmFlags)
      (fun a m b _ => mutates_of_mem_expand) (fun u a k ha hu f hf => hu f (mem_flags_of_act ha hf))
      (fun _ hu => hu) (fun _ hu => hu) (fun _ _ hu => hu) (fun _ _ hu => hu) h hr (fun _ hf => hf) hbusy hstart
  · obtain ⟨hbusy, hstart⟩ := ne_clearFlags_of_not_mayClear hc
    obtain ⟨hbusy', hstart'⟩ := mutates_of_not_mayAdd hm
    exact step_keeps_of_sort (Q := fun a => a ≠ .nvmClearFlags ∧ mutates a = false)
      (P := fun u => u.nvmFlags = s.nvmFlags)
      (fun a m b _ hb => ⟨ne_clearFlags_of_mem_expand hb, mutates_of_mem_expand hb⟩)
      (fun u a k ha hu => (flags_act_of_not_controller k u ha.1 ha.2).trans hu) (fun _ hu => hu)
      (fun _ hu => hu) (fun _ _ hu => hu) (fun _ _ hu => hu) h hr rfl
      (fun k he a ha => ⟨hbusy k he a ha, hbusy' k he a ha⟩)
      (fun he k hk a ha => ⟨hstart he k hk a ha, hstart' he k hk a ha⟩)

/-! A valid frame, and a machine that has launched. -/

/-- Settles O13: at a poll ENG's step is the pass, and a frame in the buffer makes the pass its command's. -/
theorem stepRunsTheDecodedInstruction : Obligations.StepRunsTheDecodedInstruction := by
  intro s ts i surplus he hn hd
  have hd' : decodeWith Config.env.sync (buffered (setSched ts s)) = .frame i surplus := hd
  rw [step_poll he hn, passIn, hd']

/-- Settles O19: ENG has no move from GONE, whether its turn is scheduled or the schedule is exhausted. -/
theorem launchedEngineHasNoStep : Obligations.LaunchedEngineHasNoStep := by
  intro s ts he hn
  rcases hn with hs | ⟨hs, -⟩ <;> simp only [step, turn, turnIn, hs, he, engMoveIn, setSched_eph]

end Sys2Proof.BufferedStep
end

section
/-! PROOF. The turns that are not ENG's: a reset (spec 10 R48; 70 R271 to R273), RX (40 R120; 20 R72) and the timer (10
R38). Each is one shared operation, behind the turn taken off the schedule. -/

namespace Sys2Proof.OtherTurns

open Sys2Proof.Machine Sys2Proof.Safety Sys2Proof.Invariants

theorem step_reset {s : State} {e : ResetEvent} {ts : List Turn} (hs : s.sched = .reset e :: ts) :
    step s = .next (hardReset Config.env e (setSched ts s)) := by
  simp only [step, turn, turnIn, hs]

theorem step_rx {s : State} {ts : List Turn} (hs : s.sched = .rx :: ts) :
    step s = .next (rxAppend Config.env (setSched ts s)) := by
  simp only [step, turn, turnIn, hs]

theorem step_tick {s : State} {ts : List Turn} (hs : s.sched = .tick :: ts) :
    step s = .next (timerTick Config.env (setSched ts s)) := by
  simp only [step, turn, turnIn, hs]

theorem step_pause {s : State} {ts : List Turn} (hs : s.sched = .pause :: ts) : step s = .next (setSched ts s) := by
  simp only [step, turn, turnIn, hs]

/-! The reset. -/

theorem hardReset_nvm_of_not_during {c : Config.Env} {e : ResetEvent} (s : State) (h : e.duringOperation = false) :
    (hardReset c e s).nvm = s.nvm := by
  simp [hardReset, h]

/-- An address outside the operation a reset strikes keeps its byte (70 R273). -/
theorem readByte_damagedNvm {c : Config.Env} (n : Nat) {eph : Phase} {m : Memory} {a : Nat}
    (hsector : ∀ r k, eph = .busy (.nvmEraseSector r :: k) → r.contains a = false)
    (hcell : ∀ cell w k, eph = .busy (.nvmProgramWord cell w :: k) →
      ¬ (cell.toNat ≤ a ∧ a < cell.toNat + 4) ∨ c.params.inNvm a = false) :
    readByte (damagedNvm c n eph m) a = readByte m a := by
  refine damagedNvm_keeps (P := fun m' => readByte m' a = readByte m a) rfl (fun r k he => ?_)
    (fun cell w k x m' he hle hlt hin hm => ?_)
  · rw [readByte_fillBytes, if_neg]
    rw [← Config.Region.mem_iff, hsector r k he]
    exact Bool.false_ne_true
  · rw [readByte_writeByte_ne, hm]
    rintro rfl
    rcases hcell cell w k he with hout | hout
    · exact hout ⟨hle, hlt⟩
    · rw [hin] at hout
      cases hout

/-- Settles O9: the only bytes a reset writes are those of the erase or program operation that it strikes. -/
theorem interruptedOperationDamagesItsTargetOnly : Obligations.InterruptedOperationDamagesItsTargetOnly := by
  intro s ts e hs
  refine ⟨_, step_reset hs, fun a ha => ?_⟩
  cases hd : e.duringOperation with
  | false => rw [hardReset_nvm_of_not_during _ hd, setSched_nvm]
  | true =>
    have hnvm : (hardReset Config.env e (setSched ts s)).nvm = damagedNvm Config.env (s.draws + 1) s.eph s.nvm := by
      simp [hardReset, hd]
    rw [hnvm]
    refine readByte_damagedNvm _ (fun r k he => ?_) (fun cell w k he => ?_)
    · simpa only [he] using ha
    · simpa only [he] using ha

/-- Settles O8: the reset's fields are the values and draws of R48, and the flags and RXBUF hold the sets drawn. -/
theorem resetKeepsNvmAndLosesTheSession : Obligations.ResetKeepsNvmAndLosesTheSession := by
  intro s ts e hs
  refine ⟨_, step_reset hs, fun hd a => ?_, rfl, rfl, ?_, rfl, rfl, rfl, rfl, rfl, rfl, rfl, rfl, fun f => ?_, rfl,
    rfl, rfl, rfl, fun i hi => ?_⟩
  · rw [hardReset_nvm_of_not_during _ hd, setSched_nvm]
  · cases hg : e.gate <;> simp only [hardReset, hg] <;> rfl
  · change f ∈ unionFlags [] _ ↔ _
    simp [mem_unionFlags, Config.env]
  · change readByte (fillBytes [] 0 Config.env.params.rxBufSize _) i = _
    rw [readByte_fillBytes, if_pos ⟨Nat.zero_le i, by rwa [Nat.zero_add]⟩]
    rfl

/-- Settles O54: every field of the state after a reset is a function of NVM, the draws and the ticks, and of the phase
where the reset strikes during an operation. -/
theorem resetForgetsEverythingButNvm : Obligations.ResetForgetsEverythingButNvm := by
  intro s u ts e hs hu hnvm hdraws hticks heph
  refine ⟨_, step_reset hs, (step_reset hu).trans (congrArg _ ?_)⟩
  cases hd : e.duringOperation with
  | false => simp [hardReset, hd, hnvm, hdraws, hticks]
  | true => simp [hardReset, hd, hnvm, hdraws, hticks, heph hd]

/-- Settles O7: the fields of `State.reset` are written out. -/
theorem resetHoldsTheSpecsValues : Obligations.ResetHoldsTheSpecsValues :=
  ⟨rfl, rfl, rfl, rfl, rfl, rfl, rfl, rfl⟩

/-- Settles O47: after reset the memories and TX are empty and nothing is left to perform. -/
theorem resetMeetsTheInvariants : Obligations.ResetMeetsTheInvariants := by
  refine ⟨memoriesOk_iff.mpr ⟨⟨rfl, ?_⟩, ⟨rfl, ?_, Nat.zero_le _⟩, flagsWf_unionFlags _ rfl, ?_⟩, rfl, ⟨?_, ?_⟩,
    ⟨?_, ?_, rfl⟩, ⟨rfl, ?_⟩⟩
  · exact fun x hx => absurd hx List.not_mem_nil
  · exact fun x hx => absurd hx List.not_mem_nil
  · exact fun r hr => absurd hr List.not_mem_nil
  · exact fun b hb => absurd hb List.not_mem_nil
  · exact fun b hb => absurd hb List.not_mem_nil
  · simp [State.reset]
  · exact fun h => nomatch h
  · exact fun v hv => absurd hv List.not_mem_nil

/-! The receive agent. -/

theorem rxEnabled_eq_false {s : State} (h : s.wire = [] ∨ s.cpuImask = true) : rxEnabled s = false := by
  rcases h with h | h <;> simp [rxEnabled, h]

theorem rxAppend_of_disabled {c : Config.Env} {s : State} (h : rxEnabled s = false) : rxAppend c s = s := by
  have hst : rxStores c s = false := by rw [rxStores, h]; rfl
  simp only [rxAppend, hst, h, Bool.false_eq_true, if_false]

theorem rxEnabled_eq_true {s : State} {b : Byte} {rest : List Byte} (hw : s.wire = b :: rest)
    (hm : ¬ s.cpuImask = true) : rxEnabled s = true := by
  simp [rxEnabled, hw, hm]

/-- With room in the buffer the byte is stored at RXLEN and counted (40 R120). -/
theorem rxAppend_of_room {c : Config.Env} {s : State} {b : Byte} {rest : List Byte} (hw : s.wire = b :: rest)
    (hm : ¬ s.cpuImask = true) (hroom : s.rxlen < c.params.rxBufSize) :
    rxAppend c s = { s with rxbuf := writeByte s.rxbuf s.rxlen b, rxlen := s.rxlen + 1, wire := rest } := by
  have hen := rxEnabled_eq_true hw hm
  have hst : rxStores c s = true := by simp [rxStores, hen, hroom]
  simp only [rxAppend, hst, hen, if_true, hw, List.headD_cons, List.tail_cons]

/-- With the buffer full the byte is dropped (60 R247). -/
theorem rxAppend_of_full {c : Config.Env} {s : State} {b : Byte} {rest : List Byte} (hw : s.wire = b :: rest)
    (hm : ¬ s.cpuImask = true) (hfull : ¬ s.rxlen < c.params.rxBufSize) : rxAppend c s = { s with wire := rest } := by
  have hen := rxEnabled_eq_true hw hm
  have hst : rxStores c s = false := by simp [rxStores, hfull]
  simp only [rxAppend, hst, hen, if_true, Bool.false_eq_true, if_false, hw, List.tail_cons]

/-- Settles O10: RX is disabled, or has room, or has none: the three cases of its one operation. -/
theorem rxTurnAppendsOrDrops : Obligations.RxTurnAppendsOrDrops := by
  intro s ts hs
  refine ⟨_, step_rx hs, ?_⟩
  cases hw : s.wire with
  | nil => exact rxAppend_of_disabled (rxEnabled_eq_false (.inl hw))
  | cons b rest =>
    dsimp only
    split_ifs with hm hroom
    · exact rxAppend_of_disabled (rxEnabled_eq_false (.inr hm))
    · rw [rxAppend_of_room (s := setSched ts s) hw hm hroom]
      exact ⟨rfl, rfl, readByte_writeByte_same _ _ _, fun i hi => readByte_writeByte_ne _ _ _ hi, rfl⟩
    · exact rxAppend_of_full (s := setSched ts s) hw hm hroom

/-- Settles O11: RX adds bytes behind those buffered. -/
theorem rxTurnKeepsTheSampledPrefix : Obligations.RxTurnKeepsTheSampledPrefix := by
  intro s ts hs
  obtain ⟨more, hmore⟩ := buffered_rxAppend Config.env (setSched ts s)
  have hlen : (buffered (setSched ts s)).length = s.rxlen := length_readBytes _ _ _
  refine ⟨_, step_rx hs, (Between.rxAppend Config.env (setSched ts s)).rxlen, ?_⟩
  rw [hmore, ← hlen, List.take_left]
  rfl

/-! The timer. -/

/-- Settles O12: the timer's operation writes its counter and the model's count of ticks. -/
theorem timerTurnTouchesTheCounterOnly : Obligations.TimerTurnTouchesTheCounterOnly := by
  intro s ts hs
  refine ⟨_, step_tick hs, rfl, fun hoff => ?_⟩
  rw [timerTick_tmrCnt, setSched_tmrEn, hoff]
  rfl

end Sys2Proof.OtherTurns
end

section
/-! PROOF. Steps from inside a pass, and pauses (spec 10 R27, R28; 20 R70): ENG's turn goes on with the rest of the pass,
and a pause anywhere in its schedule makes no difference to what the pass does. -/

namespace Sys2Proof.PausedPasses

open Sys2Proof.Machine Sys2Proof.Safety Sys2Proof.PassErrors Sys2Proof.BufferedStep Sys2Proof.OtherTurns

/-! Steps from inside a pass. -/

/-- ENG's step inside a pass, its turn scheduled or not, is the rest of the pass (10 R27). -/
theorem step_of_midPass {s : State} {ts : List Turn} (hm : MidPass s) (hn : EngNext s ts) :
    step s = .next (drive Config.env s) := by
  obtain ⟨a, k, he, hb⟩ := hm
  have hmove : engMoveIn Config.env exec s = .next (drive Config.env s) := by
    unfold engMoveIn
    rw [he]
    cases a with
    | bootReturn => exact absurd rfl hb
    | _ => rfl
  rcases hn with hs | ⟨hs, -⟩ <;> simp only [step, turn, turnIn, hs, he, hmove]

theorem drive_of_engNext (c : Config.Env) {a : Action} {k : List Action} {s : State} {ts : List Turn}
    (he : s.eph = .busy (a :: k)) (hb : a ≠ .bootReturn) (hn : EngNext s ts) :
    drive c s = drive c (act c a k (setSched ts s)) := by
  rcases hn with hs | ⟨hs, rfl⟩
  · exact drive_eng c he hb hs
  · rw [setSched_self hs]
    exact drive_nil c he hb hs

/-- Settles O52: a step inside a pass is one turn of `drive`. -/
theorem midPassStepGoesOn : Obligations.MidPassStepGoesOn := by
  refine ⟨fun s a k ts he hb => ⟨fun hn => ?_, fun hs => ?_, fun hs => ?_⟩, fun s => drive_of_not_midPass _⟩
  · exact ⟨step_of_midPass ⟨a, k, he, hb⟩ hn, drive_of_engNext _ he hb hn⟩
  · rcases hs with hs | hs
    · exact ⟨_, step_rx hs, rfl, rfl, (drive_rx _ ⟨a, k, he, hb⟩ hs).symm⟩
    · exact ⟨_, step_tick hs, rfl, rfl, (drive_tick _ ⟨a, k, he, hb⟩ hs).symm⟩
  · exact ⟨step_pause hs, drive_pause _ ⟨a, k, he, hb⟩ hs⟩

/-! Pauses. -/

/-- Two outcomes, of a run with a pause behind the turns `pre` and of the run without it, as the statements about pauses
say them. -/
def Resumes (pre us : List Turn) (t : State) (o : Host.Outcome State Fault Refusal) : Prop :=
  (MidPass t ∧ t.sched = us ∧ o = .next (drive Config.env t) ∧
      ((us = [] ∨ ∃ vs, us = .eng :: vs) → step t = o)) ∨
    (¬ MidPass t ∧ ∃ post, post <:+ pre ∧ t.sched = post ++ .pause :: us ∧ o = .next (setSched (post ++ us) t))

/-- A run of `drive` whose schedule holds a pause resumes as the run without it. -/
theorem resumes_drive {pre us : List Turn} {s : State} (hs : s.sched = pre ++ .pause :: us)
    (hp : pre.all goesOn = true) :
    Resumes pre us (drive Config.env s) (.next (drive Config.env (setSched (pre ++ us) s))) := by
  rcases drive_paused Config.env pre us hs hp with ⟨hm, hsched, hr⟩ | ⟨hm, post, hpost, hsched, hr⟩
  · refine .inl ⟨hm, hsched, congrArg _ hr, fun hus => ?_⟩
    rw [hr]
    rcases hus with rfl | ⟨vs, rfl⟩
    · exact step_of_midPass hm (.inr ⟨hsched, rfl⟩)
    · exact step_of_midPass hm (.inl hsched)
  · exact .inr ⟨hm, post, hpost, hsched, congrArg _ hr⟩

theorem resumes_runPass {pre us : List Turn} {s : State} (k : List Action) (hs : s.sched = pre ++ .pause :: us)
    (hp : pre.all goesOn = true) :
    Resumes pre us (runPass Config.env k s) (.next (runPass Config.env k (setSched (pre ++ us) s))) :=
  resumes_drive (s := setPhase (phaseOf k) s) hs hp

/-- Outside a pass nothing is resumed, and the pause stays scheduled. -/
theorem resumes_of_not_midPass {pre us : List Turn} {s : State} (hm : ¬ MidPass s)
    (hs : s.sched = pre ++ .pause :: us) : Resumes pre us s (.next (setSched (pre ++ us) s)) :=
  .inr ⟨hm, pre, List.suffix_refl _, hs, rfl⟩

/-- A command's pass begins with an action that ENG performs. -/
theorem commandActions_eq_cons (p : Config.Params) (cur : Word) (i : Instr) :
    ∃ a k, commandActions p cur i ++ [.discard] = a :: k ∧ a ≠ .bootReturn := by
  cases i <;> exact ⟨_, _, rfl, by simp⟩

theorem midPass_runPass_of_pause {a : Action} {k : List Action} {s : State} {us : List Turn}
    (ha : a ≠ .bootReturn) (hs : s.sched = .pause :: us) : MidPass (runPass Config.env (a :: k) s) := by
  have hm : MidPass (setPhase (phaseOf (a :: k)) s) := ⟨a, k, rfl, ha⟩
  rw [runPass, drive_pause _ hm hs]
  exact ⟨a, k, rfl, ha⟩

/-- Settles O18: every instruction that answers a next state is a run of `drive` from its first action on. -/
theorem pausedPassResumes : Obligations.PausedPassResumes := by
  intro i s t pre us hs hp h
  obtain ⟨hfits, rfl⟩ := exec_eq_next h
  have hexec : exec i (setSched (pre ++ us) s) = .next (runPass Config.env
      (commandActions Config.env.params s.cursor i ++ [.discard]) (setSched (pre ++ us) s)) := by
    rw [exec_eq, setSched_cursor, hfits]
    rfl
  refine ⟨fun hpre => ?_, ?_⟩
  · subst hpre
    obtain ⟨a, k, hk, ha⟩ := commandActions_eq_cons Config.env.params s.cursor i
    rw [hk]
    exact midPass_runPass_of_pause ha hs
  · rw [hexec]
    exact resumes_runPass _ hs hp

/-- A poll's pass resumes, whatever the buffer calls for. -/
theorem resumes_passIn {pre us : List Turn} {s t : State} (he : s.eph = .poll) (hs : s.sched = pre ++ .pause :: us)
    (hp : pre.all goesOn = true) (h : passIn Config.env exec s = .next t) :
    Resumes pre us t (passIn Config.env exec (setSched (pre ++ us) s)) := by
  have hbuf : buffered (setSched (pre ++ us) s) = buffered s := rfl
  simp only [passIn, hbuf] at h ⊢
  cases hd : decodeWith Config.env.sync (buffered s) with
  | frame i surplus =>
    simp only [hd] at h ⊢
    obtain ⟨hfits, rfl⟩ := exec_eq_next h
    rw [exec_eq, setSched_cursor, hfits]
    exact resumes_runPass _ hs hp
  | rejected why =>
    simp only [hd] at h ⊢
    cases hr : recovery why with
    | none =>
      simp only [hr] at h ⊢
      cases h
      exact resumes_of_not_midPass (fun ⟨a, k, hb, _⟩ => by rw [he] at hb; cases hb) hs
    | some k =>
      simp only [hr] at h ⊢
      cases h
      exact resumes_runPass k hs hp

/-- Settles O53: a step of ENG is a pass from a poll, or its first action and then a run of `drive`. -/
theorem pausedStepResumes : Obligations.PausedStepResumes := by
  intro s t pre us hs hp hne h
  change Resumes pre us t (step (setSched (.eng :: (pre ++ us)) s))
  have hn : EngNext s (pre ++ .pause :: us) := .inl hs
  have hn' : EngNext (setSched (.eng :: (pre ++ us)) s) (pre ++ us) := .inl rfl
  cases he : s.eph with
  | poll =>
    rw [step_poll he hn] at h
    rw [step_poll (s := setSched (.eng :: (pre ++ us)) s) he hn']
    exact resumes_passIn (s := setSched (pre ++ .pause :: us) s) he rfl hp h
  | gone => simp [step, turn, turnIn, engMoveIn, hs, he] at h
  | busy l =>
    cases l with
    | nil => exact absurd he hne
    | cons a k =>
      by_cases hb : a = .bootReturn
      · subst hb
        simp [step, turn, turnIn, engMoveIn, hs, he] at h
      · have hm : MidPass s := ⟨a, k, he, hb⟩
        rw [step_of_midPass hm hn, drive_of_engNext _ he hb hn] at h
        cases h
        rw [step_of_midPass (s := setSched (.eng :: (pre ++ us)) s) ⟨a, k, he, hb⟩ hn',
          drive_of_engNext _ (s := setSched (.eng :: (pre ++ us)) s) he hb hn', setSched_setSched, ← setSched_act]
        have hsched : (act Config.env a k (setSched (pre ++ .pause :: us) s)).sched = pre ++ .pause :: us :=
          sched_act _ _ _ _
        have hr := resumes_drive hsched hp
        rwa [setSched_act, setSched_setSched, ← setSched_act] at hr

end Sys2Proof.PausedPasses
end

section
/-! PROOF. The commands in any environment under a quiet schedule (spec 41 R152 to R159; 42 R187 to R197; 43 R211 to
R218): what the passes of CONNECT, DATA and FINISH leave, field by field and byte by byte. -/

namespace Sys2Proof.Commands

open Sys2Proof.Machine Sys2Proof.Safety Sys2Proof.PassErrors Sys2Proof.NvmController Sys2Proof.BufferedStep
  Sys2Proof.OtherTurns Sys2Proof.PausedPasses

theorem nvmSame_of_eq {s t : State} (hn : t.nvm = s.nvm) (hl : t.nvmLock = s.nvmLock) (hf : t.nvmFlags = s.nvmFlags) :
    NvmSame s t := ⟨fun a => by rw [hn], hl, hf⟩

/-! CONNECT. -/

/-- Two disjoint regions have no address in common (R9). -/
theorem contains_of_disjoint {r q : Config.Region} {a : Nat} (h : r.disjoint q = true) (ha : r.contains a = true) :
    q.contains a = false := by
  refine Bool.eq_false_iff.mpr fun hq => ?_
  rw [Config.Region.mem_iff] at ha hq
  simp only [Config.Region.disjoint, Bool.or_eq_true, decide_eq_true_eq] at h
  omega

/-- An address of one sector of ERASE_SET lies in none of the later ones (R9). -/
theorem contains_later {p : Config.Params} (hp : p.Valid) {i : Nat} {r : Config.Region} {a : Nat}
    (hi : p.eraseSet[i]? = some r) (ha : r.contains a = true) :
    ∀ q ∈ p.eraseSet.drop (i + 1), q.contains a = false := by
  intro q hq
  obtain ⟨hlt, hget⟩ := List.getElem?_eq_some_iff.mp hi
  have hdrop : p.eraseSet.drop i = r :: p.eraseSet.drop (i + 1) := by rw [← hget, List.drop_eq_getElem_cons]
  have hpair : (r :: p.eraseSet.drop (i + 1)).Pairwise fun r q => r.disjoint q = true :=
    hdrop ▸ hp.disjoint.drop
  exact contains_of_disjoint (List.rel_of_pairwise_cons hpair hq) ha

theorem not_contains_of_not_inEraseSet {p : Config.Params} {a : Nat} (h : p.inEraseSet a = false) :
    ∀ r ∈ p.eraseSet, r.contains a = false := fun r hr =>
  Bool.eq_false_iff.mpr fun hc => Bool.eq_false_iff.mp h ((p.inEraseSet_iff a).mpr ⟨r, hr, hc⟩)

theorem execConnectIn_done (c : Config.Env) (p : List Byte) {s : State} (hq : quiet s = true) :
    ∃ t, execConnectIn c p s = .next t ∧ PassDone c (connectActions c.params) s t :=
  ⟨_, rfl, runPass_plain c (plain_connectActions c.params) hq⟩

/-- Settles O20: the pass is plain, and its actions write what is named. -/
theorem connectCompletes : Obligations.ConnectCompletes := by
  intro p s hq
  obtain ⟨t, hexec, hdone⟩ := execConnectIn_done Config.env p hq
  obtain ⟨m, f, hall, hout, -, -⟩ := performAll_connect Config.env s
  have he := hdone.engine
  rw [hall] at he
  refine ⟨t, hexec, he.cursor, he.dstate, he.tx, hdone.ended, he.lstate, he.nvmLock, fun a ha => ?_,
    ⟨he.cpuMsp, he.cpuPc, he.cpuImask, he.cpuVtbase⟩, hdone.timer, hdone.rx⟩
  exact (congrArg (readByte · a) he.nvm).trans (hout a (not_contains_of_not_inEraseSet ha))

/-- Settles O21: no later sector holds an address of the i-th, so what its erase left there stays. -/
theorem connectErasesEverySectorThatDoesNotFail : Obligations.ConnectErasesEverySectorThatDoesNotFail := by
  intro p s i r a hq hi ha
  obtain ⟨t, hexec, hdone⟩ := execConnectIn_done Config.env p hq
  obtain ⟨m, f, hall, -, hin, -⟩ := performAll_connect Config.env s
  have he := hdone.engine
  rw [hall] at he
  refine ⟨t, hexec, fun hfail => ?_⟩
  have hfail : Config.env.nvmFail (s.draws + i) = false := hfail
  have hread := hin i r a hi ha (contains_later Config.params_valid hi ha)
  rw [hfail] at hread
  exact (congrArg (readByte · a) he.nvm).trans hread

/-- Settles O22: no draw fails, so the sectors are erased one by one and no flag is added to the cleared ones. -/
theorem reliableConnectErasesTheEraseSet : Obligations.ReliableConnectErasesTheEraseSet := by
  intro c p s hr hq
  obtain ⟨t, hexec, hdone⟩ := execConnectIn_done c p hq
  obtain ⟨m, f, hall, -, -, hrel⟩ := performAll_connect c s
  have he := hdone.engine
  rw [hall] at he
  exact ⟨t, hexec, he.nvmFlags.trans (hrel hr).1, fun a => (congrArg (readByte · a) he.nvm).trans ((hrel hr).2 a)⟩

/-! DATA. -/

theorem execDataIn_done (c : Config.Env) {p : List Byte} {s : State} (hq : quiet s = true)
    (hle : s.cursor.toNat + p.length ≤ 2 ^ 32) :
    ∃ t, execDataIn c p s = .next t ∧ PassDone c (dataActions s.cursor p) s t :=
  ⟨_, execDataIn_eq c hle, runPass_plain c (plain_dataActions s.cursor p) hq⟩

/-- The cursor advances modulo 2^32 (41 R153, D9). -/
theorem toNat_cursor_add (cur : Word) (n : Nat) : (cur + BitVec.ofNat 32 n).toNat = (cur.toNat + n) % 2 ^ 32 := by
  rw [BitVec.toNat_add, BitVec.toNat_ofNat, Nat.add_mod_mod]

/-- Settles O23: the pass is plain, and its actions write what is named, failures included. -/
theorem dataCompletes : Obligations.DataCompletes := by
  intro p s hq hle
  obtain ⟨t, hexec, hdone⟩ := execDataIn_done Config.env hq hle
  obtain ⟨m, f, hall, hout, -, hflags, -⟩ := performAll_data Config.env s p hle
  have he := hdone.engine
  rw [hall] at he
  refine ⟨t, hexec, (congrArg BitVec.toNat he.cursor).trans (toNat_cursor_add _ _), he.tx, hdone.ended, he.dstate,
    he.lstate, he.nvmLock, fun a ha => (congrArg (readByte · a) he.nvm).trans (hout a ha), fun g hg => ?_,
    ⟨he.cpuMsp, he.cpuPc, he.cpuImask, he.cpuVtbase⟩, hdone.timer, hdone.rx⟩
  rw [he.nvmFlags]
  exact hflags g hg

/-- Settles O24: the refusal is the first thing DATA tests, and nothing else answers it. -/
theorem dataRefusedExactlyPastTheTop : Obligations.DataRefusedExactlyPastTheTop := by
  intro p s
  rw [← writePastTop_iff, exec_eq]
  change (if writePastTop s.cursor p = true then _ else _) = _ ↔ _
  split_ifs with h <;> simp [h]

/-- A lane of data 0xFF leaves its byte where no operation fails (42 R185). -/
theorem laneResult_erased {c : Config.Env} (hr : c.Reliable) (n a : Nat) (old : Byte) :
    laneResult c n a Config.erased old = old := by
  simp [laneResult, hr n]

/-- Where no operation fails, DATA leaves at every address, in a cell of the write or not, what the lane of its source
byte leaves; and no flag is added where no lane overprograms (42 R185, R189, R190). -/
theorem reliable_data {c : Config.Env} (hr : c.Reliable) {p : List Byte} {s t : State}
    (hle : s.cursor.toNat + p.length ≤ 2 ^ 32) (hdone : PassDone c (dataActions s.cursor p) s t) :
    (∀ a, ∃ n, readByte t.nvm a = laneResult c n a (sourceByte s.cursor.toNat p a) (readByte s.nvm a)) ∧
      ((∀ a, laneUndefined c s.nvm a (sourceByte s.cursor.toNat p a) = false) → t.nvmFlags = s.nvmFlags) := by
  obtain ⟨m, f, hall, hout, hin, -, hflags⟩ := performAll_data c s p hle
  have he := hdone.engine
  rw [hall] at he
  have hnvm : t.nvm = m := he.nvm
  refine ⟨fun a => ?_, fun hdef => he.nvmFlags.trans (hflags hr fun x _ k _ => hdef (x + k))⟩
  rw [hnvm]
  by_cases hcell : ∃ x ∈ cellsOf s.cursor.toNat p.length, x ≤ a ∧ a < x + 4
  · obtain ⟨x, hx, hle, hlt⟩ := hcell
    exact hin a x hx hle hlt
  · have hrange : ¬ (s.cursor.toNat ≤ a ∧ a < s.cursor.toNat + p.length) := fun h =>
      hcell (exists_cellsOf h.1 h.2)
    refine ⟨0, ?_⟩
    rw [sourceByte_outside hrange, laneResult_erased hr]
    exact hout a fun x hx h => hcell ⟨x, hx, h⟩

/-- Settles O25: outside the range the source byte is 0xFF. -/
theorem reliableDataKeepsBytesOutsideItsRange : Obligations.ReliableDataKeepsBytesOutsideItsRange := by
  intro c p s hr hq hle
  obtain ⟨t, hexec, hdone⟩ := execDataIn_done c hq hle
  refine ⟨t, hexec, fun a ha => ?_⟩
  obtain ⟨n, hread⟩ := (reliable_data hr hle hdone).1 a
  rw [hread, sourceByte_outside ha, laneResult_erased hr]

/-- The lane of a byte that meets no memory, has nothing to program, or is programmed onto an erased byte. -/
theorem laneResult_of_reliable {c : Config.Env} (hr : c.Reliable) (n a : Nat) (d old : Byte) :
    if c.params.inNvm a = false ∨ d = Config.erased then laneResult c n a d old = old
    else old = Config.erased → laneResult c n a d old = d := by
  split_ifs with h
  · rcases h with hout | rfl
    · simp [laneResult, hout]
    · exact laneResult_erased hr n a old
  · obtain ⟨hin, -⟩ := not_or.mp h
    rintro rfl
    exact laneResult_onto_erased d (by simpa using hin) (hr n)

/-- Settles O26: inside the range the source byte is the payload's. -/
theorem reliableDataProgramsErasedBytes : Obligations.ReliableDataProgramsErasedBytes := by
  intro c p s j hr hq hle hj
  obtain ⟨t, hexec, hdone⟩ := execDataIn_done c hq hle
  obtain ⟨n, hread⟩ := (reliable_data hr hle hdone).1 (s.cursor.toNat + j)
  rw [sourceByte_inside (by omega) (by omega), Nat.add_sub_cancel_left] at hread
  refine ⟨t, hexec, ?_⟩
  rw [hread]
  exact laneResult_of_reliable hr n _ _ _

/-- Settles O27: a write of no bytes covers no cells. -/
theorem emptyDataProgramsNothing : Obligations.EmptyDataProgramsNothing := by
  intro s hq
  have hle : s.cursor.toNat + ([] : List Byte).length ≤ 2 ^ 32 := Nat.le_of_lt s.cursor.isLt
  obtain ⟨t, hexec, hdone⟩ := execDataIn_done Config.env hq hle
  have he := hdone.engine
  exact ⟨t, hexec, he.cursor.trans (BitVec.add_zero _), fun a => congrArg (readByte · a) he.nvm, he.nvmFlags,
    he.nvmLock, he.tx⟩

/-- A cell of a write that shares no address of memory with its range holds no memory at all (R9). -/
theorem not_inNvm_cell {p : Config.Params} (hp : p.Valid) {addr len x k : Nat} (hx : x ∈ cellsOf addr len)
    (hk : k < 4) (hout : ∀ j, j < len → p.inNvm (addr + j) = false) : p.inNvm (x + k) = false := by
  obtain ⟨hmod, hlt, hgt, hpos⟩ := (writeCoversTheOverlappingCells addr len x).mp hx
  obtain ⟨a, hle, hlt, hrange, hend⟩ : ∃ a, x ≤ a ∧ a < x + 4 ∧ addr ≤ a ∧ a < addr + len :=
    ⟨max x addr, by omega, by omega, by omega, by omega⟩
  have ha := hout (a - addr) (by omega)
  have hcell := hp.inNvm_cell hmod hk (show a - x < 4 by omega)
  rwa [Nat.add_sub_cancel' hle, ← Nat.add_sub_cancel' hrange, ha] at hcell

/-- Settles O56: the cells of such a write hold no memory, and programming one of them only counts the draw. -/
theorem outsideTheMemoryNothingIsProgrammed : Obligations.OutsideTheMemoryNothingIsProgrammed := by
  refine ⟨fun c cell w s h => nvmProgramWord_outside w s h,
    ⟨(Config.Params.ok_iff _).mpr Config.params_valid, fun p s => rfl⟩, fun c p s hok hq hle hout => ?_⟩
  have hp := (Config.Params.ok_iff _).mp hok
  obtain ⟨t, hexec, hdone⟩ := execDataIn_done c hq hle
  have hcells := performAll_program_outside c s.cursor.toNat p (cellsOf s.cursor.toNat p.length) (nvmUnlock s)
    (fun x hx => (cellsOf_top hle hx).1) (fun x hx k hk => not_inNvm_cell hp hx hk hout)
  have he := hdone.engine
  simp only [dataActions, writeActions, List.cons_append, performAll_cons, performAll_append, performAll_nil,
    List.append_assoc, perform_nvmUnlock, hcells] at he
  exact ⟨t, hexec, fun a => congrArg (readByte · a) he.nvm, he.nvmFlags, he.nvmLock,
    (congrArg BitVec.toNat he.cursor).trans (toNat_cursor_add _ _), he.tx, hdone.ended⟩

/-! A session of DATA frames. -/

/-- What one DATA frame, or a session of them with the concatenated payloads `p` in `n` frames, does where nothing fails
and the range is erased memory (41 R159; 42 R195). -/
structure Written (p : List Byte) (n : Nat) (s t : State) : Prop where
  cursor : t.cursor.toNat = (s.cursor.toNat + p.length) % 2 ^ 32
  tx : t.tx = s.tx ++ List.replicate n Config.ack
  flags : t.nvmFlags = s.nvmFlags
  inside : ∀ j, j < p.length → readByte t.nvm (s.cursor.toNat + j) = p.getD j 0#8
  outside : ∀ a, ¬ (s.cursor.toNat ≤ a ∧ a < s.cursor.toNat + p.length) → readByte t.nvm a = readByte s.nvm a

/-- The range of `n` bytes at the cursor lies in the address space, in memory, and is erased. -/
structure Blank (p : Config.Params) (n : Nat) (s : State) : Prop where
  below : s.cursor.toNat + n ≤ 2 ^ 32
  bytes : ∀ j, j < n → p.inNvm (s.cursor.toNat + j) = true ∧ readByte s.nvm (s.cursor.toNat + j) = Config.erased

theorem laneUndefined_of_blank {c : Config.Env} {p : List Byte} {s : State} (h : Blank c.params p.length s) (a : Nat) :
    laneUndefined c s.nvm a (sourceByte s.cursor.toNat p a) = false := by
  by_cases ha : s.cursor.toNat ≤ a ∧ a < s.cursor.toNat + p.length
  · have hold := (h.bytes (a - s.cursor.toNat) (by omega)).2
    rw [Nat.add_sub_cancel' ha.1] at hold
    simp [laneUndefined, hold]
  · simp [laneUndefined, sourceByte_outside ha]

/-- One frame onto erased memory. -/
theorem written_data {c : Config.Env} (hr : c.Reliable) {p : List Byte} {s : State} (hq : quiet s = true)
    (h : Blank c.params p.length s) :
    ∃ t, execDataIn c p s = .next t ∧ quiet t = true ∧ Written p 1 s t := by
  obtain ⟨t, hexec, hdone⟩ := execDataIn_done c hq h.below
  obtain ⟨hread, hflags⟩ := reliable_data hr h.below hdone
  obtain ⟨m, f, hall, -⟩ := performAll_data c s p h.below
  have he := hdone.engine
  rw [hall] at he
  refine ⟨t, hexec, quiet_of_suffix hdone.sched hq, (congrArg BitVec.toNat he.cursor).trans (toNat_cursor_add _ _),
    he.tx, hflags (laneUndefined_of_blank h), fun j hj => ?_, fun a ha => ?_⟩
  · obtain ⟨hin, hold⟩ := h.bytes j hj
    obtain ⟨n, hn⟩ := hread (s.cursor.toNat + j)
    rw [hn, hold, laneResult_onto_erased _ hin (hr n), sourceByte_inside (by omega) (by omega),
      Nat.add_sub_cancel_left]
  · obtain ⟨n, hn⟩ := hread a
    rw [hn, sourceByte_outside ha, laneResult_erased hr]

/-- Behind a frame the cursor is its end, unless that is the top of the address space and nothing follows. -/
theorem Written.cursor_eq {p : List Byte} {n k : Nat} {s t : State} (h : Written p n s t)
    (hle : s.cursor.toNat + (p.length + k) ≤ 2 ^ 32) (hk : 0 < k) : t.cursor.toNat = s.cursor.toNat + p.length := by
  rw [h.cursor, Nat.mod_eq_of_lt (by omega)]

/-- A frame leaves the rest of an erased range erased. -/
theorem Written.blank {p : List Byte} {n k : Nat} {q : Config.Params} {s t : State} (h : Written p n s t)
    (hb : Blank q (p.length + k) s) : Blank q k t := by
  rcases Nat.eq_zero_or_pos k with rfl | hk
  · exact ⟨Nat.le_of_lt t.cursor.isLt, fun j hj => absurd hj (Nat.not_lt_zero j)⟩
  · have hcur := h.cursor_eq hb.below hk
    refine ⟨by rw [hcur, Nat.add_assoc]; exact hb.below, fun j hj => ?_⟩
    rw [hcur, Nat.add_assoc, h.outside _ (by omega)]
    exact hb.bytes (p.length + j) (by omega)

/-- A session behind a frame is a session with that frame before it. -/
theorem Written.trans {p q : List Byte} {n : Nat} {s t u : State} (h : Written p 1 s t) (g : Written q n t u)
    (hle : s.cursor.toNat + (p.length + q.length) ≤ 2 ^ 32) : Written (p ++ q) (n + 1) s u := by
  have hcur := h.cursor_eq hle
  refine ⟨?_, ?_, g.flags.trans h.flags, fun j hj => ?_, fun a ha => ?_⟩
  · rw [g.cursor, h.cursor, Nat.mod_add_mod, Nat.add_assoc, List.length_append]
  · rw [g.tx, h.tx, List.append_assoc, List.replicate_append_replicate, Nat.add_comm]
  · rw [List.length_append] at hj
    by_cases hjp : j < p.length
    · rw [List.getD_append _ _ _ _ hjp, g.outside _ (by omega), h.inside j hjp]
    · have hin := g.inside (j - p.length) (by omega)
      rw [hcur (by omega)] at hin
      rw [List.getD_append_right _ _ _ _ (by omega), ← hin]
      congr 1
      omega
  · rw [List.length_append] at ha
    rw [g.outside a (by omega), h.outside a (by omega)]

/-- A session onto erased memory, frame by frame. -/
theorem written_dataSession {c : Config.Env} (hr : c.Reliable) (ps : List (List Byte)) {s : State}
    (hq : quiet s = true) (h : Blank c.params ps.flatten.length s) :
    ∃ t, dataSession c ps s = some t ∧ Written ps.flatten ps.length s t := by
  induction ps generalizing s with
  | nil =>
    refine ⟨s, rfl, (Nat.mod_eq_of_lt s.cursor.isLt).symm, (List.append_nil _).symm, rfl, fun j hj => ?_,
      fun _ _ => rfl⟩
    exact absurd hj (Nat.not_lt_zero j)
  | cons p ps ih =>
    rw [List.flatten_cons, List.length_append] at h
    have hp : Blank c.params p.length s := ⟨by have := h.below; omega, fun j hj => h.bytes j (by omega)⟩
    obtain ⟨t, hexec, hqt, hwritten⟩ := written_data hr hq hp
    obtain ⟨u, hsession, hrest⟩ := ih hqt (hwritten.blank h)
    refine ⟨u, ?_, hwritten.trans hrest h.below⟩
    simp only [dataSession, hexec, hsession]

/-- Settles O28: the session's range is blank, and each frame leaves what is left of it so. -/
theorem dataSessionWritesContiguously : Obligations.DataSessionWritesContiguously := by
  intro c ps s hr hq hle herased
  obtain ⟨t, hsession, hwritten⟩ := written_dataSession hr ps hq ⟨hle, herased⟩
  exact ⟨t, hsession, hwritten.cursor, hwritten.tx, hwritten.flags, hwritten.inside, hwritten.outside⟩

/-! FINISH. -/

theorem rxSide_trans {s t u : State} (h : RxSide s t) (hle : s.rxlen ≤ t.rxlen) (g : RxSide t u) : RxSide s u :=
  ⟨g.wire.trans h.wire, fun i hi => (g.sampled i (Nat.lt_of_lt_of_le hi hle)).trans (h.sampled i hi)⟩

theorem imageSp_inRam_iff (p : Config.Params) (m : Memory) :
    p.inRam (imageSp p m) = true ↔ p.ramLo ≤ memRead m p.appBase.toNat ∧ memRead m p.appBase.toNat ≤ p.ramHi :=
  p.inRam_iff _

/-- A launch from the head of a pass that ends with the clear of RXLEN, under a quiet schedule: the image has control, or
the pass ends with only LSTATE changed (43 R211 to R218). -/
theorem drive_launch_discard (c : Config.Env) {s : State} (he : s.eph = .busy (launchActions ++ [.discard]))
    (hq : quiet s = true) :
    RxSide s (drive c s) ∧
      ((c.params.inRam (imageSp c.params s.nvm) = true ∧ EngineSame (launched c.params s) (drive c s) ∧
          (drive c s).tmrCnt = 0) ∨
        (c.params.inRam (imageSp c.params s.nvm) = false ∧
          EngineSame (setPhase .poll (setLstate .rejected s)) (drive c s) ∧ PassEnded (drive c s) ∧
          TimerSame s (drive c s))) := by
  rcases drive_launch c [.discard] he hq with ⟨hin, hsame, hcnt, hrx⟩ | ⟨hout, t, hd, hsame, hrx, hle, hsched, hcnt⟩
  · exact ⟨hrx, .inl ⟨hin, hsame, hcnt⟩⟩
  · obtain ⟨u, hu, hd'⟩ := drive_quiet c (a := .discard) (k := []) hsame.eph (by simp) (quiet_of_suffix hsched hq)
    have hend : drive c s = act c .discard [] u := by rw [hd, hd', drive_poll c rfl]
    have heng : EngineSame (setPhase .poll (setLstate .rejected s)) (act c .discard [] u) := by
      rw [engineSame_eq hu.engine, engineSame_eq hsame]
      constructor <;> rfl
    rw [hend]
    refine ⟨rxSide_trans hrx hle ⟨hu.rx.wire, hu.rx.sampled⟩, .inr ⟨hout, heng, ⟨rfl, rfl⟩, heng.tmrEn, fun hc => ?_⟩⟩
    have ht : t.tmrEn = false ∨ noTick t = true := hc.imp (fun h => hsame.tmrEn.trans h) (noTick_of_suffix hsched)
    exact (hu.count ht).trans (hcnt hc)

/-- The two ends of FINISH under a quiet schedule. -/
theorem finish_outcome (c : Config.Env) {s t : State} (hq : quiet s = true)
    (h : t = runPass c (finishActions c.params ++ [.discard]) s) :
    RxSide s t ∧
      ((c.params.inRam (imageSp c.params s.nvm) = true ∧ EngineSame (launched c.params (txByte Config.ack s)) t ∧
          t.tmrCnt = 0) ∨
        (c.params.inRam (imageSp c.params s.nvm) = false ∧
          EngineSame (setPhase .poll (setLstate .rejected (txByte Config.ack s))) t ∧ PassEnded t ∧
          TimerSame s t)) := by
  obtain ⟨u, hu, hd⟩ := drive_plain c [.tx Config.ack, .delay c.params.settleMs] (launchActions ++ [.discard])
    (s := setPhase (phaseOf (finishActions c.params ++ [.discard])) s) rfl (by simp) hq
  have hengine : EngineSame (setPhase (.busy (launchActions ++ [.discard])) (txByte Config.ack s)) u := hu.engine
  have ht : t = drive c u := h.trans hd
  obtain ⟨hrx, hcase⟩ := drive_launch_discard c hengine.eph (quiet_of_suffix hu.sched hq)
  have hnvm : u.nvm = s.nvm := hengine.nvm
  rw [← ht, hnvm] at hcase
  rw [← ht] at hrx
  refine ⟨rxSide_trans ⟨hu.rx.wire, hu.rx.sampled⟩ hu.rxlen hrx, hcase.imp (fun ⟨hin, hsame, hcnt⟩ => ?_)
    (fun ⟨hout, hsame, hended, htimer⟩ => ?_)⟩
  · refine ⟨hin, ?_, hcnt⟩
    rw [engineSame_eq hsame, engineSame_eq hengine]
    constructor <;> rfl
  · refine ⟨hout, ?_, hended, htimer.enable.trans hengine.tmrEn, fun hc => ?_⟩
    · rw [engineSame_eq hsame, engineSame_eq hengine]
      constructor <;> rfl
    · have hc' : u.tmrEn = false ∨ noTick u = true :=
        hc.imp (fun h => hengine.tmrEn.trans h) (noTick_of_suffix hu.sched)
      exact (htimer.count hc').trans (hu.count hc)

/-- Settles O30: the image's first word is outside the range, so the launch is rejected. -/
theorem rejectedLaunchLeavesNoTrace : Obligations.RejectedLaunchLeavesNoTrace := by
  intro c p s hq hout
  rw [← imageSp_inRam_iff] at hout
  refine ⟨_, rfl, ?_⟩
  obtain ⟨hrx, ⟨hin, -⟩ | ⟨-, he, hended, htimer⟩⟩ := finish_outcome c hq rfl
  · exact absurd hin hout
  · exact ⟨he.tx, hended, he.lstate, he.dstate, he.cursor,
      nvmSame_of_eq he.nvm he.nvmLock he.nvmFlags,
      ⟨he.cpuMsp, he.cpuPc, he.cpuImask, he.cpuVtbase⟩, htimer, hrx⟩

/-- Settles O29: the two ends of the launch, by the test of the image's first word. -/
theorem finishLaunchesOrReturns : Obligations.FinishLaunchesOrReturns := by
  intro p s hq
  refine ⟨_, rfl, ?_⟩
  simp only [← imageSp_inRam_iff]
  obtain ⟨hrx, ⟨hin, he, hcnt⟩ | ⟨hout, he, hended, htimer⟩⟩ := finish_outcome Config.env hq rfl
  · rw [if_pos hin]
    exact ⟨he.tx, nvmSame_of_eq he.nvm he.nvmLock he.nvmFlags, he.cursor, hrx,
      hasLaunched_of_launched (s := txByte Config.ack s) he hcnt⟩
  · rw [if_neg (Bool.eq_false_iff.mp hout)]
    exact ⟨he.tx, nvmSame_of_eq he.nvm he.nvmLock he.nvmFlags, he.cursor, hrx, hended,
      he.lstate, he.dstate, ⟨he.cpuMsp, he.cpuPc, he.cpuImask, he.cpuVtbase⟩, htimer⟩

/-! All commands. -/

/-- Settles O32: the payload, and the code of UNKNOWN, are arguments no meaning reads. -/
theorem payloadIsOpaque : Obligations.PayloadIsOpaque := fun _ _ _ _ _ => ⟨rfl, rfl, rfl⟩

theorem engineSame_symm {s t : State} (h : EngineSame s t) : EngineSame t s :=
  ⟨h.dstate.symm, h.cursor.symm, h.lstate.symm, h.eph.symm, h.nvm.symm, h.nvmLock.symm, h.nvmFlags.symm, h.cpuMsp.symm,
    h.cpuPc.symm, h.cpuImask.symm, h.cpuVtbase.symm, h.tmrEn.symm, h.tx.symm, h.draws.symm⟩

/-- Two runs that reach one and the same engine agree with each other. -/
theorem engineSame_of_common {s t u : State} (h : EngineSame s t) (g : EngineSame s u) : EngineSame t u :=
  engineSame_trans (engineSame_symm h) g

/-- What 20 R73 asks of two runs: the engine's fields agree, and RXLEN too where the pass returns. -/
def Agree (t u : State) : Prop := EngineSame t u ∧ (t.eph = .poll → t.rxlen = u.rxlen)

/-- Passes of plain actions from states whose engines agree. -/
theorem agree_runPass_plain (c : Config.Env) {k : List Action} {s u : State} (hk : ∀ a ∈ k, plain a = true)
    (hs : quiet s = true) (hu : quiet u = true) (h : EngineSame s u) :
    Agree (runPass c (k ++ [.discard]) s) (runPass c (k ++ [.discard]) u) := by
  have ds := runPass_plain c hk hs
  have du := runPass_plain c hk hu
  have hmid := setPhase_congr .poll (performAll_congr c k h)
  exact ⟨engineSame_of_common ds.engine (engineSame_trans hmid du.engine),
    fun _ => ds.ended.rxlen.trans du.ended.rxlen.symm⟩

theorem launched_congr (p : Config.Params) {s u : State} (h : EngineSame s u) :
    EngineSame (launched p s) (launched p u) := by
  rw [engineSame_eq h]
  constructor <;> rfl

/-- Passes of FINISH from states whose engines agree. -/
theorem agree_runPass_finish (c : Config.Env) {s u : State} (hs : quiet s = true) (hu : quiet u = true)
    (h : EngineSame s u) :
    Agree (runPass c (finishActions c.params ++ [.discard]) s)
      (runPass c (finishActions c.params ++ [.discard]) u) := by
  have hack : EngineSame (txByte Config.ack s) (txByte Config.ack u) := perform_congr c (.tx Config.ack) h
  obtain ⟨-, hcs⟩ := finish_outcome c hs rfl
  obtain ⟨-, hcu⟩ := finish_outcome c hu rfl
  rw [h.nvm] at hcu
  rcases hcs with ⟨hin, es, -⟩ | ⟨hout, es, ends, -⟩
  · rcases hcu with ⟨-, eu, -⟩ | ⟨hout, -⟩
    · refine ⟨engineSame_of_common es (engineSame_trans (launched_congr _ hack) eu), fun hp => ?_⟩
      rw [es.eph] at hp
      cases hp
    · rw [hin] at hout
      cases hout
  · rcases hcu with ⟨hin, -⟩ | ⟨-, eu, endu, -⟩
    · rw [hin] at hout
      cases hout
    · have hmid := setPhase_congr .poll (perform_congr c (.setLstate .rejected) hack)
      exact ⟨engineSame_of_common es (engineSame_trans hmid eu), fun _ => ends.rxlen.trans endu.rxlen.symm⟩

/-- Settles O33: a plain pass does what its list does, and the launch what its test says, whatever RX and the timer do. -/
theorem interleavingDoesNotMatter : Obligations.InterleavingDoesNotMatter := by
  intro i s hq
  have hsame : EngineSame s (setSched [] s) := by constructor <;> rfl
  cases hp : pastTop s.cursor i with
  | true => exact .inr ⟨by rw [exec_eq, hp]; rfl, by rw [exec_eq, setSched_cursor, hp]; rfl⟩
  | false =>
    refine .inl ⟨_, _, by rw [exec_eq, hp]; rfl, by rw [exec_eq, setSched_cursor, hp]; rfl, ?_⟩
    cases i with
    | connect p => exact agree_runPass_plain _ (plain_connectActions _) hq rfl hsame
    | data p => exact agree_runPass_plain _ (plain_dataActions _ _) hq rfl hsame
    | finish p => exact agree_runPass_finish _ hq rfl hsame
    | unknown cmd p => exact agree_runPass_plain _ plain_unknownActions hq rfl hsame

end Sys2Proof.Commands
end

section
/-! PROOF. A receiver hung by a frame larger than its buffer (spec 70 R281), and a boot in direct mode (43 R222; D23). -/

namespace Sys2Proof.HangAndBoot

open Sys2Proof.Machine Sys2Proof.Safety Sys2Proof.FrameDecoder Sys2Proof.OtherTurns Sys2Proof.PausedPasses
  Sys2Proof.Commands

/-! The hung receiver. -/

/-- Whatever the sync bytes: a header of theirs with an announced length that is not yet there (40 R125). -/
theorem decodeWith_buffered_incomplete {k : Config.Sync} {s : State} (h6 : 6 ≤ s.rxlen)
    (ha : readByte s.rxbuf 0 = k.a) (hb : readByte s.rxbuf 1 = k.b)
    (hlt : s.rxlen < 6 + payloadLength (readByte s.rxbuf 3) (readByte s.rxbuf 4)) :
    decodeWith k (buffered s) = .rejected .incomplete := by
  have hget : ∀ i, i < 6 → (buffered s).getD i 0#8 = readByte s.rxbuf i := fun i hi => by
    rw [buffered, getD_readBytes _ _ _ _ (by omega), Nat.zero_add]
  have hlen : (buffered s).length = s.rxlen := length_readBytes _ _ _
  have hchain := decodeTestsInFixedOrder k (buffered s)
  simp only [hget 0 (by omega), hget 1 (by omega), hget 3 (by omega), hget 4 (by omega), hlen] at hchain
  rw [hchain, if_neg (by omega), if_neg (by simp [ha, hb]), if_pos hlt]

theorem decodeWith_of_hung {c : Config.Env} {s : State} (h : Hung c s) :
    decodeWith c.sync (buffered s) = .rejected .incomplete :=
  decodeWith_buffered_incomplete h.header h.sync.1 h.sync.2 (Nat.lt_of_le_of_lt h.room h.tooLong)

/-- A hung receiver stays hung while the bytes sampled, the capacity and the poll stay. -/
theorem hung_of_between {c : Config.Env} {s t : State} (h : Hung c s) (hb : Between s t)
    (hroom : t.rxlen ≤ c.params.rxBufSize) : Hung c t := by
  have hsame : ∀ i, i < 6 → readByte t.rxbuf i = readByte s.rxbuf i := fun i hi =>
    hb.rx.sampled i (Nat.lt_of_lt_of_le hi h.header)
  refine ⟨hb.engine.eph.trans h.poll, Nat.le_trans h.header hb.rxlen, hroom, ?_, ?_⟩
  · rw [hsame 0 (by omega), hsame 1 (by omega)]
    exact h.sync
  · rw [hsame 3 (by omega), hsame 4 (by omega)]
    exact h.tooLong

theorem rxlen_rxAppend_le {c : Config.Env} {s : State} (h : s.rxlen ≤ c.params.rxBufSize) :
    (rxAppend c s).rxlen ≤ c.params.rxBufSize := by
  rw [rxAppend_rxlen]
  split_ifs with hst
  · simpa using ((Bool.and_eq_true _ _).mp hst).2
  · exact h

/-- From a hung receiver every turn but a reset is one of RX or the timer, or leaves all but the schedule. -/
theorem turnIn_of_hung {c : Config.Env} (run : Run) {s : State} (h : Hung c s) (hr : resetNext s = false) :
    ∃ t, turnIn c run s = .next t ∧ Between s t ∧ t.rxlen ≤ c.params.rxBufSize := by
  have hwait : ∀ ts, engMoveIn c run (setSched ts s) = .next (setSched ts s) := by
    intro ts
    have hd : decodeWith c.sync (buffered (setSched ts s)) = .rejected .incomplete := decodeWith_of_hung (s := s) h
    simp only [engMoveIn, setSched_eph, h.poll, passIn, hd, recovery]
  cases hs : s.sched with
  | nil =>
    refine ⟨s, ?_, .refl s, h.room⟩
    rw [turnIn, hs]
    exact hwait s.sched
  | cons x ts =>
    have hturn : Between s (setSched ts s) := .turn hs
    cases x with
    | eng => exact ⟨_, by simp only [turnIn, hs, h.poll, hwait], hturn, h.room⟩
    | rx => exact ⟨_, by simp only [turnIn, hs], hturn.trans (.rxAppend c _), rxlen_rxAppend_le h.room⟩
    | tick => exact ⟨_, by simp only [turnIn, hs], .timerTick c hs, h.room⟩
    | pause => exact ⟨_, by simp only [turnIn, hs], hturn, h.room⟩
    | reset e =>
      rw [resetNext, hs] at hr
      cases hr

/-- Settles O49: the announced frame never fits, so ENG waits at every poll and RX fills what room is left. -/
theorem oversizedFrameHangsTheReceiver : Obligations.OversizedFrameHangsTheReceiver := by
  refine ⟨fun _ => rfl, fun c run s h hr => ?_⟩
  obtain ⟨t, hturn, hb, hroom⟩ := turnIn_of_hung run h hr
  have he := hb.engine
  exact ⟨t, hturn, hung_of_between h hb hroom, he.tx, ⟨he.dstate, he.cursor, he.lstate⟩,
    nvmSame_of_eq he.nvm he.nvmLock he.nvmFlags, ⟨he.cpuMsp, he.cpuPc, he.cpuImask, he.cpuVtbase⟩⟩

/-! Direct boot. -/

theorem step_bootReturn {s : State} {k : List Action} (he : s.eph = .busy (.bootReturn :: k)) (hs : s.sched = []) :
    step s = .refused .directBootRejected := by
  simp only [step, turn, turnIn, hs, engMoveIn, he]

/-- Settles O50: the phase of a direct boot is a launch with the place of the refusal behind it. -/
theorem directBootLaunchesOnce : Obligations.DirectBootLaunchesOnce := by
  refine ⟨fun s ts e hs hg => ?_, fun s ts he hs => ?_, fun s ts hq he hn => ?_⟩
  · refine ⟨_, step_reset hs, ?_, rfl, rfl, rfl, rfl, rfl, rfl, rfl⟩
    change bootPhase e.gate = _
    rw [hg]
    rfl
  · rcases hs with hs | hs
    · exact ⟨_, step_rx hs, he, rfl⟩
    · exact ⟨_, step_tick hs, he, rfl⟩
  · have hm : MidPass s := ⟨_, _, he, by simp⟩
    refine ⟨_, step_of_midPass hm hn, ?_⟩
    simp only [← imageSp_inRam_iff]
    rcases drive_launch Config.env [.bootReturn] he hq with ⟨hin, e, hcnt, -⟩ | ⟨hout, t, hd, e, -⟩
    · rw [if_pos hin]
      exact ⟨nvmSame_of_eq e.nvm e.nvmLock e.nvmFlags, e.tx, hasLaunched_of_launched e hcnt⟩
    · have ht : t.eph = .busy [.bootReturn] := e.eph
      rw [if_neg (Bool.eq_false_iff.mp hout), hd, drive_bootReturn _ ht]
      refine ⟨nvmSame_of_eq e.nvm e.nvmLock e.nvmFlags, e.tx, e.lstate,
        ⟨e.cpuMsp, e.cpuPc, e.cpuImask, e.cpuVtbase⟩, ?_⟩
      rintro u rfl
      exact step_bootReturn (s := setSched [] t) ht rfl

end Sys2Proof.HangAndBoot
end
